-- ==== Sys2Proof/Word.lean ====
section
/-! DEFINITION. The two word types of the engine: the 64-bit array word (R8, R65) and the byte of the image view (R63). -/

namespace Sys2Proof

/-- The array word, the operand bus and the DATA bus: 64 bits (R8, R100). -/
abbrev Word := BitVec 64

/-- One byte of the image view (R63). -/
abbrev Byte := BitVec 8

end Sys2Proof
end

