-- ==== Sys2Proof/Config.lean ====
section
/-! DEFINITION. The parameters the source leaves open (R9, D17, D25), what makes them legal (R9, R146), and the parameters of spec/95_test_vectors.md, which `State.reset` takes (log entry 1), and the one free value. -/

namespace Sys2Proof

/-- The arguments of the model (R9). They are not state: no step changes them. -/
structure Params where
  /-- `NPORTS`, the number of requester ports. -/
  nports : Nat
  /-- `CAP_BLOCKS`, the number of 512-bit blocks of storage. -/
  capBlocks : Nat
  /-- `LOG2NMAX`: the largest shard count is `2 ^ log2nmax`. -/
  log2nmax : Nat
  /-- `PARTITION_TABLE`: row `k - 3` holds the widths for `k`, in probe order (R145: a ROM of 12 rows of 10-bit entries). -/
  table : List (List (BitVec 10))
deriving DecidableEq, Repr

/-- R146(d), (e): for even `k` every width is prime; for odd `k` exactly one width, the filler, is even and not
prime, and every other one is prime. -/
def PrimesLegal (k : Nat) (row : List (BitVec 10)) : Prop :=
  if k % 2 = 0 then ∀ w ∈ row, Nat.Prime w.toNat
  else ∃ filler ∈ row, filler.toNat % 2 = 0 ∧ ¬ Nat.Prime filler.toNat ∧
    ∀ w ∈ row, w ≠ filler → Nat.Prime w.toNat

/-- What R146 asks of the row for `k`. -/
structure RowLegal (k : Nat) (row : List (BitVec 10)) : Prop where
  length_eq : row.length = k
  /-- R146(a). -/
  positive : ∀ w ∈ row, 1 ≤ w.toNat
  /-- R146(b). -/
  distinct : row.Nodup
  /-- R146(c). -/
  sum_eq : (row.map BitVec.toNat).sum = 512
  /-- R146(d), (e). -/
  primes : PrimesLegal k row

/-- The bounds of R9 and the table's constraints of R146 for every `k` in 3..14. -/
structure Params.Legal (p : Params) : Prop where
  nports_pos : 1 ≤ p.nports
  capBlocks_pos : 1 ≤ p.capBlocks
  capBlocks_lt : p.capBlocks < 2 ^ 50
  log2nmax_le : p.log2nmax ≤ 16
  table_length : p.table.length = 12
  rows : ∀ i < 12, RowLegal (i + 3) (p.table.getD i [])

/-- The number of 64-bit words of `ARR` (R41). -/
def Params.words (p : Params) : Nat := p.capBlocks * 8

/-- `NMAX`, the number of add counters (R9, R40). -/
def Params.nmax (p : Params) : Nat := 2 ^ p.log2nmax

/-- A FREE VALUE: what RDCFG reports for an NPORTS that a 64-bit DATA cannot hold. It has no body; nothing constrains it
(log entry 23). -/
opaque Config.unstatedNports : Nat → Word

/-- The illustrative partition table of 92_eei_decisions.md D17: it is NOT gloom's, and no statement may rest on it. -/
def illustrativeTable : List (List (BitVec 10)) :=
  [[167, 172, 173],
   [109, 127, 137, 139],
   [97, 101, 103, 104, 107],
   [71, 73, 79, 89, 97, 103],
   [61, 67, 71, 73, 78, 79, 83],
   [43, 47, 59, 61, 67, 73, 79, 83]] ++
  [[41, 43, 47, 53, 59, 61, 67, 70, 71],
   [31, 37, 41, 43, 47, 53, 59, 61, 67, 73],
   [29, 31, 37, 41, 43, 44, 47, 53, 59, 61, 67],
   [17, 23, 29, 31, 37, 41, 43, 47, 53, 59, 61, 71],
   [17, 19, 23, 29, 31, 37, 41, 43, 47, 52, 53, 59, 61],
   [7, 11, 13, 19, 23, 31, 37, 41, 43, 47, 53, 59, 61, 67]]

/-- The parameters of spec/95_test_vectors.md: `CAP_BLOCKS = 64`, `LOG2NMAX = 4`, `NPORTS = 2`.
DESIGN CHOICE, unsafe: the spec leaves every one of them open; see log entry 1. -/
def Params.reference : Params :=
  { nports := 2, capBlocks := 64, log2nmax := 4, table := illustrativeTable }

end Sys2Proof
end

