-- ==== Sys2Proof/Syntax.lean ====
section
/-! DEFINITION. The commands of the engine (R109), one constructor per row of the opcode table, with the operands the row names (R108, R113), and the request that carries one (R100). -/

namespace Sys2Proof

/-- A request on a port (R100): the command word and the two operand buses. -/
structure Request where
  cmd : BitVec 32
  opa : Word
  opb : Word
deriving DecidableEq, Repr

/-- The twelve commands with their operands. An operand bus a command ignores is no part of it. -/
inductive Instr where
  /-- R270: do nothing. -/
  | nop
  /-- R182: set the probe bits of the hash `h` and count one add. -/
  | add (h : Word)
  /-- R186: report whether every probe bit of `h` is 1. -/
  | test (h : Word)
  /-- R190: report as TEST, then add `h`. -/
  | testadd (h : Word)
  /-- R220: zero the in-use array and counters. -/
  | clear
  /-- R226: count the 1 bits of one shard, or of all where ALL is 1. -/
  | popcnt (all : Bool) (shard : BitVec 16)
  /-- R232: read one shard's counter, or the sum where ALL is 1. -/
  | rdcount (all : Bool) (shard : BitVec 16)
  /-- R238: set one shard's counter to CVAL. -/
  | wrcount (shard : BitVec 16) (cval : Word)
  /-- R252: read the array word WIDX of a shard. -/
  | rdword (shard : BitVec 16) (widx : Word)
  /-- R256: write WVAL to the array word WIDX of a shard. -/
  | wrword (shard : BitVec 16) (widx : Word) (wval : Word)
  /-- R276: construct the filter from VARREQ, KREQ, LOG2NREQ and BREQ. -/
  | config (varreq : BitVec 2) (kreq : BitVec 4) (log2nreq : BitVec 5) (breq : Word)
  /-- R282: read the configuration value SEL selects. -/
  | rdcfg (sel : BitVec 8)
deriving DecidableEq, Repr

/-- The pseudo-commands of R114, each one command: capacity in bits. -/
abbrev Instr.cap : Instr := .rdcfg 0x04
/-- R114: the probe count. -/
abbrev Instr.getk : Instr := .rdcfg 0x01
/-- R114: the block count. -/
abbrev Instr.numblocks : Instr := .rdcfg 0x05
/-- R114: the shard count. -/
abbrev Instr.numshards : Instr := .rdcfg 0x02
/-- R114: the approximate add count, `RDCOUNT *`, which R113 encodes with SHARD 0. -/
abbrev Instr.count : Instr := .rdcount true 0
/-- R114: the numerator of the fill ratio, `POPCNT *`. -/
abbrev Instr.fill : Instr := .popcnt true 0

end Sys2Proof
end

