-- ==== Sys2Proof/WellFormed.lean ====
section
/-! DEFINITION. Which commands the encoding admits: VARREQ is not 3 (R106, R111(d)) and SEL is a selector of R282 (R111(e)). Every other field takes every value of its width. -/

namespace Sys2Proof

/-- A command some legal word encodes. -/
def Instr.wellFormed : Instr → Bool
  | .nop => true
  | .add _ => true
  | .test _ => true
  | .testadd _ => true
  | .clear => true
  | .popcnt _ _ => true
  | .rdcount _ _ => true
  | .wrcount _ _ => true
  | .rdword _ _ => true
  | .wrword _ _ _ => true
  | .config varreq _ _ _ => varreq != 3
  | .rdcfg sel =>
    sel.toNat ≤ 0x09 || (0x10 ≤ sel.toNat && sel.toNat ≤ 0x1D) || (0x20 ≤ sel.toNat && sel.toNat ≤ 0x2D)

end Sys2Proof
end

