-- ==== Sys2Proof/Decode.lean ====
section
/-! DEFINITION. The decoder of R112, total on every request and rejecting by name (R111), the encoder of R103 to R107, the match and mask table of R110, and the reading of a table word. -/

namespace Sys2Proof

/-- Why a command word is illegal: the five conditions of R111, in its order. -/
inductive Illegal where
  /-- R111(a): OP is in 0x0C..0xFF. -/
  | reservedOp
  /-- R111(b): a reserved field of the format is not 0. -/
  | reservedField
  /-- R111(c): ALL is 1 on WRCOUNT, RDWORD or WRWORD. -/
  | allNotAllowed
  /-- R111(d): VARREQ is 3. -/
  | variantThree
  /-- R111(e): SEL is no selector of R282. -/
  | undefinedSelector
deriving DecidableEq, Repr

/-- `validSel` of R282: the selectors of its table. -/
def validSel (sel : BitVec 8) : Bool :=
  ([0x00, 0x01, 0x02, 0x03, 0x04, 0x05, 0x06, 0x07, 0x08, 0x09] : List (BitVec 8)).contains sel ||
    (List.range 14).any fun i => sel == BitVec.ofNat 8 (0x10 + i) || sel == BitVec.ofNat 8 (0x20 + i)

/-- Formats N and P (R103, R104): CMD[31:8] is reserved. -/
def decodeNP (c : BitVec 32) (i : Instr) : Except Illegal Instr :=
  if c.extractLsb 31 8 = 0 then .ok i else .error .reservedField

/-- Format S with an ALL flag (R105): CMD[15:9] is reserved. -/
def decodeAggregate (c : BitVec 32) (mk : Bool → BitVec 16 → Instr) : Except Illegal Instr :=
  if c.extractLsb 15 9 = 0 then .ok (mk (c.getLsbD 8) (c.extractLsb 31 16)) else .error .reservedField

/-- Format S without ALL (R105, R112): CMD[15:8] must be 0. -/
def decodeShard (c : BitVec 32) (mk : BitVec 16 → Instr) : Except Illegal Instr :=
  if c.extractLsb 15 9 ≠ 0 then .error .reservedField
  else if c.getLsbD 8 then .error .allNotAllowed
  else .ok (mk (c.extractLsb 31 16))

/-- Format C (R106). -/
def decodeConfig (c : BitVec 32) (breq : Word) : Except Illegal Instr :=
  if c.extractLsb 11 8 ≠ 0 ∨ c.extractLsb 19 18 ≠ 0 ∨ c.extractLsb 31 25 ≠ 0 then .error .reservedField
  else if c.extractLsb 17 16 = 3 then .error .variantThree
  else .ok (.config (c.extractLsb 17 16) (c.extractLsb 15 12) (c.extractLsb 24 20) breq)

/-- Format R (R107). -/
def decodeSelector (c : BitVec 32) : Except Illegal Instr :=
  if c.extractLsb 31 16 ≠ 0 then .error .reservedField
  else if validSel (c.extractLsb 15 8) then .ok (.rdcfg (c.extractLsb 15 8))
  else .error .undefinedSelector

/-- The decoding function of R112. It reads no state. -/
def decode (r : Request) : Except Illegal Instr :=
  match (r.cmd.extractLsb 7 0).toNat with
  | 0x00 => decodeNP r.cmd .nop
  | 0x01 => decodeNP r.cmd (.add r.opa)
  | 0x02 => decodeNP r.cmd (.test r.opa)
  | 0x03 => decodeNP r.cmd (.testadd r.opa)
  | 0x04 => decodeNP r.cmd .clear
  | 0x05 => decodeAggregate r.cmd .popcnt
  | 0x06 => decodeAggregate r.cmd .rdcount
  | 0x07 => decodeShard r.cmd fun s => .wrcount s r.opa
  | 0x08 => decodeShard r.cmd fun s => .rdword s r.opa
  | 0x09 => decodeShard r.cmd fun s => .wrword s r.opa r.opb
  | 0x0A => decodeConfig r.cmd r.opa
  | 0x0B => decodeSelector r.cmd
  | _ => .error .reservedOp

/-- The command word of formats N and P. -/
def cmdNP (op : BitVec 8) : BitVec 32 := (0 : BitVec 24) ++ op

/-- The command word of format S. -/
def cmdS (op : BitVec 8) (all : Bool) (shard : BitVec 16) : BitVec 32 :=
  shard ++ (0 : BitVec 7) ++ BitVec.ofBool all ++ op

/-- The command word of format C. -/
def cmdC (varreq : BitVec 2) (kreq : BitVec 4) (log2nreq : BitVec 5) : BitVec 32 :=
  (0 : BitVec 7) ++ log2nreq ++ (0 : BitVec 2) ++ varreq ++ kreq ++ (0 : BitVec 4) ++ (0x0A : BitVec 8)

/-- The command word of format R. -/
def cmdR (sel : BitVec 8) : BitVec 32 := (0 : BitVec 16) ++ sel ++ (0x0B : BitVec 8)

/-- The request that carries a command (R113): an operand bus the command ignores is driven with 0. -/
def encode : Instr → Request
  | .nop => ⟨cmdNP 0x00, 0, 0⟩
  | .add h => ⟨cmdNP 0x01, h, 0⟩
  | .test h => ⟨cmdNP 0x02, h, 0⟩
  | .testadd h => ⟨cmdNP 0x03, h, 0⟩
  | .clear => ⟨cmdNP 0x04, 0, 0⟩
  | .popcnt all shard => ⟨cmdS 0x05 all shard, 0, 0⟩
  | .rdcount all shard => ⟨cmdS 0x06 all shard, 0, 0⟩
  | .wrcount shard cval => ⟨cmdS 0x07 false shard, cval, 0⟩
  | .rdword shard widx => ⟨cmdS 0x08 false shard, widx, 0⟩
  | .wrword shard widx wval => ⟨cmdS 0x09 false shard, widx, wval⟩
  | .config varreq kreq log2nreq breq => ⟨cmdC varreq kreq log2nreq, breq, 0⟩
  | .rdcfg sel => ⟨cmdR sel, 0, 0⟩

/-- A row of the match and mask table of R110. -/
structure OpRow where
  mnemonic : String
  matchBits : BitVec 32
  mask : BitVec 32
deriving DecidableEq, Repr

/-- The match and mask table of R110. -/
def opRows : List OpRow :=
  [⟨"NOP", 0x00000000, 0xFFFFFFFF⟩, ⟨"ADD", 0x00000001, 0xFFFFFFFF⟩, ⟨"TEST", 0x00000002, 0xFFFFFFFF⟩,
   ⟨"TESTADD", 0x00000003, 0xFFFFFFFF⟩, ⟨"CLEAR", 0x00000004, 0xFFFFFFFF⟩, ⟨"POPCNT", 0x00000005, 0x0000FEFF⟩,
   ⟨"RDCOUNT", 0x00000006, 0x0000FEFF⟩, ⟨"WRCOUNT", 0x00000007, 0x0000FFFF⟩, ⟨"RDWORD", 0x00000008, 0x0000FFFF⟩,
   ⟨"WRWORD", 0x00000009, 0x0000FFFF⟩, ⟨"CONFIG", 0x0000000A, 0xFE0C0FFF⟩, ⟨"RDCFG", 0x0000000B, 0xFFFF00FF⟩]

/-- R110: a word selects a row when `(CMD & mask) == match`. -/
def OpRow.selects (row : OpRow) (c : BitVec 32) : Bool := c &&& row.mask == row.matchBits

/-- The row of R110 a command belongs to, by its place in the table. -/
def Instr.rowIndex : Instr → Nat
  | .nop => 0
  | .add _ => 1
  | .test _ => 2
  | .testadd _ => 3
  | .clear => 4
  | .popcnt _ _ => 5
  | .rdcount _ _ => 6
  | .wrcount _ _ => 7
  | .rdword _ _ => 8
  | .wrword _ _ _ => 9
  | .config _ _ _ _ => 10
  | .rdcfg _ => 11

/-- A request laid out as one number: CMD in bits 31..0, OPA in bits 95..32, OPB in bits 159..96 (log entry 16). -/
def Request.ofBits (w : Nat) : Request :=
  { cmd := BitVec.ofNat 32 w, opa := BitVec.ofNat 64 (w / 2 ^ 32), opb := BitVec.ofNat 64 (w / 2 ^ 96) }

/-- The request of a table word: its low `nbits` bits, and every bit above them 0. -/
def Request.ofTableWord (nbits w : Nat) : Request := Request.ofBits (w % 2 ^ nbits)

/-- The command the decoder reads from a table word. -/
def decodeTableWord (nbits w : Nat) : Option Instr :=
  match decode (Request.ofTableWord nbits w) with
  | .ok i => some i
  | .error _ => none

end Sys2Proof
end

