-- ==== Sys2Proof/Machine/State.lean ====
section
/-! DEFINITION. The state of the engine as plain data (R30 to R45), the schedule of moves a run follows (R73), the stops, and the state after reset (R380). -/

namespace Sys2Proof.Machine

/-- The concurrency variant held by `CFG.VAR` (R3, R33). Encoding 3 is reserved and never held. -/
inductive Variant where
  | unsync
  | atomic
  | sharded
deriving DecidableEq, Repr

/-- The status of a response (R340). Codes 5..15 are never produced (I19). -/
inductive Status where
  /-- The command was performed. -/
  | ok
  /-- The command word is illegal (R341). -/
  | illegal
  /-- The command needs a configuration and `CFG.VALID` is 0 (R342). -/
  | unconfigured
  /-- A shard number, word index or partition index is out of range (R343). -/
  | range
  /-- CONFIG asked for a configuration the engine cannot hold (R344). -/
  | config
deriving DecidableEq, Repr

/-- The configuration registers (R32 to R36). -/
structure Cfg where
  /-- `CFG.VALID` (R32). -/
  valid : Bool
  /-- `CFG.VAR` (R33). -/
  var : Variant
  /-- `CFG.K`, the probe count (R34). -/
  k : BitVec 4
  /-- `CFG.B`, the blocks per shard (R35). -/
  b : BitVec 64
  /-- `CFG.LOG2N`, the logarithm of the shard count (R36). -/
  log2n : BitVec 5
deriving DecidableEq, Repr

/-- One indivisible micro-operation, by the kinds of R72. Addresses are indices of `ARR` words or of counters. -/
inductive Event where
  /-- `AtomicLoad(g)` returns `ARR[g]`. -/
  | atomicLoad (g : Nat)
  /-- `AtomicOr(g, m)`. -/
  | atomicOr (g : Nat) (m : Word)
  /-- `Store(g, v)`. -/
  | store (g : Nat) (v : Word)
  /-- `CountLoad(s)` returns `COUNT[s]`. -/
  | countLoad (s : Nat)
  /-- `AtomicInc(s)`. -/
  | atomicInc (s : Nat)
  /-- `CountStore(s, v)`. -/
  | countStore (s : Nat) (v : Word)
  /-- `CfgWrite`: the whole configuration update of CONFIG. -/
  | cfgWrite (var : Variant) (k : BitVec 4) (b : BitVec 64) (log2n : BitVec 5)
deriving DecidableEq, Repr

/-- A line of a command's pseudocode marked `event` (R14), with what the command does with the value it returns. -/
inductive Task where
  /-- R186: load word `g`; the probe reads 0 if the bit of mask `m` is 0. -/
  | probe (g : Nat) (m : Word)
  /-- R182: OR mask `m` into word `g`. -/
  | setBit (g : Nat) (m : Word)
  /-- R183: the load half of a plain read-modify-write. -/
  | rmwLoad (g : Nat) (m : Word)
  /-- R183: the store half, with the value to store. -/
  | rmwStore (g : Nat) (v : Word)
  /-- R182: increment counter `s`. -/
  | inc (s : Nat)
  /-- R226: load word `g` and add its 1 bits to the count. -/
  | countOnes (g : Nat)
  /-- R232: load counter `s` and add it to the sum. -/
  | addCount (s : Nat)
  /-- R252: load word `g`. -/
  | readWord (g : Nat)
  /-- R220, R256, R276: store `v` to word `g`. -/
  | storeWord (g : Nat) (v : Word)
  /-- R220, R238, R276: store `v` to counter `s`. -/
  | storeCount (s : Nat) (v : Word)
  /-- R276: write the configuration and partition registers. -/
  | writeCfg (var : Variant) (k : BitVec 4) (b : BitVec 64) (log2n : BitVec 5)
deriving DecidableEq, Repr

/-- A micro-operation already performed and the value it returned (R43); a write returns 0. -/
structure Done where
  task : Task
  value : Word
deriving DecidableEq, Repr

/-- How the DATA of a successful response comes from the values returned. -/
inductive Result where
  /-- A value known without any event (R182, R270, R282). -/
  | value (v : Word)
  /-- TEST's `r`: 1 if every probe loaded had its bit set (R186). -/
  | present
  /-- POPCNT's `acc` (R226). -/
  | ones
  /-- RDCOUNT's `c` or `acc` (R232). -/
  | countSum
  /-- RDWORD's `w` (R252). -/
  | word
deriving DecidableEq, Repr

/-- What an accepted command does, fixed when it is accepted (log entry 9): its status, a first part whose
events come in any order, and a second part after it, which only TESTADD has (R74). -/
structure Program where
  status : Status
  first : List Task
  second : List Task
  /-- R191: the second part is performed only if the first part found the key absent. -/
  onlyIfAbsent : Bool
  result : Result
deriving DecidableEq, Repr

/-- Which part of its program a command in flight is in. -/
inductive Part where
  | first
  | second
deriving DecidableEq, Repr

/-- A command in flight: `BUSY(cmd, opA, opB, progress)` of R43. -/
structure Flight where
  /-- The request accepted: cmd, opA and opB. -/
  req : Request
  prog : Program
  part : Part
  /-- The micro-operations of the current part not yet performed. -/
  todo : List Task
  /-- The micro-operations already performed with the values they returned, newest first. -/
  done : List Done
deriving DecidableEq, Repr

/-- The state of a port (R43). -/
inductive Port where
  | idle
  | busy (f : Flight)
deriving DecidableEq, Repr

/-- The set `FAULTS` over its two names (R45, R350). -/
structure FaultSet where
  /-- `F_EXCL_OVERLAP` (R351). -/
  excl : Bool
  /-- `F_UNSYNC_OVERLAP` (R352). -/
  unsync : Bool
deriving DecidableEq, Repr

/-- A response delivered on a port (R100, R101). -/
structure Response where
  port : Nat
  status : Status
  data : Word
deriving DecidableEq, Repr

/-- What the storage holds after reset where R380 says "unspecified": any value (I15). -/
structure Residue where
  var : Variant
  k : BitVec 4
  b : BitVec 64
  log2n : BitVec 5
  pw : Vector (BitVec 10) 14
  po : Vector (BitVec 10) 14
  count : List (Nat × BitVec 64)
  arr : List Host.Cell
deriving DecidableEq, Repr

/-- One move of a run: the atomic steps accept, event and respond of R73 and R101, the short-circuit of R187,
the reset wire of R381, and a whole command performed without another port's event inside it (R71). -/
inductive Move where
  /-- Port `p` presents `r`, and every step of that command from acceptance to response follows at once. -/
  | command (p : Nat) (r : Request)
  /-- Port `p` presents `r` and the engine accepts it. -/
  | accept (p : Nat) (r : Request)
  /-- The command in flight on port `p` performs the micro-operation at place `n` of those left to it. -/
  | event (p : Nat) (n : Nat)
  /-- The command in flight on port `p` skips its remaining probe loads, having found a 0. -/
  | shortCircuit (p : Nat)
  /-- The response of the command in flight on port `p` is delivered. -/
  | respond (p : Nat)
  /-- `rst_n` is asserted; `u` is what the storage then holds. -/
  | reset (u : Residue)
deriving DecidableEq, Repr

/-- The state of the engine (R30), with the model's own fields after it. -/
structure State where
  /-- The parameters (R9): arguments of the model, changed by no step (log entry 1). -/
  params : Params
  /-- The configuration registers (R32 to R36). -/
  cfg : Cfg
  /-- `PW[0..13]` (R38). -/
  pw : Vector (BitVec 10) 14
  /-- `PO[0..13]` (R38). -/
  po : Vector (BitVec 10) 14
  /-- `COUNT` (R40): the counters that are not 0, by shard number. -/
  count : List (Nat × BitVec 64)
  /-- `ARR` (R41) in the byte view of R63: the bytes that are not 0, by byte address. -/
  arr : List Host.Cell
  /-- `PORT[0..NPORTS-1]` (R43). -/
  ports : List Port
  /-- `FAULTS` (R45). -/
  faults : FaultSet
  /-- The moves to come (R73): the host's requests and the order of everything (log entry 2). -/
  sched : List Move
  /-- The port whose command `exec` runs (log entry 3). -/
  grant : Nat
  /-- The responses delivered, newest first (log entry 13). -/
  delivered : List Response
deriving DecidableEq, Repr

/-- The stops of the machine. -/
inductive Fault where
  /-- `F_EXCL_OVERLAP` alone is recorded and the state is stuck (R350, R351). Raised by `step` and `exec` in such a state.
  Safe: the spec says the model takes no further step. -/
  | exclOverlap
  /-- `F_UNSYNC_OVERLAP` alone is recorded and the state is stuck (R350, R352). Raised as above. Safe. -/
  | unsyncOverlap
  /-- Both faults are recorded and the state is stuck (R350, R352). Raised as above. Safe. -/
  | exclAndUnsyncOverlap
  /-- An event names a word at or above `CAP_BLOCKS * 8`, which does not exist (R62). Raised by `perform`;
  no legal state reaches it (log entry 10). Safe. -/
  | noSuchWord
  /-- An event names a counter at or above `NMAX`, which does not exist (R40). Raised by `perform`;
  no legal state reaches it (log entry 10). Safe. -/
  | noSuchCounter
deriving DecidableEq, Repr

/-- The refusals of the machine. -/
inductive Refusal where
  /-- An instruction without a meaning. Raised by an arm of `exec` only; no arm raises it. Safe. -/
  | notModelled (mnemonic : String)
deriving DecidableEq, Repr

/-- Storage that is 0 everywhere. DESIGN CHOICE, unsafe: R380 leaves these values unspecified; see log entry 5. -/
def Residue.zero : Residue :=
  { var := .unsync, k := 0, b := 0, log2n := 0, pw := Vector.replicate 14 0, po := Vector.replicate 14 0,
    count := [], arr := [] }

/-- The state after reset of an engine with parameters `p` whose storage holds `u` (R380): `CFG.VALID` is 0,
every port is IDLE, `FAULTS` is empty, and the rest is unspecified. -/
def State.resetWith (p : Params) (u : Residue) : State :=
  { params := p
    cfg := { valid := false, var := u.var, k := u.k, b := u.b, log2n := u.log2n }
    pw := u.pw
    po := u.po
    count := u.count
    arr := u.arr
    ports := List.replicate p.nports .idle
    faults := { excl := false, unsync := false }
    sched := []
    grant := 0
    delivered := [] }

/-- The state after reset with the parameters of log entry 1 and the contents of log entry 5. -/
def State.reset : State := State.resetWith Params.reference Residue.zero

end Sys2Proof.Machine
end

