-- ==== Sys2Proof/Machine/Ops.lean ====
section
/-! DEFINITION. The named operations on the state: cells, array words, counters, ports, the events of R72, the running of a command's events, raising a status, recording a fault (R13, R350), and delivering a response. -/

namespace Sys2Proof.Machine

/-! ## Cells: sparse storage in one canonical form -/

/-- What a key that is not listed reads as. DESIGN CHOICE, unsafe: see log entry 6. -/
def unlisted (w : Nat) : BitVec w := 0

/-- The value at key `a`. -/
def cellGet {w : Nat} : List (Nat × BitVec w) → Nat → BitVec w
  | [], _ => unlisted w
  | (b, v) :: t, a => if b = a then v else cellGet t a

/-- Put a cell in its place by key. -/
def cellInsert {w : Nat} : List (Nat × BitVec w) → Nat → BitVec w → List (Nat × BitVec w)
  | [], a, v => [(a, v)]
  | (b, x) :: t, a, v => if a < b then (a, v) :: (b, x) :: t else (b, x) :: cellInsert t a v

/-- Take a key's cell out. -/
def cellErase {w : Nat} : List (Nat × BitVec w) → Nat → List (Nat × BitVec w)
  | [], _ => []
  | (b, x) :: t, a => if b = a then cellErase t a else (b, x) :: cellErase t a

/-- Write `v` at key `a`; writing what an unlisted key reads as takes the cell out. -/
def cellPut {w : Nat} (c : List (Nat × BitVec w)) (a : Nat) (v : BitVec w) : List (Nat × BitVec w) :=
  if v = unlisted w then cellErase c a else cellInsert (cellErase c a) a v

/-- The canonical form: keys strictly rising, and no cell equal to what an unlisted key reads as. -/
def cellsWf {w : Nat} : List (Nat × BitVec w) → Bool
  | [] => true
  | (a, v) :: t => v != unlisted w && t.all (fun c => a < c.1) && cellsWf t

/-- Every key is below `n`. -/
def cellsBelow {w : Nat} (n : Nat) (c : List (Nat × BitVec w)) : Bool := c.all fun x => x.1 < n

/-- The canonical form of the array's storage. -/
def Memory.wf (m : List Host.Cell) : Bool := cellsWf m

/-! ## The array (R41, R63) -/

/-- Byte `a` of the image view. -/
def State.byte (s : State) (a : Nat) : Byte := cellGet s.arr a

/-- The word of eight bytes, least significant first (R63). -/
def wordOfBytes (b0 b1 b2 b3 b4 b5 b6 b7 : Byte) : Word := b7 ++ b6 ++ b5 ++ b4 ++ b3 ++ b2 ++ b1 ++ b0

/-- Bits `[8j+7 : 8j]` of a word (R63). -/
def byteOfWord (v : Word) (j : Nat) : Byte := v.extractLsb' (8 * j) 8

/-- The word `g` of storage: bytes `g*8 .. g*8+7` (R63). -/
def loadWord (m : List Host.Cell) (g : Nat) : Word :=
  wordOfBytes (cellGet m (g * 8)) (cellGet m (g * 8 + 1)) (cellGet m (g * 8 + 2)) (cellGet m (g * 8 + 3))
    (cellGet m (g * 8 + 4)) (cellGet m (g * 8 + 5)) (cellGet m (g * 8 + 6)) (cellGet m (g * 8 + 7))

/-- Write the low `n` bytes of `v` from address `a`, lowest first. -/
def storeBytes (m : List Host.Cell) (a : Nat) (v : Word) : Nat → List Host.Cell
  | 0 => m
  | n + 1 => cellPut (storeBytes m a v n) (a + n) (byteOfWord v n)

/-- Write word `g` of storage. -/
def storeWord (m : List Host.Cell) (g : Nat) (v : Word) : List Host.Cell := storeBytes m (g * 8) v 8

/-- `ARR[g]`. -/
def State.word (s : State) (g : Nat) : Word := loadWord s.arr g

/-- `ARR[g] <- v`. -/
def State.putWord (s : State) (g : Nat) (v : Word) : State := { s with arr := storeWord s.arr g v }

/-! ## The counters (R40) -/

/-- `COUNT[i]`. -/
def State.counter (s : State) (i : Nat) : BitVec 64 := cellGet s.count i

/-- `COUNT[i] <- v`. -/
def State.putCounter (s : State) (i : Nat) (v : BitVec 64) : State := { s with count := cellPut s.count i v }

/-! ## The partition table and registers (R38, R145 to R148) -/

/-- `PARTITION_TABLE(k)`, "not found" outside 3..14 (R147). -/
def tableRow (p : Params) (k : Nat) : Option (List (BitVec 10)) :=
  if 3 ≤ k ∧ k ≤ 14 then p.table[k - 3]? else none

/-- The exclusive prefix sums of the widths from `acc` on (R148). -/
def prefixSums (acc : BitVec 10) : List (BitVec 10) → List (BitVec 10)
  | [] => []
  | w :: t => acc :: prefixSums (acc + w) t

/-- Overwrite the first entries of a register file with a list; the rest keep what they held (R38, log entry 11). -/
def loadRow (v : Vector (BitVec 10) 14) (row : List (BitVec 10)) : Vector (BitVec 10) 14 :=
  Vector.ofFn fun i => (row[i.val]?).getD v[i]

/-- `PW[i]`, 0 for an index beyond the registers. -/
def State.width (s : State) (i : Nat) : Nat := (s.pw[i]?.getD 0).toNat

/-- `PO[i]`, 0 for an index beyond the registers. -/
def State.offset (s : State) (i : Nat) : Nat := (s.po[i]?.getD 0).toNat

/-- The update of the `CfgWrite` event (R276). -/
def State.writeCfg (s : State) (var : Variant) (k : BitVec 4) (b : BitVec 64) (log2n : BitVec 5) : State :=
  { s with
    cfg := { valid := true, var := var, k := k, b := b, log2n := log2n }
    pw := loadRow s.pw (((tableRow s.params k.toNat).getD []).take k.toNat)
    po := loadRow s.po (prefixSums 0 (((tableRow s.params k.toNat).getD []).take k.toNat)) }

/-! ## Derived quantities (R37) -/

/-- `N = 2^CFG.LOG2N`. -/
def Cfg.shards (c : Cfg) : Nat := 2 ^ c.log2n.toNat

/-- `TOTAL_BLOCKS = N * CFG.B`. -/
def Cfg.totalBlocks (c : Cfg) : Nat := c.shards * c.b.toNat

/-- The number of words in use, `TOTAL_BLOCKS * 8` (R41). -/
def Cfg.usedWords (c : Cfg) : Nat := c.totalBlocks * 8

/-- `CAP_BITS = TOTAL_BLOCKS * 512`. -/
def Cfg.capBits (c : Cfg) : Nat := c.totalBlocks * 512

/-! ## Events (R72) -/

/-- Perform one event: the state it leaves and the value it returns, 0 for a write.
A word or counter that does not exist stops the machine (R40, R62, log entry 10). -/
def perform (s : State) : Event → Except Fault (State × Word)
  | .atomicLoad g => if g < s.params.words then .ok (s, s.word g) else .error .noSuchWord
  | .atomicOr g m => if g < s.params.words then .ok (s.putWord g (s.word g ||| m), 0) else .error .noSuchWord
  | .store g v => if g < s.params.words then .ok (s.putWord g v, 0) else .error .noSuchWord
  | .countLoad i => if i < s.params.nmax then .ok (s, s.counter i) else .error .noSuchCounter
  | .atomicInc i => if i < s.params.nmax then .ok (s.putCounter i (s.counter i + 1), 0) else .error .noSuchCounter
  | .countStore i v => if i < s.params.nmax then .ok (s.putCounter i v, 0) else .error .noSuchCounter
  | .cfgWrite var k b log2n => .ok (s.writeCfg var k b log2n, 0)

/-- The event a task performs. -/
def Task.event : Task → Event
  | .probe g _ => .atomicLoad g
  | .setBit g m => .atomicOr g m
  | .rmwLoad g _ => .atomicLoad g
  | .rmwStore g v => .store g v
  | .inc i => .atomicInc i
  | .countOnes g => .atomicLoad g
  | .addCount i => .countLoad i
  | .readWord g => .atomicLoad g
  | .storeWord g v => .store g v
  | .storeCount i v => .countStore i v
  | .writeCfg var k b log2n => .cfgWrite var k b log2n

/-- What a task leaves to perform after it, given the value it returned: the store half of a read-modify-write (R183). -/
def Task.followUp : Task → Word → Option Task
  | .rmwLoad g m, v => some (.rmwStore g (v ||| m))
  | .probe _ _, _ => none
  | .setBit _ _, _ => none
  | .rmwStore _ _, _ => none
  | .inc _, _ => none
  | .countOnes _, _ => none
  | .addCount _, _ => none
  | .readWord _, _ => none
  | .storeWord _ _, _ => none
  | .storeCount _ _, _ => none
  | .writeCfg _ _ _ _, _ => none

/-- Perform one task: the state it leaves and the record of it. -/
def runTask (s : State) (t : Task) : Except Fault (State × Done) :=
  match perform s t.event with
  | .error e => .error e
  | .ok (s1, v) => .ok (s1, ⟨t, v⟩)

/-- Perform a task and, next after it, what it leaves to perform, adding to the record `done`. -/
def runWithFollowUp (s : State) (t : Task) (done : List Done) : Except Fault (State × List Done) :=
  match runTask s t with
  | .error e => .error e
  | .ok (s1, d) =>
    match t.followUp d.value with
    | none => .ok (s1, d :: done)
    | some t2 =>
      match runTask s1 t2 with
      | .error e => .error e
      | .ok (s2, d2) => .ok (s2, d2 :: d :: done)

/-- Perform tasks in the order of the list, without another port's event between them (R71). -/
def runTasks (s : State) : List Task → List Done → Except Fault (State × List Done)
  | [], done => .ok (s, done)
  | t :: rest, done =>
    match runWithFollowUp s t done with
    | .error e => .error e
    | .ok (s1, done1) => runTasks s1 rest done1

/-! ## Faults (R350) -/

/-- Why a state with these faults recorded is stuck; nothing where none is recorded. -/
def FaultSet.stuck (f : FaultSet) : Option Fault :=
  match f.excl, f.unsync with
  | false, false => none
  | true, false => some .exclOverlap
  | false, true => some .unsyncOverlap
  | true, true => some .exclAndUnsyncOverlap

/-- Add faults to the set: one recorded is never removed (R45). -/
def FaultSet.union (f g : FaultSet) : FaultSet := ⟨f.excl || g.excl, f.unsync || g.unsync⟩

/-! ## Ports and responses (R13, R43, R101) -/

/-- Port `p` exists and is IDLE, so that a request can be accepted on it. -/
def State.canAccept (s : State) (p : Nat) : Bool := s.ports[p]? == some .idle

/-- The command in flight on port `p`. -/
def State.flight (s : State) (p : Nat) : Option Flight :=
  match s.ports[p]? with
  | some (.busy f) => some f
  | some .idle => none
  | none => none

/-- Set the state of port `p`. -/
def State.setPort (s : State) (p : Nat) (x : Port) : State := { s with ports := s.ports.set p x }

/-- Record faults. -/
def State.recordFaults (s : State) (f : FaultSet) : State := { s with faults := s.faults.union f }

/-- Deliver a response on port `p`. -/
def State.deliver (s : State) (p : Nat) (status : Status) (data : Word) : State :=
  { s with delivered := ⟨p, status, data⟩ :: s.delivered }

/-- `raise <Status>` of R13: respond with the status and DATA 0, with no event and no state change. -/
def Program.raise (status : Status) : Program :=
  { status := status, first := [], second := [], onlyIfAbsent := false, result := .value 0 }

/-- Respond OK with a value and no event. -/
def Program.answer (v : Word) : Program :=
  { status := .ok, first := [], second := [], onlyIfAbsent := false, result := .value v }

/-- Perform tasks in any order and respond OK. -/
def Program.perform (first : List Task) (result : Result) : Program :=
  { status := .ok, first := first, second := [], onlyIfAbsent := false, result := result }

end Sys2Proof.Machine
end

