-- ==== Sys2Proof/Machine/Operands.lean ====
section
/-! DEFINITION. The datapath of 40_datapath.md: the hash-field multiplexer, the block partitioner, and the word indices a command's operands name. Nothing here performs an event. -/

namespace Sys2Proof.Machine

/-- The encodings of `CFG.VAR` (R33). -/
def Variant.code : Variant → Nat
  | .unsync => 0
  | .atomic => 1
  | .sharded => 2

/-- The variant VARREQ asks for; 3 is none (R106). -/
def variantOfCode (v : BitVec 2) : Option Variant :=
  match v.toNat with
  | 0 => some .unsync
  | 1 => some .atomic
  | 2 => some .sharded
  | _ => none

/-- The three fields of a hash (R141, R142). -/
structure Fields where
  shardIndex : Nat
  blockIndex : Nat
  intraHash : Nat
deriving DecidableEq, Repr

/-- The field split of UNSYNC and ATOMIC (R141). -/
def fieldsPlain (c : Cfg) (h : Word) : Fields :=
  { shardIndex := 0
    blockIndex := (h.extractLsb 63 32).toNat % c.b.toNat
    intraHash := (h.extractLsb 31 0).toNat }

/-- The field split of SHARDED (R142). -/
def fieldsSharded (c : Cfg) (h : Word) : Fields :=
  { shardIndex := (h.extractLsb 47 32).toNat % c.shards
    blockIndex := (h.extractLsb 63 48).toNat % c.b.toNat
    intraHash := (h.extractLsb 31 0).toNat }

/-- The hash-field multiplexer (R141 to R143). -/
def hashFields (c : Cfg) (h : Word) : Fields :=
  match c.var with
  | .unsync => fieldsPlain c h
  | .atomic => fieldsPlain c h
  | .sharded => fieldsSharded c h

/-- The probe position `pos(i)` (R149), from the partition registers. -/
def probePos (s : State) (intraHash i : Nat) : Nat := s.offset i + intraHash % s.width i

/-- `gword` of R60. -/
def gword (c : Cfg) (shard block p : Nat) : Nat := (shard * c.b.toNat + block) * 8 + p / 64

/-- `gmask` of R60. -/
def gmask (p : Nat) : Word := BitVec.twoPow 64 (p % 64)

/-- The word of probe `i` of hash `h`, `g(i)` (R150). -/
def probeWord (s : State) (h : Word) (i : Nat) : Nat :=
  let f := hashFields s.cfg h
  gword s.cfg f.shardIndex f.blockIndex (probePos s f.intraHash i)

/-- The mask of probe `i` of hash `h`, `m(i)` (R150). -/
def probeMask (s : State) (h : Word) (i : Nat) : Word :=
  gmask (probePos s (hashFields s.cfg h).intraHash i)

/-- The shard hash `h` is routed to (R181). -/
def hashShard (s : State) (h : Word) : Nat := (hashFields s.cfg h).shardIndex

/-- A task for each of the `CFG.K` probes of `h`. -/
def forEachProbe (s : State) (h : Word) (task : Nat → Word → Task) : List Task :=
  (List.range s.cfg.k.toNat).map fun i => task (probeWord s h i) (probeMask s h i)

/-- SHARD names a shard of the configuration (R343). -/
def Cfg.hasShard (c : Cfg) (shard : BitVec 16) : Bool := shard.toNat < c.shards

/-- WIDX names a word of a shard (R250, R343). -/
def Cfg.hasWord (c : Cfg) (widx : Word) : Bool := widx.toNat < c.b.toNat * 8

/-- The global word of `(SHARD, WIDX)` (R250). -/
def imageWord (c : Cfg) (shard : BitVec 16) (widx : Word) : Nat := shard.toNat * c.b.toNat * 8 + widx.toNat

/-- The words `lo .. hi-1` POPCNT reads (R226). -/
def popcntWords (c : Cfg) (all : Bool) (shard : BitVec 16) : List Nat :=
  if all then List.range c.usedWords
  else List.range' (shard.toNat * c.b.toNat * 8) (c.b.toNat * 8)

/-- The counters RDCOUNT reads (R232). -/
def rdcountShards (c : Cfg) (all : Bool) (shard : BitVec 16) : List Nat :=
  if all then List.range c.shards else [shard.toNat]

/-- The zero-stores of CLEAR and CONFIG over `words` words and `shards` counters (R220, R276). -/
def zeroTasks (words shards : Nat) : List Task :=
  (List.range words).map (fun g => Task.storeWord g 0) ++ (List.range shards).map (fun i => Task.storeCount i 0)

end Sys2Proof.Machine
end

