-- ==== Sys2Proof/Machine/Flags.lean ====
section
/-! DEFINITION. The engine has no flags (R31). This file holds what a command's response and an acceptance are computed from: status codes, the gate, the result of the values returned, and the overlap rules of R351 and R352. -/

namespace Sys2Proof.Machine

/-- The 4-bit STATUS codes (R340). -/
def Status.code : Status → BitVec 4
  | .ok => 0
  | .illegal => 1
  | .unconfigured => 2
  | .range => 3
  | .config => 4

/-- The gate of R180 after decoding: E_UNCONFIGURED while `CFG.VALID` is 0. -/
def gate (s : State) (p : Program) : Program :=
  if s.cfg.valid then p else Program.raise .unconfigured

/-- Raise a status unless a check holds. -/
def unlessThen (ok : Bool) (status : Status) (p : Program) : Program :=
  if ok then p else Program.raise status

/-! ## Results -/

/-- `popcount(w)`: the number of 1 bits of `w` (R11). -/
def popcount (w : Word) : Nat := (List.range 64).countP fun i => w.getLsbD i

/-- This micro-operation was a probe that read its bit as 0 (R186). -/
def Done.absent (d : Done) : Bool :=
  match d.task with
  | .probe _ m => d.value &&& m == 0
  | _ => false

/-- The 1 bits this micro-operation adds to POPCNT's count (R226). -/
def Done.onesRead (d : Done) : Nat :=
  match d.task with
  | .countOnes _ => popcount d.value
  | _ => 0

/-- What this micro-operation adds to RDCOUNT's sum (R232). -/
def Done.countRead (d : Done) : Nat :=
  match d.task with
  | .addCount _ => d.value.toNat
  | _ => 0

/-- The word this micro-operation read for RDWORD (R252). -/
def Done.wordRead (d : Done) : Option Word :=
  match d.task with
  | .readWord _ => some d.value
  | _ => none

/-- TEST's `r`: no probe read a 0 (R186). -/
def allPresent (done : List Done) : Bool := done.all fun d => !d.absent

/-- A truth value as DATA: 1 or 0, zero-extended (R186). -/
def dataOfBool (b : Bool) : Word := if b then 1 else 0

/-- The DATA of a successful response (R186, R226, R232, R252). -/
def Result.data : Result → List Done → Word
  | .value v, _ => v
  | .present, done => dataOfBool (allPresent done)
  | .ones, done => BitVec.ofNat 64 (done.map Done.onesRead).sum
  | .countSum, done => BitVec.ofNat 64 (done.map Done.countRead).sum
  | .word, done => (done.findSome? Done.wordRead).getD 0

/-- The DATA of a response: 0 with a status other than OK (R346). -/
def Program.data (p : Program) (done : List Done) : Word :=
  match p.status with
  | .ok => p.result.data done
  | .illegal => 0
  | .unconfigured => 0
  | .range => 0
  | .config => 0

/-- The second part's tasks, given what the first part returned (R74, R191). -/
def Program.rest (p : Program) (done : List Done) : List Task :=
  if p.onlyIfAbsent && allPresent done then [] else p.second

/-! ## Overlap (R351, R352) -/

/-- The request is a NOP: CMD is 0x00000000 (R351). -/
def isNop (r : Request) : Bool := r.cmd == 0

/-- The OP byte is CLEAR's, WRCOUNT's, WRWORD's or CONFIG's (R351), whether or not the word is legal (D26). -/
def isExclusive (r : Request) : Bool :=
  ([0x04, 0x07, 0x09, 0x0A] : List (BitVec 8)).contains (r.cmd.extractLsb 7 0)

/-- The request in flight on a port. -/
def Port.request : Port → Option Request
  | .idle => none
  | .busy f => some f.req

/-- The requests in flight. -/
def State.inFlight (s : State) : List Request := s.ports.filterMap Port.request

/-- The faults the acceptance of request `r` records, none of the ports in flight being its own (R351, R352). -/
def overlapFaults (s : State) (r : Request) : FaultSet :=
  { excl := s.inFlight.any fun d => !isNop r && !isNop d && (isExclusive r || isExclusive d)
    unsync := s.cfg.valid && s.cfg.var == .unsync && s.inFlight.any fun d => !isNop r && !isNop d }

end Sys2Proof.Machine
end

