-- ==== Sys2Proof/Machine/Serve.lean ====
section
/-! DEFINITION. The shared operations of every command: acceptance with its overlap check (R73, R351, R352), the running of a whole command (R71), and the response (R13). The engine takes no exception and returns from none (R347): an error is the status of the command's own response. -/

namespace Sys2Proof.Machine

/-- A flight whose first part is done goes on to its second part (R74). -/
def Flight.settle (f : Flight) : Flight :=
  match f.part, f.todo with
  | .first, [] => { f with part := .second, todo := f.prog.rest f.done }
  | .first, _ :: _ => f
  | .second, _ => f

/-- The flight of a command just accepted. -/
def startFlight (r : Request) (prog : Program) : Flight :=
  Flight.settle { req := r, prog := prog, part := .first, todo := prog.first, done := [] }

/-- The acceptance of request `r` on port `p`: the port is BUSY, and the faults of R351 and R352 are recorded. -/
def State.accepted (s : State) (p : Nat) (r : Request) (prog : Program) : State :=
  (s.setPort p (.busy (startFlight r prog))).recordFaults (overlapFaults s r)

/-- Every event of a command and its response on port `p`, with no other port's step between them (R71). -/
def runCommand (p : Nat) (prog : Program) (s : State) : Host.Outcome State Fault Refusal :=
  match runTasks s prog.first [] with
  | .error e => .fault e
  | .ok (s1, done1) =>
    match runTasks s1 (prog.rest done1) done1 with
    | .error e => .fault e
    | .ok (s2, done2) => .next (s2.deliver p prog.status (prog.data done2))

/-- Serve request `r` on port `p` from acceptance to response (R71, R73). A state with a fault recorded is stuck
(R350); a port that is not IDLE accepts nothing (R101, log entry 4); an overlap records its faults (R351, R352). -/
def serve (p : Nat) (r : Request) (prog : Program) (s : State) : Host.Outcome State Fault Refusal :=
  match s.faults.stuck with
  | some e => .fault e
  | none =>
    if s.canAccept p then
      match (overlapFaults s r).stuck with
      | some _ => .next (s.accepted p r prog)
      | none => runCommand p prog s
    else .next s

end Sys2Proof.Machine
end

