-- ==== Sys2Proof/Machine/BulkOps.lean ====
section
/-! DEFINITION. The whole-array and counter commands of 42_bulk_ops.md: CLEAR, POPCNT, RDCOUNT, WRCOUNT. -/

namespace Sys2Proof.Machine

/-- CLEAR (R220): zero every in-use word and counter. -/
def clearProgram (s : State) : Program :=
  gate s (.perform (zeroTasks s.cfg.usedWords s.cfg.shards) (.value 0))

/-- POPCNT (R226). -/
def popcntProgram (all : Bool) (shard : BitVec 16) (s : State) : Program :=
  gate s (unlessThen (all || s.cfg.hasShard shard) .range
    (.perform ((popcntWords s.cfg all shard).map .countOnes) .ones))

/-- RDCOUNT (R232). -/
def rdcountProgram (all : Bool) (shard : BitVec 16) (s : State) : Program :=
  gate s (unlessThen (all || s.cfg.hasShard shard) .range
    (.perform ((rdcountShards s.cfg all shard).map .addCount) .countSum))

/-- WRCOUNT (R238). -/
def wrcountProgram (shard : BitVec 16) (cval : Word) (s : State) : Program :=
  gate s (unlessThen (s.cfg.hasShard shard) .range
    (.perform [.storeCount shard.toNat cval] (.value 0)))

/-- CLEAR on the granted port. -/
def execClear (s : State) : Host.Outcome State Fault Refusal :=
  serve s.grant (encode .clear) (clearProgram s) s

/-- POPCNT on the granted port. -/
def execPopcnt (all : Bool) (shard : BitVec 16) (s : State) : Host.Outcome State Fault Refusal :=
  serve s.grant (encode (.popcnt all shard)) (popcntProgram all shard s) s

/-- RDCOUNT on the granted port. -/
def execRdcount (all : Bool) (shard : BitVec 16) (s : State) : Host.Outcome State Fault Refusal :=
  serve s.grant (encode (.rdcount all shard)) (rdcountProgram all shard s) s

/-- WRCOUNT on the granted port. -/
def execWrcount (shard : BitVec 16) (cval : Word) (s : State) : Host.Outcome State Fault Refusal :=
  serve s.grant (encode (.wrcount shard cval)) (wrcountProgram shard cval s) s

end Sys2Proof.Machine
end

