-- ==== Sys2Proof/Machine/ConfigOps.lean ====
section
/-! DEFINITION. The configuration commands of 44_config_ops.md: NOP, CONFIG, RDCFG. -/

namespace Sys2Proof.Machine

/-- NOP (R270): no gate, no event. -/
def nopProgram : Program := Program.answer 0

/-- The soft correction of k (R276, R277): anything outside 3..14 is 7. -/
def correctK (kreq : BitVec 4) : BitVec 4 := if 3 ≤ kreq.toNat ∧ kreq.toNat ≤ 14 then kreq else 7

/-- The soft correction of B (R276, R277): 0 is 1. -/
def correctB (breq : Word) : Word := if breq = 0 then 1 else breq

/-- The engine can hold the configuration: none of the E_CONFIG checks of R276 fails (R344). -/
def configFits (p : Params) (var : Variant) (log2nreq : BitVec 5) (b : Word) : Bool :=
  (var == .sharded || log2nreq == 0) && decide (log2nreq.toNat ≤ p.log2nmax) && decide (b.toNat < 2 ^ 50) &&
    decide (b.toNat * 2 ^ log2nreq.toNat ≤ p.capBlocks)

/-- CONFIG for a variant that is one of the three (R276). The configuration write and the zero-stores come in any
order: D12 and I24 leave every command's events but TESTADD's so, R74 does not name CONFIG, and R276's pseudocode
lists the write first, as `exec` performs it. DEDUCED, safe: the order cannot be observed (log entry 19). -/
def configureProgram (var : Variant) (kreq : BitVec 4) (log2nreq : BitVec 5) (breq : Word) (s : State) : Program :=
  unlessThen (configFits s.params var log2nreq (correctB breq)) .config
    (.perform (.writeCfg var (correctK kreq) (correctB breq) log2nreq ::
      zeroTasks (2 ^ log2nreq.toNat * (correctB breq).toNat * 8) (2 ^ log2nreq.toNat)) (.value 0))

/-- CONFIG (R276). VARREQ = 3 is illegal (R106). -/
def configProgram (varreq : BitVec 2) (kreq : BitVec 4) (log2nreq : BitVec 5) (breq : Word) (s : State) : Program :=
  match variantOfCode varreq with
  | none => Program.raise .illegal
  | some var => configureProgram var kreq log2nreq breq s

/-- A partition register's value, or E_RANGE for an index at or above `CFG.K` (R282). -/
def partitionProgram (s : State) (i : Nat) (value : Nat) : Program :=
  unlessThen (decide (i < s.cfg.k.toNat)) .range (.answer (BitVec.ofNat 64 value))

/-- The selectors that need a configuration (R282). -/
def configuredProgram (sel : Nat) (s : State) : Program :=
  match sel with
  | 0x00 => Program.answer s.cfg.b
  | 0x01 => Program.answer (BitVec.ofNat 64 s.cfg.k.toNat)
  | 0x02 => Program.answer (BitVec.ofNat 64 s.cfg.shards)
  | 0x03 => Program.answer (BitVec.ofNat 64 s.cfg.var.code)
  | 0x04 => Program.answer (BitVec.ofNat 64 s.cfg.capBits)
  | 0x05 => Program.answer (BitVec.ofNat 64 s.cfg.totalBlocks)
  | n => if n < 0x20 then partitionProgram s (n - 0x10) (s.width (n - 0x10))
         else partitionProgram s (n - 0x20) (s.offset (n - 0x20))

/-- What RDCFG reports for NPORTS (R282). DESIGN CHOICE, safe: D25 bounds NPORTS from below only, and the spec states no
response for one of 2^64 or more, which DATA cannot hold; that one is a free value (log entry 23). -/
def nportsData (nports : Nat) : Word :=
  if nports < 2 ^ 64 then BitVec.ofNat 64 nports else Config.unstatedNports nports

/-- RDCFG (R282). -/
def rdcfgProgram (sel : BitVec 8) (s : State) : Program :=
  if validSel sel then
    match sel.toNat with
    | 0x06 => Program.answer (BitVec.ofNat 64 s.params.capBlocks)
    | 0x07 => Program.answer (dataOfBool s.cfg.valid)
    | 0x08 => Program.answer (BitVec.ofNat 64 s.params.log2nmax)
    | 0x09 => Program.answer (nportsData s.params.nports)
    | n => gate s (configuredProgram n s)
  else Program.raise .illegal

/-- NOP on the granted port. -/
def execNop (s : State) : Host.Outcome State Fault Refusal :=
  serve s.grant (encode .nop) nopProgram s

/-- CONFIG on the granted port. -/
def execConfig (varreq : BitVec 2) (kreq : BitVec 4) (log2nreq : BitVec 5) (breq : Word) (s : State) :
    Host.Outcome State Fault Refusal :=
  serve s.grant (encode (.config varreq kreq log2nreq breq)) (configProgram varreq kreq log2nreq breq s) s

/-- RDCFG on the granted port. -/
def execRdcfg (sel : BitVec 8) (s : State) : Host.Outcome State Fault Refusal :=
  serve s.grant (encode (.rdcfg sel)) (rdcfgProgram sel s) s

end Sys2Proof.Machine
end

