-- ==== Sys2Proof/Machine/ImageOps.lean ====
section
/-! DEFINITION. The image port commands of 43_image_ops.md: RDWORD, WRWORD. -/

namespace Sys2Proof.Machine

/-- RDWORD (R252). -/
def rdwordProgram (shard : BitVec 16) (widx : Word) (s : State) : Program :=
  gate s (unlessThen (s.cfg.hasShard shard && s.cfg.hasWord widx) .range
    (.perform [.readWord (imageWord s.cfg shard widx)] .word))

/-- WRWORD (R256). -/
def wrwordProgram (shard : BitVec 16) (widx wval : Word) (s : State) : Program :=
  gate s (unlessThen (s.cfg.hasShard shard && s.cfg.hasWord widx) .range
    (.perform [.storeWord (imageWord s.cfg shard widx) wval] (.value 0)))

/-- RDWORD on the granted port. -/
def execRdword (shard : BitVec 16) (widx : Word) (s : State) : Host.Outcome State Fault Refusal :=
  serve s.grant (encode (.rdword shard widx)) (rdwordProgram shard widx s) s

/-- WRWORD on the granted port. -/
def execWrword (shard : BitVec 16) (widx wval : Word) (s : State) : Host.Outcome State Fault Refusal :=
  serve s.grant (encode (.wrword shard widx wval)) (wrwordProgram shard widx wval s) s

end Sys2Proof.Machine
end

