-- ==== Sys2Proof/Machine/ProbeOps.lean ====
section
/-! DEFINITION. The per-key commands of 41_probe_ops.md: ADD, TEST, TESTADD. -/

namespace Sys2Proof.Machine

/-- The events that set the probe bits of `h` and count one add: atomic ORs (R182), in UNSYNC plain
read-modify-writes (R183), and one increment. -/
def addTasks (s : State) (h : Word) : List Task :=
  match s.cfg.var with
  | .unsync => forEachProbe s h .rmwLoad ++ [.inc (hashShard s h)]
  | .atomic => forEachProbe s h .setBit ++ [.inc (hashShard s h)]
  | .sharded => forEachProbe s h .setBit ++ [.inc (hashShard s h)]

/-- ADD (R182, R183). -/
def addProgram (h : Word) (s : State) : Program :=
  gate s (.perform (addTasks s h) (.value 0))

/-- TEST (R186). -/
def testProgram (h : Word) (s : State) : Program :=
  gate s (.perform (forEachProbe s h .probe) .present)

/-- TESTADD (R190): the test part, then the add part, in UNSYNC only if the key was absent (R191), in ATOMIC and
SHARDED always (R192). -/
def testaddProgram (h : Word) (s : State) : Program :=
  gate s
    { status := .ok
      first := forEachProbe s h .probe
      second := addTasks s h
      onlyIfAbsent := s.cfg.var == .unsync
      result := .present }

/-- ADD on the granted port. -/
def execAdd (h : Word) (s : State) : Host.Outcome State Fault Refusal :=
  serve s.grant (encode (.add h)) (addProgram h s) s

/-- TEST on the granted port. -/
def execTest (h : Word) (s : State) : Host.Outcome State Fault Refusal :=
  serve s.grant (encode (.test h)) (testProgram h s) s

/-- TESTADD on the granted port. -/
def execTestadd (h : Word) (s : State) : Host.Outcome State Fault Refusal :=
  serve s.grant (encode (.testadd h)) (testaddProgram h s) s

end Sys2Proof.Machine
end

