-- ==== Sys2Proof/Machine/Dispatch.lean ====
section
/-! DEFINITION. One arm per command: the whole command on the granted port, from its acceptance to its response. -/

namespace Sys2Proof.Machine

/-- The meaning of a command on the granted port. -/
def exec (i : Instr) (s : State) : Host.Outcome State Fault Refusal :=
  match i with
  | .nop => Sys2Proof.Machine.execNop s
  | .add h => Sys2Proof.Machine.execAdd h s
  | .test h => Sys2Proof.Machine.execTest h s
  | .testadd h => Sys2Proof.Machine.execTestadd h s
  | .clear => Sys2Proof.Machine.execClear s
  | .popcnt all shard => Sys2Proof.Machine.execPopcnt all shard s
  | .rdcount all shard => Sys2Proof.Machine.execRdcount all shard s
  | .wrcount shard cval => Sys2Proof.Machine.execWrcount shard cval s
  | .rdword shard widx => Sys2Proof.Machine.execRdword shard widx s
  | .wrword shard widx wval => Sys2Proof.Machine.execWrword shard widx wval s
  | .config varreq kreq log2nreq breq => Sys2Proof.Machine.execConfig varreq kreq log2nreq breq s
  | .rdcfg sel => Sys2Proof.Machine.execRdcfg sel s

end Sys2Proof.Machine
end

