-- ==== Sys2Proof/Machine/Moves.lean ====
section
/-! DEFINITION. The moves of a run (R73, R101): a whole command, acceptance, one event, the short-circuit of R187, the response, the reset wire, and where a request is placed to be the next one served. A move the rules do not allow at that moment changes nothing (log entry 4). -/

namespace Sys2Proof.Machine

/-- The program of a command in state `s`. -/
def program (i : Instr) (s : State) : Program :=
  match i with
  | .nop => nopProgram
  | .add h => addProgram h s
  | .test h => testProgram h s
  | .testadd h => testaddProgram h s
  | .clear => clearProgram s
  | .popcnt all shard => popcntProgram all shard s
  | .rdcount all shard => rdcountProgram all shard s
  | .wrcount shard cval => wrcountProgram shard cval s
  | .rdword shard widx => rdwordProgram shard widx s
  | .wrword shard widx wval => wrwordProgram shard widx wval s
  | .config varreq kreq log2nreq breq => configProgram varreq kreq log2nreq breq s
  | .rdcfg sel => rdcfgProgram sel s

/-- The program of a request: an illegal one raises E_ILLEGAL (R111). -/
def requestProgram (r : Request) (s : State) : Program :=
  match decode r with
  | .ok i => program i s
  | .error _ => Program.raise .illegal

/-- A whole command on port `p` (R71): a legal one is `exec` of what it decodes to, an illegal one responds E_ILLEGAL. -/
def commandMove (p : Nat) (r : Request) (s : State) : Host.Outcome State Fault Refusal :=
  match decode r with
  | .ok i => exec i { s with grant := p }
  | .error _ => serve p r (Program.raise .illegal) { s with grant := p }

/-- The acceptance of a request (R73, R101). -/
def acceptMove (p : Nat) (r : Request) (s : State) : State :=
  if s.canAccept p then s.accepted p r (requestProgram r s) else s

/-- The word a pending store half is going to store to (R183). -/
def Task.pendingStore : Task → Option Nat
  | .rmwStore g _ => some g
  | .probe _ _ => none
  | .setBit _ _ => none
  | .rmwLoad _ _ => none
  | .inc _ => none
  | .countOnes _ => none
  | .addCount _ => none
  | .readWord _ => none
  | .storeWord _ _ => none
  | .storeCount _ _ => none
  | .writeCfg _ _ _ _ => none

/-- A micro-operation may be performed next, whatever its place among those left (R74, I24), but for one: the load half
of a read-modify-write waits while a store to its own word is pending. DEDUCED from R183, by which no bit of an earlier
probe is lost (log entry 8). -/
def mayPerform (todo : List Task) : Task → Bool
  | .rmwLoad g _ => todo.all fun t => t.pendingStore != some g
  | .rmwStore _ _ => true
  | .probe _ _ => true
  | .setBit _ _ => true
  | .inc _ => true
  | .countOnes _ => true
  | .addCount _ => true
  | .readWord _ => true
  | .storeWord _ _ => true
  | .storeCount _ _ => true
  | .writeCfg _ _ _ _ => true

/-- The micro-operation at place `n` of those left, with those left after it; nothing where there is none or it must
wait. -/
def pickTask (todo : List Task) (n : Nat) : Option (Task × List Task) :=
  match todo[n]? with
  | none => none
  | some t => if mayPerform todo t then some (t, todo.eraseIdx n) else none

/-- The flight after task `t` returned `v`, with `rest` left of the current part. -/
def Flight.advance (f : Flight) (t : Task) (v : Word) (rest : List Task) : Flight :=
  Flight.settle { f with todo := (t.followUp v).toList ++ rest, done := ⟨t, v⟩ :: f.done }

/-- One event of the command in flight on port `p` (R72, R74). -/
def eventMove (p n : Nat) (s : State) : Host.Outcome State Fault Refusal :=
  match s.flight p with
  | none => .next s
  | some f =>
    match pickTask f.todo n with
    | none => .next s
    | some (t, rest) =>
      match perform s t.event with
      | .error e => .fault e
      | .ok (s1, v) => .next (s1.setPort p (.busy (f.advance t v rest)))

/-- A command's test part may stop once a probe read 0 (R187). -/
def Flight.mayStop (f : Flight) : Bool :=
  f.part == .first && f.prog.result == .present && !allPresent f.done

/-- The short-circuit of TEST and TESTADD: the remaining loads of the test part are skipped (R187). -/
def shortCircuitMove (p : Nat) (s : State) : State :=
  match s.flight p with
  | none => s
  | some f => if f.mayStop then s.setPort p (.busy (Flight.settle { f with todo := [] })) else s

/-- Every micro-operation of the flight has been performed. -/
def Flight.complete (f : Flight) : Bool := f.part == .second && f.todo.isEmpty

/-- The response of the command in flight on port `p` (R13, R73): delivered once its events are done, and the port is IDLE. -/
def respondMove (p : Nat) (s : State) : State :=
  match s.flight p with
  | none => s
  | some f =>
    if f.complete then (s.setPort p .idle).deliver p f.prog.status (f.prog.data f.done) else s

/-- Contents brought to the canonical form, keys at or above `n` left out (log entry 5). -/
def normalCells {w : Nat} (n : Nat) (c : List (Nat × BitVec w)) : List (Nat × BitVec w) :=
  c.foldl (fun acc x => if x.1 < n then cellPut acc x.1 x.2 else acc) []

/-- The storage of an engine with parameters `p` that holds `u` wherever it has a place for it. -/
def Residue.normal (p : Params) (u : Residue) : Residue :=
  { u with count := normalCells p.nmax u.count, arr := normalCells (p.words * 8) u.arr }

/-- The reset wire (R380, R381): every command in flight is lost with no response; the schedule goes on. -/
def resetMove (u : Residue) (s : State) : State :=
  { State.resetWith s.params (Residue.normal s.params u) with sched := s.sched, delivered := s.delivered }

/-- Make one move. -/
def runMove (m : Move) (s : State) : Host.Outcome State Fault Refusal :=
  match m with
  | .command p r => commandMove p r s
  | .accept p r => .next (acceptMove p r s)
  | .event p n => eventMove p n s
  | .shortCircuit p => .next (shortCircuitMove p s)
  | .respond p => .next (respondMove p s)
  | .reset u => .next (resetMove u s)

/-- One step: a state with a fault recorded is stuck (R350); else the next move of the schedule is made; with no
move to make the engine stays as it is. -/
def stepMove (s : State) : Host.Outcome State Fault Refusal :=
  match s.faults.stuck with
  | some e => .fault e
  | none =>
    match s.sched with
    | [] => .next s
    | m :: rest => runMove m { s with sched := rest }

/-- `s` with request `r` presented on port 0 as the next move (R113: a line without a port prefix is issued on port 0). -/
def State.presentNext (s : State) (r : Request) : State := { s with sched := .command 0 r :: s.sched }

end Sys2Proof.Machine
end

