-- ==== Sys2Proof/Machine/Step.lean ====
section
/-! DEFINITION. One step of the engine, and the placing of a table word as the next request. -/

namespace Sys2Proof.Machine

/-- One step of the engine: the next move of the schedule (R73). -/
def step (s : State) : Host.Outcome State Fault Refusal := stepMove s

/-- `s` with the request of a table word as the next one served, on port 0 (log entries 2 and 16). -/
def State.withFetchWord (s : State) (nbits w : Nat) : State := s.presentNext (Request.ofTableWord nbits w)

end Sys2Proof.Machine
end

