-- ==== Sys2Proof/Machine/HostSide.lean ====
section
/-! DEFINITION. The exact part of the host-side contract of 48_host_side.md, which binds the host and not the engine (R300): shard count, construction commands, the serialized image with its validation, and the exact ratios. Floating-point sizing and estimators are out of scope (R7, log entry 15). -/

namespace Sys2Proof.Machine

/-! ## Shard count and construction (R304 to R306) -/

/-- Count exponents up from `e` until the power of two reaches `n`, at most `fuel` times. -/
def exponentFrom (n : Nat) : Nat → Nat → Nat
  | 0, e => e
  | fuel + 1, e => if n ≤ 2 ^ e then e else exponentFrom n fuel (e + 1)

/-- The smallest `e` with `n ≤ 2 ^ e`. -/
def ceilLog2 (n : Nat) : Nat := exponentFrom n n 0

/-- The smallest power of two at or above `n`, 1 for 0 (R305). -/
def nextPow2 (n : Nat) : Nat := 2 ^ ceilLog2 n

/-- The shard count asked for, before rounding: an explicit one, or the default for a host's parallelism (R306). -/
def requestedShards (explicit : Option Nat) (parallelism : Nat) : Nat := explicit.getD (max parallelism 4)

/-- `log2(N)` for the shard count N the host chooses (R306). -/
def shardLog2 (explicit : Option Nat) (parallelism : Nat) : Nat := ceilLog2 (requestedShards explicit parallelism)

/-- The shard count N the host chooses (R306). -/
def shardCount (explicit : Option Nat) (parallelism : Nat) : Nat := nextPow2 (requestedShards explicit parallelism)

/-- The items each of `n` shards is sized for: `ceil(expected / n)` (R306). -/
def itemsPerShard (expected n : Nat) : Nat := (expected + n - 1) / n

/-- The KREQ the host passes for a k. DESIGN CHOICE: the spec does not say what it passes for an explicit k of 16 or
more, which KREQ's 4 bits cannot hold; it passes 0, which the engine corrects to 7 as R304 has it of every k outside
3..14 (log entry 24). -/
def requestedK (k : Nat) : BitVec 4 := if k < 16 then BitVec.ofNat 4 k else 0

/-- The construction command of an UNSYNC or ATOMIC filter (R304). -/
def constructCommand (variant : BitVec 2) (k : Nat) (blockCount : Word) : Instr :=
  .config variant (requestedK k) 0 blockCount

/-- The construction command of a sharded filter, `CONFIG SHARDED, k, log2(N), blockCount` (R306). DESIGN CHOICE:
LOG2NREQ is 5 bits, so a shard count of 2^32 or more has no command; the spec says nothing of it (log entry 21). -/
def constructSharded (k : Nat) (explicit : Option Nat) (parallelism : Nat) (blockCount : Word) : Option Instr :=
  if shardLog2 explicit parallelism < 32 then
    some (.config 2 (requestedK k) (BitVec.ofNat 5 (shardLog2 explicit parallelism)) blockCount)
  else none

/-! ## The serialized image (R310 to R317) -/

/-- `n` bytes of `v`, least significant first. -/
def leBytes (n v : Nat) : List Byte := (List.range n).map fun j => BitVec.ofNat 8 (v / 256 ^ j)

/-- The number of little-endian bytes. -/
def leNat : List Byte → Nat
  | [] => 0
  | b :: t => b.toNat + 256 * leNat t

/-- The 21-byte header (R310): version 1, k, blockCount, count. -/
def imageHeader (k blockCount count : Nat) : List Byte :=
  1 :: (leBytes 4 k ++ leBytes 8 blockCount ++ leBytes 8 count)

/-- The bytes of the image: the header, then the bytes of the blocks (R311, R312). -/
def imageBytes (s : State) : List Byte :=
  imageHeader s.cfg.k.toNat s.cfg.b.toNat (s.counter 0).toNat ++ (List.range (s.cfg.b.toNat * 64)).map s.byte

/-- The serialized image of a filter configured UNSYNC (R310). An ATOMIC or SHARDED filter and an engine not
configured have none. DEDUCED: R310 restricts encode to UNSYNC and N26 says to assume no other image (log entry 22). -/
def encodeImage (s : State) : Option (List Byte) :=
  if s.cfg.valid && s.cfg.var == .unsync then some (imageBytes s) else none

/-- The commands whose responses the host lays out as the image (R311). -/
def saveCommands (blockCount : Nat) : List Instr :=
  [.rdcfg 0x01, .rdcfg 0x00, .rdcount false 0] ++
    (List.range (blockCount * 8)).map fun w => .rdword 0 (BitVec.ofNat 64 w)

/-- The three error kinds of decoding (R313, R315). -/
inductive ImageError where
  /-- A length, block count or ceiling violation. -/
  | invalidData
  /-- The version byte is not 1. -/
  | unsupportedVersion
  /-- k is outside 3..14. -/
  | invalidK
deriving DecidableEq, Repr

/-- A decoded image. -/
structure Image where
  k : Nat
  blockCount : Nat
  count : Nat
  words : List Word
deriving DecidableEq, Repr

/-- The word at byte `a` of a buffer, least significant byte first (R312). -/
def wordAt (bytes : List Byte) (a : Nat) : Word :=
  wordOfBytes (bytes.getD a 0) (bytes.getD (a + 1) 0) (bytes.getD (a + 2) 0) (bytes.getD (a + 3) 0)
    (bytes.getD (a + 4) 0) (bytes.getD (a + 5) 0) (bytes.getD (a + 6) 0) (bytes.getD (a + 7) 0)

/-- Decode validation in the order of R313; the first failing check decides the error. -/
def decodeImage (bytes : List Byte) : Except ImageError Image :=
  let k := leNat ((bytes.drop 1).take 4)
  let blockCount := leNat ((bytes.drop 5).take 8)
  if bytes.length < 21 then .error .invalidData
  else if bytes.head? ≠ some 1 then .error .unsupportedVersion
  else if k < 3 ∨ 14 < k then .error .invalidK
  else if blockCount = 0 ∨ 2 ^ 50 ≤ blockCount then .error .invalidData
  else if bytes.length ≠ 21 + blockCount * 64 then .error .invalidData
  else .ok
    { k := k
      blockCount := blockCount
      count := leNat ((bytes.drop 13).take 8)
      words := (List.range (blockCount * 8)).map fun g => wordAt bytes (21 + 8 * g) }

/-- The WRWORD commands that load words from local index `i` on. -/
def loadCommands (i : Nat) : List Word → List Instr
  | [] => []
  | w :: t => .wrword 0 (BitVec.ofNat 64 i) w :: loadCommands (i + 1) t

/-- The CONFIG that opens the loading of a decoded image (R314). -/
def imageConfig (img : Image) : Instr := constructCommand 0 img.k (BitVec.ofNat 64 img.blockCount)

/-- The commands that follow it: every word, then the count (R314). -/
def imageContents (img : Image) : List Instr :=
  loadCommands 0 img.words ++ [.wrcount 0 (BitVec.ofNat 64 img.count)]

/-- Issue commands one after the other on the granted port, each after the response of the one before. -/
def runCommands : List Instr → State → Host.Outcome State Fault Refusal
  | [], s => .next s
  | i :: rest, s =>
    match exec i s with
    | .next s1 => runCommands rest s1
    | .fault e => .fault e
    | .refused e => .refused e

/-- Why decoding an image into the engine gives no filter (R313 to R315). -/
inductive LoadFailure where
  /-- A check of R313 failed; no command was issued. -/
  | image (e : ImageError)
  /-- CONFIG did not respond OK, so no command follows it (R314); `s` is the engine's state then. -/
  | configRefused (s : State)
  /-- The engine stopped on a command with a fault. -/
  | stopped (e : Fault)
  /-- The engine refused a command. -/
  | notServed (e : Refusal)
deriving DecidableEq, Repr

/-- The step from `s` to `t` delivered the response OK, 0 on the granted port. -/
def respondedOk (s t : State) : Bool := t.delivered == ⟨s.grant, .ok, 0⟩ :: s.delivered

/-- An outcome as the result of loading. -/
def loadResult : Host.Outcome State Fault Refusal → Except LoadFailure State
  | .next t => .ok t
  | .fault e => .error (.stopped e)
  | .refused e => .error (.notServed e)

/-- Load a decoded image into an engine that is quiescent (R314): the rest follows only a CONFIG that responded OK. -/
def restoreImage (img : Image) (s : State) : Except LoadFailure State :=
  match exec (imageConfig img) s with
  | .next t =>
    if respondedOk s t then loadResult (runCommands (imageContents img) t) else .error (.configRefused t)
  | .fault e => .error (.stopped e)
  | .refused e => .error (.notServed e)

/-- Decode a buffer into the engine (R314): no command is issued unless every check of R313 passes. -/
def loadImage (bytes : List Byte) (s : State) : Except LoadFailure State :=
  match decodeImage bytes with
  | .ok img => restoreImage img s
  | .error e => .error (.image e)

/-! ## Exact ratios (R318, R321) -/

/-- The fill ratio: POPCNT * over CAP_BITS (R318). -/
def fillRatio (ones capBits : Nat) : Rat := ones / capBits

/-- The unweighted mean of the shards' estimates (R321). -/
def shardMean (estimates : List Rat) : Rat := estimates.sum / estimates.length

end Sys2Proof.Machine
end

