-- ==== Sys2Proof/Safety.lean ====
section
/-! DEFINITION. What claims rest on: a legal configuration, the invariant every step keeps, a state ready for a command, and the moves that may clear a bit. -/

namespace Sys2Proof.Machine

/-! ## Legal configurations -/

/-- The values CONFIG may write (R34 to R36): what its checks and soft corrections leave (R276). -/
structure ConfigLegal (p : Params) (var : Variant) (k : BitVec 4) (b : Word) (log2n : BitVec 5) : Prop where
  k_ge : 3 ≤ k.toNat
  k_le : k.toNat ≤ 14
  b_pos : 1 ≤ b.toNat
  b_lt : b.toNat < 2 ^ 50
  fits : b.toNat * 2 ^ log2n.toNat ≤ p.capBlocks
  log2n_le : log2n.toNat ≤ p.log2nmax
  one_shard : var ≠ .sharded → log2n = 0

/-- The partition registers hold the table's row for `CFG.K` and its prefix sums (R38, R148). -/
def PartitionLoaded (s : State) : Prop :=
  ∀ i < s.cfg.k.toNat, s.width i = ((s.params.table.getD (s.cfg.k.toNat - 3) []).getD i 0).toNat ∧
    s.offset i = (((s.params.table.getD (s.cfg.k.toNat - 3) []).take i).map BitVec.toNat).sum

/-- While `CFG.VALID` is 1 the configuration and partition registers are legal (R34 to R36, R38). -/
def ConfiguredLegal (s : State) : Prop :=
  s.cfg.valid = true → ConfigLegal s.params s.cfg.var s.cfg.k s.cfg.b s.cfg.log2n ∧ PartitionLoaded s

/-! ## The invariant -/

/-- The event acts on a word or counter that exists, or writes a legal configuration. -/
def EventLegal (p : Params) : Event → Prop
  | .atomicLoad g => g < p.words
  | .atomicOr g _ => g < p.words
  | .store g _ => g < p.words
  | .countLoad i => i < p.nmax
  | .atomicInc i => i < p.nmax
  | .countStore i _ => i < p.nmax
  | .cfgWrite var k b log2n => ConfigLegal p var k b log2n

/-- The OP byte of a request (R102). -/
def opByte (r : Request) : BitVec 8 := r.cmd.extractLsb 7 0

/-- The OP bytes of the commands that have this task (R388): ADD 01, TEST 02, TESTADD 03, CLEAR 04, POPCNT 05,
RDCOUNT 06, WRCOUNT 07, RDWORD 08, WRWORD 09, CONFIG 0A. -/
def Task.owners : Task → List (BitVec 8)
  | .probe _ _ => [0x02, 0x03]
  | .setBit _ _ => [0x01, 0x03]
  | .rmwLoad _ _ => [0x01, 0x03]
  | .rmwStore _ _ => [0x01, 0x03]
  | .inc _ => [0x01, 0x03]
  | .countOnes _ => [0x05]
  | .addCount _ => [0x06]
  | .readWord _ => [0x08]
  | .storeWord _ _ => [0x04, 0x09, 0x0A]
  | .storeCount _ _ => [0x04, 0x07, 0x0A]
  | .writeCfg _ _ _ _ => [0x0A]

/-- The task is half of a plain read-modify-write, which only UNSYNC performs (R183). -/
def Task.plain : Task → Bool
  | .rmwLoad _ _ => true
  | .rmwStore _ _ => true
  | .probe _ _ => false
  | .setBit _ _ => false
  | .inc _ => false
  | .countOnes _ => false
  | .addCount _ => false
  | .readWord _ => false
  | .storeWord _ _ => false
  | .storeCount _ _ => false
  | .writeCfg _ _ _ _ => false

/-- The task is an atomic OR, which only ATOMIC and SHARDED perform (R182). -/
def Task.atomicOr : Task → Bool
  | .setBit _ _ => true
  | .rmwLoad _ _ => false
  | .rmwStore _ _ => false
  | .probe _ _ => false
  | .inc _ => false
  | .countOnes _ => false
  | .addCount _ => false
  | .readWord _ => false
  | .storeWord _ _ => false
  | .storeCount _ _ => false
  | .writeCfg _ _ _ _ => false

/-- What holds of a task of a flight with request `r` in state `s`: it is legal, its command has such a task, a
plain read-modify-write is performed in UNSYNC only, and an atomic OR in the other variants only. -/
structure TaskOwned (s : State) (r : Request) (t : Task) : Prop where
  legal : EventLegal s.params t.event
  owner : opByte r ∈ t.owners
  plain : t.plain = true → s.cfg.valid = true ∧ s.cfg.var = .unsync
  atomic : t.atomicOr = true → s.cfg.var ≠ .unsync

/-- The pending store halves stand before all else, and no two of them are to one word (R183). -/
def StoresLead (todo : List Task) : Prop :=
  todo.Pairwise fun x y => ∀ g, y.pendingStore = some g → ∃ h, x.pendingStore = some h ∧ h ≠ g

/-- What holds of a command in flight. -/
structure FlightLegal (s : State) (f : Flight) : Prop where
  todo : ∀ t ∈ f.todo, TaskOwned s f.req t
  second : ∀ t ∈ f.prog.second, TaskOwned s f.req t
  /-- The first part is never empty: it goes on to the second. -/
  settled : f.part = .first → f.todo ≠ []
  stores_lead : StoresLead f.todo
  /-- A store half arises from its load half only (R183). -/
  second_whole : ∀ t ∈ f.prog.second, t.pendingStore = none
  /-- A pending store half keeps every bit its word holds (R183). -/
  store_keeps : ∀ g v, Task.rmwStore g v ∈ f.todo → s.word g &&& v = s.word g

/-- No two commands are in flight that R351 or R352 would fault: exclusive commands are alone but for NOPs (R81),
and so is every command in UNSYNC (R82). -/
def NoIllegalOverlap (s : State) : Prop :=
  ∀ p q f g, p ≠ q → s.flight p = some f → s.flight q = some g → isNop f.req = false → isNop g.req = false →
    isExclusive f.req = false ∧ isExclusive g.req = false ∧ ¬ (s.cfg.valid = true ∧ s.cfg.var = .unsync)

/-- The state's own form: legal parameters, storage in canonical form within its bounds, a port state for each port,
and a legal configuration once there is one. -/
structure StorageInv (s : State) : Prop where
  params : s.params.Legal
  configured : ConfiguredLegal s
  arr_wf : Memory.wf s.arr = true
  arr_below : cellsBelow (s.params.words * 8) s.arr = true
  count_wf : cellsWf s.count = true
  count_below : cellsBelow s.params.nmax s.count = true
  ports_length : s.ports.length = s.params.nports

/-- The commands in flight are legal and do not overlap illegally. -/
structure FlightInv (s : State) : Prop where
  flights : ∀ p f, s.flight p = some f → FlightLegal s f
  no_overlap : NoIllegalOverlap s

/-- The invariant: the state's form always, and the commands in flight as long as no fault is recorded. -/
structure Inv (s : State) : Prop where
  storage : StorageInv s
  inFlight : s.faults.stuck = none → FlightInv s

/-! ## Readiness -/

/-- No command is in flight (R15). -/
def Quiescent (s : State) : Prop := ∀ x ∈ s.ports, x = Port.idle

/-- Command `i` can be accepted on the granted port without a fault: no fault is recorded, the port is IDLE,
and no overlap of R351 or R352 arises. -/
structure Ready (i : Instr) (s : State) : Prop where
  unfaulted : s.faults.stuck = none
  idle : s.canAccept s.grant = true
  alone : (overlapFaults s (encode i)).stuck = none

/-- `Ready`, and the engine is configured, legally (R34 to R39). -/
structure Configured (i : Instr) (s : State) : Prop where
  ready : Ready i s
  inv : StorageInv s
  valid : s.cfg.valid = true

/-- What `i` needs CFG.VALID for (R342): every command but NOP, CONFIG and RDCFG of a parameter or of CFG.VALID. -/
def needsConfiguration : Instr → Bool
  | .nop => false
  | .config _ _ _ _ => false
  | .rdcfg sel => !([0x06, 0x07, 0x08, 0x09] : List (BitVec 8)).contains sel
  | .add _ => true
  | .test _ => true
  | .testadd _ => true
  | .clear => true
  | .popcnt _ _ => true
  | .rdcount _ _ => true
  | .wrcount _ _ => true
  | .rdword _ _ => true
  | .wrword _ _ _ => true

/-- CONFIG's checks hold for its operands, with B corrected (R276, R344). -/
def ConfigAccepted (p : Params) (varreq : BitVec 2) (log2nreq : BitVec 5) (b : Word) : Prop :=
  (varreq = 2 ∨ log2nreq = 0) ∧ log2nreq.toNat ≤ p.log2nmax ∧ b.toNat < 2 ^ 50 ∧
    b.toNat * 2 ^ log2nreq.toNat ≤ p.capBlocks

/-! ## What a command leaves unchanged -/

/-- Every field but the array, the counters and the responses is unchanged. -/
structure RegistersKept (s t : State) : Prop where
  params : t.params = s.params
  cfg : t.cfg = s.cfg
  pw : t.pw = s.pw
  po : t.po = s.po
  ports : t.ports = s.ports
  faults : t.faults = s.faults
  sched : t.sched = s.sched
  grant : t.grant = s.grant

/-! ## Probe bits -/

/-- Every probe bit of `h` is 1. -/
def ProbesSet (s : State) (h : Word) : Prop :=
  ∀ i < s.cfg.k.toNat, s.word (probeWord s h i) &&& probeMask s h i ≠ 0

/-- Bit `j` of word `g` is a probe bit of `h` (R150). -/
def IsProbeBit (s : State) (h : Word) (g j : Nat) : Prop :=
  ∃ i < s.cfg.k.toNat, probeWord s h i = g ∧ (probeMask s h i).getLsbD j = true

/-- `t` is `s` after one add of `h` (R182): the probe bits of `h` are 1, no other bit has changed, the counter of the
hash's shard is one higher mod 2^64 and no other counter has changed, nor any register. -/
structure Added (s : State) (h : Word) (t : State) : Prop where
  bits : ∀ g j, (t.word g).getLsbD j = true ↔ (s.word g).getLsbD j = true ∨ IsProbeBit s h g j
  counters : ∀ i, t.counter i = if i = hashShard s h then s.counter i + 1 else s.counter i
  kept : RegistersKept s t

/-- The request is a CLEAR, WRWORD or CONFIG by its OP byte: the commands that may clear array bits (R42). -/
def clearsBits (r : Request) : Bool := ([0x04, 0x09, 0x0A] : List (BitVec 8)).contains (opByte r)

/-- The move may clear array bits: it serves or advances a CLEAR, WRWORD or CONFIG, or it is the reset wire. -/
def mayClear (s : State) : Move → Bool
  | .command _ r => clearsBits r
  | .accept _ _ => false
  | .event p _ => (s.flight p).any fun f => clearsBits f.req
  | .shortCircuit _ => false
  | .respond _ => false
  | .reset _ => true

/-- No bit of any word that is 1 in `s` is 0 in `t` (R42). -/
def BitsKept (s t : State) : Prop := ∀ g j, (s.word g).getLsbD j = true → (t.word g).getLsbD j = true

/-- The move presents no CLEAR, WRWORD or CONFIG and is not the reset wire. -/
def quietMove : Move → Bool
  | .command _ r => !clearsBits r
  | .accept _ r => !clearsBits r
  | .event _ _ => true
  | .shortCircuit _ => true
  | .respond _ => true
  | .reset _ => false

/-- No CLEAR, WRWORD or CONFIG is in flight or to come, nor a reset. -/
def Quiet (s : State) : Prop :=
  (∀ m ∈ s.sched, quietMove m = true) ∧ ∀ p f, s.flight p = some f → clearsBits f.req = false

/-! ## Commands performed by their own moves -/

/-- The first move of `s` accepts request `r` on port `p`; in `t`, `n` moves later, the command in flight there, `f`,
has performed every event and its response is due. What the other ports do in between is free; the command is not
lost to a reset, and no fault has arisen (R73). -/
structure Performed (s : State) (p : Nat) (r : Request) (n : Nat) (t : State) (f : Flight) : Prop where
  idle : s.canAccept p = true
  accepted : ∃ rest, s.sched = .accept p r :: rest ∧ ∀ m ∈ rest.take n, m ≠ .respond p ∧ ∀ u, m ≠ .reset u
  run : Host.Core.run Sys2Proof.core (n + 1) s = .next t
  unfaulted : t.faults.stuck = none
  flight : t.flight p = some f
  complete : f.complete = true

/-- An ADD or TESTADD of `h` that starts in `s` has performed every event in `t`: served whole, or by its own moves
with other ports' moves between them. -/
inductive AddPerformed (h : Word) (s t : State) : Prop
  | add (ready : Configured (.add h) s) (served : exec (.add h) s = .next t)
  | testadd (ready : Configured (.testadd h) s) (served : exec (.testadd h) s = .next t)
  | moves (valid : s.cfg.valid = true) (p : Nat) (r : Request) (n : Nat) (f : Flight)
      (command : decode r = .ok (.add h) ∨ decode r = .ok (.testadd h)) (performed : Performed s p r n t f)

/-- The move presents a request that the engine accepts: its port exists and is IDLE. -/
def acceptsRequest (s : State) : Move → Bool
  | .command p _ => s.canAccept p
  | .accept p _ => s.canAccept p
  | .event _ _ => false
  | .shortCircuit _ => false
  | .respond _ => false
  | .reset _ => false

/-! ## Progress -/

/-- How many events a task stands for: a plain read-modify-write is two (R388). -/
def Task.weight : Task → Nat
  | .rmwLoad _ _ => 2
  | .rmwStore _ _ => 1
  | .probe _ _ => 1
  | .setBit _ _ => 1
  | .inc _ => 1
  | .countOnes _ => 1
  | .addCount _ => 1
  | .readWord _ => 1
  | .storeWord _ _ => 1
  | .storeCount _ _ => 1
  | .writeCfg _ _ _ _ => 1

/-- A bound on the events a flight has still to perform (R387, R388). -/
def Flight.left (f : Flight) : Nat :=
  (f.todo.map Task.weight).sum +
    match f.part with
    | .first => (f.prog.second.map Task.weight).sum
    | .second => 0

end Sys2Proof.Machine
end

