-- ==== Sys2Proof/Certificates/Slice0/Obligations.lean ====
section
/-! DEFINITION. The statements for the provers. -/

open Sys2Proof Sys2Proof.Machine

/-! ## Encoding (30_encoding.md) -/

/-- Every well-formed command is what its own encoding decodes to, with every operand (R103 to R108, R112). -/
def Obligations.DecodeOfEncodeIsTheCommand : Prop :=
  ∀ i : Instr, i.wellFormed = true → decode (encode i) = .ok i

/-- A legal request decodes to a well-formed command, whose encoding has the same command word: a word has one
meaning and no bit of it is dropped (R112). -/
def Obligations.DecodedCommandKeepsItsWord : Prop :=
  ∀ (r : Request) (i : Instr), decode r = .ok i → i.wellFormed = true ∧ (encode i).cmd = r.cmd

/-- A request is legal exactly when its word selects a row of the match and mask table, with the two conditions the
masks cannot say; no word selects two rows (R110). -/
def Obligations.LegalWordsAreTheTableRows : Prop :=
  (∀ r : Request, (∃ i, decode r = .ok i) ↔
    ∃ row ∈ opRows, row.selects r.cmd = true ∧
      (row.mnemonic = "CONFIG" → r.cmd.extractLsb 17 16 ≠ 3) ∧
      (row.mnemonic = "RDCFG" → validSel (r.cmd.extractLsb 15 8) = true)) ∧
  ∀ (c : BitVec 32), ∀ a ∈ opRows, ∀ b ∈ opRows, a.selects c = true → b.selects c = true → a = b

/-- The five conditions of R111 are exactly the illegal words, written on the word's own bits. -/
def Obligations.IllegalWordsMeetOneOfFiveConditions : Prop :=
  ∀ r : Request, (∃ e, decode r = .error e) ↔
    let op := (r.cmd.extractLsb 7 0).toNat
    0x0C ≤ op ∨
    (op ≤ 0x04 ∧ r.cmd.extractLsb 31 8 ≠ 0) ∨
    ((0x05 ≤ op ∧ op ≤ 0x09) ∧ r.cmd.extractLsb 15 9 ≠ 0) ∨
    ((0x07 ≤ op ∧ op ≤ 0x09) ∧ r.cmd.getLsbD 8 = true) ∨
    (op = 0x0A ∧ (r.cmd.extractLsb 11 8 ≠ 0 ∨ r.cmd.extractLsb 19 18 ≠ 0 ∨ r.cmd.extractLsb 31 25 ≠ 0 ∨
      r.cmd.extractLsb 17 16 = 3)) ∨
    (op = 0x0B ∧ (r.cmd.extractLsb 31 16 ≠ 0 ∨
      ¬ ((r.cmd.extractLsb 15 8).toNat ≤ 0x09 ∨
        (0x10 ≤ (r.cmd.extractLsb 15 8).toNat ∧ (r.cmd.extractLsb 15 8).toNat ≤ 0x1D) ∨
        (0x20 ≤ (r.cmd.extractLsb 15 8).toNat ∧ (r.cmd.extractLsb 15 8).toNat ≤ 0x2D))))

/-- Words written out from R113 and the examples decode to the commands they stand for. -/
def Obligations.WordsOfTheSpecDecode : Prop :=
  decode ⟨0x00000000, 0, 0⟩ = .ok .nop ∧
  decode ⟨0x00000001, 0x0123456789ABCDEF, 0⟩ = .ok (.add 0x0123456789ABCDEF) ∧
  decode ⟨0x00010005, 0, 0⟩ = .ok (.popcnt false 1) ∧
  decode ⟨0xABCD0006, 0, 0⟩ = .ok (.rdcount false 0xABCD) ∧
  decode ⟨0x00000009, 24, 0x0000200000000000⟩ = .ok (.wrword 0 24 0x0000200000000000) ∧
  decode ⟨0x0022400A, 3, 0⟩ = .ok (.config 2 4 2 3) ∧
  decode ⟨0x0000130B, 0, 0⟩ = .ok (.rdcfg 0x13) ∧
  decode ⟨0x00000107, 5, 0⟩ = .error .allNotAllowed ∧
  decode ⟨0x0003300A, 4, 0⟩ = .error .variantThree

/-! ## Steps, reset and faults -/

/-- A step whose next move is a whole command runs the command its request decodes to, on the move's port. -/
def Obligations.StepRunsTheDecodedCommand : Prop :=
  (∀ (s : State) (p : Nat) (r : Request) (i : Instr) (rest : List Move),
    s.faults.stuck = none → s.sched = .command p r :: rest → decode r = .ok i →
      step s = exec i { s with sched := rest, grant := p }) ∧
  ∀ (s : State) (nbits w : Nat) (i : Instr),
    s.faults.stuck = none → decodeTableWord nbits w = some i →
      step (s.withFetchWord nbits w) = exec i { s with grant := 0 }

/-- An illegal request changes no state and responds E_ILLEGAL with DATA 0 (R111). -/
def Obligations.IllegalRequestOnlyResponds : Prop :=
  ∀ (s : State) (p : Nat) (r : Request) (e : Illegal) (rest : List Move),
    s.faults.stuck = none → s.sched = .command p r :: rest → decode r = .error e →
    s.canAccept p = true → (overlapFaults s r).stuck = none →
      step s = .next (State.deliver { s with sched := rest, grant := p } p .illegal 0)

/-- After reset `CFG.VALID` is 0, every port is IDLE and `FAULTS` is empty, whatever the storage holds (R380). -/
def Obligations.ResetGivesTheResetState : Prop :=
  ∀ (p : Params) (u : Residue),
    (State.resetWith p u).cfg.valid = false ∧
    (State.resetWith p u).ports.length = p.nports ∧
    (∀ i < p.nports, (State.resetWith p u).ports[i]? = some .idle) ∧
    (State.resetWith p u).faults = ⟨false, false⟩

/-- The reset wire abandons every command in flight: no response is delivered and no command is left in flight (R381). -/
def Obligations.ResetWireAbandonsCommands : Prop :=
  ∀ (s : State) (u : Residue) (rest : List Move), s.faults.stuck = none → s.sched = .reset u :: rest →
    ∃ t, step s = .next t ∧ t.delivered = s.delivered ∧ (∀ p, t.flight p = none) ∧ t.cfg.valid = false ∧
      t.params = s.params ∧ t.faults = ⟨false, false⟩ ∧ t.sched = rest

/-- The state after reset meets the invariant. -/
def Obligations.ResetStateMeetsTheInvariant : Prop := Inv State.reset

/-- Every step keeps the invariant: legal parameters and configuration, storage in canonical form within its bounds,
commands in flight that are legal, and no illegal overlap while no fault is recorded. -/
def Obligations.StepKeepsTheInvariant : Prop :=
  ∀ s t : State, Inv s → step s = .next t → Inv t

/-- From a state that meets the invariant with no fault recorded, every step answers a next state. -/
def Obligations.UnfaultedLegalStateSteps : Prop :=
  ∀ s : State, Inv s → s.faults.stuck = none → ∃ t, step s = .next t

/-- No step changes the parameters (R9, R30). -/
def Obligations.StepKeepsTheParameters : Prop :=
  ∀ s t : State, step s = .next t → t.params = s.params

/-- A state with a fault recorded takes no further step, and so no fault is ever removed (R45, R350). That this holds
of the reset wire too, where R380 gives FAULTS empty after reset, is the model's reading (DEDUCED, log entry 7). -/
def Obligations.FaultedStateIsStuck : Prop :=
  (∀ s : State, (s.faults.excl = true ∨ s.faults.unsync = true) → ∃ e, step s = .fault e) ∧
  ∀ s t : State, step s = .next t →
    (s.faults.excl = true → t.faults.excl = true) ∧ (s.faults.unsync = true → t.faults.unsync = true)

/-- F_EXCL_OVERLAP is recorded exactly when a command is accepted while another is in flight, neither is a NOP, and
one of the two OP bytes is CLEAR's, WRCOUNT's, WRWORD's or CONFIG's; an event, a short-circuit, a response, a reset and
a request not accepted record none (R351). -/
def Obligations.ExclusiveOverlapIsRecorded : Prop :=
  (∀ (s t : State) (p : Nat) (r : Request) (rest : List Move),
    s.faults.stuck = none → s.canAccept p = true →
    (s.sched = .accept p r :: rest ∨ s.sched = .command p r :: rest) → step s = .next t →
    (t.faults.excl = true ↔
      ∃ q f, q ≠ p ∧ s.flight q = some f ∧ r.cmd ≠ 0 ∧ f.req.cmd ≠ 0 ∧
        ((r.cmd.extractLsb 7 0) ∈ ([0x04, 0x07, 0x09, 0x0A] : List (BitVec 8)) ∨
          (f.req.cmd.extractLsb 7 0) ∈ ([0x04, 0x07, 0x09, 0x0A] : List (BitVec 8))))) ∧
  ∀ (s t : State), (∀ m ∈ s.sched.head?, acceptsRequest s m = false) → step s = .next t → t.faults.excl = false

/-- F_UNSYNC_OVERLAP is recorded exactly when a command is accepted in a valid UNSYNC configuration while another is in
flight and neither is a NOP; both faults may be recorded at one acceptance; an event, a short-circuit, a response, a
reset and a request not accepted record none (R352). -/
def Obligations.UnsyncOverlapIsRecorded : Prop :=
  (∀ (s t : State) (p : Nat) (r : Request) (rest : List Move),
    s.faults.stuck = none → s.canAccept p = true →
    (s.sched = .accept p r :: rest ∨ s.sched = .command p r :: rest) → step s = .next t →
    (t.faults.unsync = true ↔
      s.cfg.valid = true ∧ s.cfg.var = .unsync ∧
        ∃ q f, q ≠ p ∧ s.flight q = some f ∧ r.cmd ≠ 0 ∧ f.req.cmd ≠ 0)) ∧
  (∀ (s t : State), (∀ m ∈ s.sched.head?, acceptsRequest s m = false) → step s = .next t →
    t.faults.unsync = false) ∧
  ∃ (s t : State) (p : Nat) (r : Request),
    s.faults = ⟨false, false⟩ ∧ s.sched = [.accept p r] ∧ step s = .next t ∧ t.faults = ⟨true, true⟩

/-- A port with a command in flight accepts nothing, whichever move presents the request: it changes nothing but the
schedule and, where a whole command is presented, the granted port (R101; the two are the model's, log entries 2 to 4). -/
def Obligations.BusyPortAcceptsNothing : Prop :=
  ∀ (s : State) (p : Nat) (f : Flight) (r : Request) (rest : List Move),
    s.faults.stuck = none → s.flight p = some f →
    (s.sched = .accept p r :: rest → step s = .next { s with sched := rest }) ∧
    (s.sched = .command p r :: rest → step s = .next { s with sched := rest, grant := p })

/-- Only the reset wire and CONFIG change the configuration and partition registers, and only the reset wire clears
`CFG.VALID` (R32, R38). -/
def Obligations.OnlyConfigChangesTheConfiguration : Prop :=
  ∀ (s t : State) (m : Move) (rest : List Move), Inv s → s.sched = m :: rest → step s = .next t →
    (∀ u, m ≠ .reset u) →
    (s.cfg.valid = true → t.cfg.valid = true) ∧
    ((∀ p r, m = .command p r → opByte r ≠ 0x0A) →
      (∀ p n f, m = .event p n → s.flight p = some f → opByte f.req ≠ 0x0A) →
      t.cfg = s.cfg ∧ t.pw = s.pw ∧ t.po = s.po)

/-! ## Datapath (40_datapath.md) -/

/-- The field split of UNSYNC and ATOMIC (R141). -/
def Obligations.PlainFieldSplit : Prop :=
  ∀ (c : Cfg) (h : Word), (c.var = .unsync ∨ c.var = .atomic) → 1 ≤ c.b.toNat →
    (hashFields c h).shardIndex = 0 ∧
    (hashFields c h).blockIndex = (h.toNat / 2 ^ 32) % c.b.toNat ∧
    (hashFields c h).blockIndex < c.b.toNat ∧
    (hashFields c h).intraHash = h.toNat % 2 ^ 32

/-- The field split of SHARDED (R142, R143). -/
def Obligations.ShardedFieldSplit : Prop :=
  ∀ (c : Cfg) (h : Word), c.var = .sharded → 1 ≤ c.b.toNat →
    (hashFields c h).shardIndex = (h.toNat / 2 ^ 32 % 2 ^ 16) % 2 ^ c.log2n.toNat ∧
    (hashFields c h).shardIndex < 2 ^ c.log2n.toNat ∧
    (hashFields c h).blockIndex = (h.toNat / 2 ^ 48) % c.b.toNat ∧
    (hashFields c h).blockIndex < c.b.toNat ∧
    (hashFields c h).intraHash = h.toNat % 2 ^ 32

/-- Probe `i` lies in partition `i`, at its offset plus the intra-block hash modulo its width, within the block's 512
bits, and the partitions follow one another (R148, R149). -/
def Obligations.ProbeLiesInItsPartition : Prop :=
  ∀ (s : State) (x i : Nat), StorageInv s → s.cfg.valid = true → i < s.cfg.k.toNat →
    probePos s x i = s.offset i + x % s.width i ∧
    s.offset i ≤ probePos s x i ∧ probePos s x i < s.offset i + s.width i ∧
    probePos s x i < 512 ∧
    s.offset 0 = 0 ∧
    (i + 1 < s.cfg.k.toNat → s.offset (i + 1) = s.offset i + s.width i) ∧
    (i + 1 = s.cfg.k.toNat → s.offset i + s.width i = 512)

/-- The probes of one hash are pairwise distinct positions (R151). -/
def Obligations.ProbesAreDistinct : Prop :=
  ∀ (s : State) (x i j : Nat), StorageInv s → s.cfg.valid = true →
    i < s.cfg.k.toNat → j < s.cfg.k.toNat → i ≠ j → probePos s x i ≠ probePos s x j

/-- Every probe word lies in the one block the hash selects, among the words in use (R61, R150, R152). -/
def Obligations.ProbesStayInTheSelectedBlock : Prop :=
  ∀ (s : State) (h : Word) (i : Nat), StorageInv s → s.cfg.valid = true → i < s.cfg.k.toNat →
    probeWord s h i / 8 = (hashFields s.cfg h).shardIndex * s.cfg.b.toNat + (hashFields s.cfg h).blockIndex ∧
    probeWord s h i % 8 = probePos s (hashFields s.cfg h).intraHash i / 64 ∧
    probeMask s h i = BitVec.twoPow 64 (probePos s (hashFields s.cfg h).intraHash i % 64) ∧
    probeWord s h i < 2 ^ s.cfg.log2n.toNat * s.cfg.b.toNat * 8

/-- Byte `g*8 + j` of the image view is bits `[8j+7 : 8j]` of word `g`, and bit position `p` of a block is bit `p & 7`
of its byte `p >> 3` (R63). -/
def Obligations.ImageByteViewOfWords : Prop :=
  (∀ (s : State) (g j i : Nat), j < 8 → i < 8 →
    (s.byte (g * 8 + j)).getLsbD i = (s.word g).getLsbD (8 * j + i)) ∧
  ∀ (s : State) (gb p : Nat), p < 512 →
    (s.word (gb * 8 + p / 64)).getLsbD (p % 64) = (s.byte (gb * 64 + p / 8)).getLsbD (p % 8)

/-! ## Per-key commands (41_probe_ops.md) -/

/-- ADD sets exactly the probe bits of its hash, adds one to the shard's counter mod 2^64, changes nothing else, and
responds OK with DATA 0, in every variant (R182, R183, R184). -/
def Obligations.AddSetsProbeBitsAndCounts : Prop :=
  ∀ (h : Word) (s : State), Configured (.add h) s →
    ∃ t, exec (.add h) s = .next t ∧ Added s h t ∧ t.delivered = ⟨s.grant, .ok, 0⟩ :: s.delivered

/-- TEST responds OK with 1 if every probe bit is 1 and with 0 otherwise, and writes nothing (R186). -/
def Obligations.TestReportsTheProbeBits : Prop :=
  ∀ (h : Word) (s : State), Configured (.test h) s →
    (ProbesSet s h → exec (.test h) s = .next (s.deliver s.grant .ok 1)) ∧
    (¬ ProbesSet s h → exec (.test h) s = .next (s.deliver s.grant .ok 0))

/-- TESTADD in UNSYNC: a key that is present changes nothing and responds 1; an absent one is added and counted, and
responds 0 (R191). -/
def Obligations.TestaddInUnsyncAddsIfAbsent : Prop :=
  ∀ (h : Word) (s : State), Configured (.testadd h) s → s.cfg.var = .unsync →
    (ProbesSet s h → exec (.testadd h) s = .next (s.deliver s.grant .ok 1)) ∧
    (¬ ProbesSet s h → ∃ t, exec (.testadd h) s = .next t ∧ Added s h t ∧
      t.delivered = ⟨s.grant, .ok, 0⟩ :: s.delivered)

/-- TESTADD in ATOMIC and SHARDED: the key is added and counted whatever the test finds, and the response is the
presence before the add (R192). -/
def Obligations.TestaddInAtomicAlwaysAdds : Prop :=
  ∀ (h : Word) (s : State), Configured (.testadd h) s → s.cfg.var ≠ .unsync →
    ∃ t d, exec (.testadd h) s = .next t ∧ Added s h t ∧ t.delivered = ⟨s.grant, .ok, d⟩ :: s.delivered ∧
      (ProbesSet s h → d = 1) ∧ (¬ ProbesSet s h → d = 0)

/-- ADD and TESTADD change no byte outside the block the hash selects (R61, R184(e)). -/
def Obligations.AddChangesOnlyTheSelectedBlock : Prop :=
  ∀ (h : Word) (s t : State),
    (Configured (.add h) s ∧ exec (.add h) s = .next t) ∨
    (Configured (.testadd h) s ∧ exec (.testadd h) s = .next t) →
    let gb := (hashFields s.cfg h).shardIndex * s.cfg.b.toNat + (hashFields s.cfg h).blockIndex
    ∀ a, ¬ (gb * 64 ≤ a ∧ a < gb * 64 + 64) → t.byte a = s.byte a

/-- The plain read-modify-writes of UNSYNC have the same effect on the array and counters as the atomic ORs (R183). -/
def Obligations.PlainAddHasTheAtomicEffect : Prop :=
  ∀ (h : Word) (s t u : State), Configured (.add h) s → s.cfg.var = .unsync →
    exec (.add h) s = .next t →
    exec (.add h) { s with cfg := { s.cfg with var := .atomic } } = .next u →
    t.arr = u.arr ∧ t.count = u.count

/-- After an ADD of `h`, TEST of `h` responds 1 (R188(c)). -/
def Obligations.TestAfterAddIsPresent : Prop :=
  ∀ (h : Word) (s t : State), Configured (.add h) s → exec (.add h) s = .next t →
    exec (.test h) t = .next (t.deliver t.grant .ok 1)

/-- A second ADD of the same hash leaves every word as the first left it and counts again (R184(a)). -/
def Obligations.SecondAddChangesNoWord : Prop :=
  ∀ (h : Word) (s t u : State), Configured (.add h) s → exec (.add h) s = .next t → exec (.add h) t = .next u →
    (∀ g, u.word g = t.word g) ∧ u.counter (hashShard s h) = s.counter (hashShard s h) + 2

/-- Two hashes with the same shard, block and intra-block hash always test alike (R188(b)). -/
def Obligations.EqualFieldsTestAlike : Prop :=
  ∀ (h h' : Word) (s : State), hashFields s.cfg h = hashFields s.cfg h' →
    (Configured (.test h) s → exec (.test h) s = exec (.test h') s)

/-! ## Whole-array and counter commands (42_bulk_ops.md) -/

/-- CLEAR zeroes every word and counter in use and no other, keeps the configuration, and responds OK (R220, R222(c)). -/
def Obligations.ClearZeroesWhatIsInUse : Prop :=
  ∀ s : State, Configured .clear s →
    ∃ t, exec .clear s = .next t ∧
      (∀ g, t.word g = if g < 2 ^ s.cfg.log2n.toNat * s.cfg.b.toNat * 8 then 0 else s.word g) ∧
      (∀ i, t.counter i = if i < 2 ^ s.cfg.log2n.toNat then 0 else s.counter i) ∧
      RegistersKept s t ∧ t.delivered = ⟨s.grant, .ok, 0⟩ :: s.delivered

/-- After CLEAR every TEST responds 0 and POPCNT and RDCOUNT of all shards respond 0 (R222(a)). -/
def Obligations.ClearedFilterIsEmpty : Prop :=
  ∀ (s t : State) (h : Word), Configured .clear s → exec .clear s = .next t →
    exec (.test h) t = .next (t.deliver t.grant .ok 0) ∧
    exec Instr.fill t = .next (t.deliver t.grant .ok 0) ∧
    exec Instr.count t = .next (t.deliver t.grant .ok 0)

/-- POPCNT responds with the exact number of 1 bits of the shard's words, or of all words in use, and writes nothing
(R226). -/
def Obligations.PopcntCountsTheOnes : Prop :=
  ∀ (all : Bool) (shard : BitVec 16) (s : State), Configured (.popcnt all shard) s →
    (all = true ∨ shard.toNat < 2 ^ s.cfg.log2n.toNat) →
    let lo := if all then 0 else shard.toNat * s.cfg.b.toNat * 8
    let hi := if all then 2 ^ s.cfg.log2n.toNat * s.cfg.b.toNat * 8 else (shard.toNat + 1) * s.cfg.b.toNat * 8
    ∃ d : Word, exec (.popcnt all shard) s = .next (s.deliver s.grant .ok d) ∧
      d.toNat = ∑ g ∈ Finset.Ico lo hi, ((Finset.range 64).filter fun j => (s.word g).getLsbD j = true).card ∧
      d.toNat ≤ 512 * 2 ^ s.cfg.log2n.toNat * s.cfg.b.toNat

/-- RDCOUNT responds with one shard's counter, or with the sum of all mod 2^64, and writes nothing (R232). -/
def Obligations.RdcountReadsTheCounters : Prop :=
  (∀ (shard : BitVec 16) (s : State), Configured (.rdcount false shard) s →
    shard.toNat < 2 ^ s.cfg.log2n.toNat →
    exec (.rdcount false shard) s = .next (s.deliver s.grant .ok (s.counter shard.toNat))) ∧
  ∀ (shard : BitVec 16) (s : State), Configured (.rdcount true shard) s →
    exec (.rdcount true shard) s = .next (s.deliver s.grant .ok
      (BitVec.ofNat 64 (∑ i ∈ Finset.range (2 ^ s.cfg.log2n.toNat), (s.counter i).toNat)))

/-- WRCOUNT sets one shard's counter to any value and changes nothing else (R238, R239(a)). -/
def Obligations.WrcountSetsOneCounter : Prop :=
  ∀ (shard : BitVec 16) (cval : Word) (s : State), Configured (.wrcount shard cval) s →
    shard.toNat < 2 ^ s.cfg.log2n.toNat →
    ∃ t, exec (.wrcount shard cval) s = .next t ∧
      (∀ i, t.counter i = if i = shard.toNat then cval else s.counter i) ∧
      t.arr = s.arr ∧ RegistersKept s t ∧ t.delivered = ⟨s.grant, .ok, 0⟩ :: s.delivered

/-! ## Image port (43_image_ops.md) -/

/-- RDWORD responds with word `SHARD*B*8 + WIDX` and writes nothing (R250, R252). -/
def Obligations.RdwordReadsOneWord : Prop :=
  ∀ (shard : BitVec 16) (widx : Word) (s : State), Configured (.rdword shard widx) s →
    shard.toNat < 2 ^ s.cfg.log2n.toNat → widx.toNat < s.cfg.b.toNat * 8 →
    exec (.rdword shard widx) s =
      .next (s.deliver s.grant .ok (s.word (shard.toNat * s.cfg.b.toNat * 8 + widx.toNat)))

/-- WRWORD stores its value to word `SHARD*B*8 + WIDX`; every other word, every byte outside that word, every counter
and register is unchanged (R250, R256). -/
def Obligations.WrwordWritesOneWord : Prop :=
  ∀ (shard : BitVec 16) (widx wval : Word) (s : State), Configured (.wrword shard widx wval) s →
    shard.toNat < 2 ^ s.cfg.log2n.toNat → widx.toNat < s.cfg.b.toNat * 8 →
    let g := shard.toNat * s.cfg.b.toNat * 8 + widx.toNat
    ∃ t, exec (.wrword shard widx wval) s = .next t ∧
      t.word g = wval ∧ (∀ x, x ≠ g → t.word x = s.word x) ∧
      (∀ a, ¬ (g * 8 ≤ a ∧ a < g * 8 + 8) → t.byte a = s.byte a) ∧
      t.count = s.count ∧ RegistersKept s t ∧ t.delivered = ⟨s.grant, .ok, 0⟩ :: s.delivered

/-! ## Configuration commands (44_config_ops.md) -/

/-- NOP responds OK with DATA 0 in every state whose port can accept it, whatever is in flight elsewhere and whether or
not the engine is configured; a NOP word with a reserved bit set is illegal (R270). -/
def Obligations.NopOnlyResponds : Prop :=
  (∀ s : State, s.faults.stuck = none → s.canAccept s.grant = true →
    exec .nop s = .next (s.deliver s.grant .ok 0)) ∧
  (∀ (c : BitVec 24) (a b : Word), c ≠ 0 → ∃ e, decode ⟨c ++ (0x00 : BitVec 8), a, b⟩ = .error e) ∧
  decode ⟨0x00000000, 0, 0⟩ = .ok .nop

/-- CONFIG whose checks hold writes the configuration with k and B corrected, loads the partition registers from the
table and their prefix sums, zeroes the words and counters of the new configuration and no other, and responds OK
(R276, R277). -/
def Obligations.ConfigConstructsTheFilter : Prop :=
  ∀ (varreq : BitVec 2) (kreq : BitVec 4) (log2nreq : BitVec 5) (breq : Word) (s : State),
    Ready (.config varreq kreq log2nreq breq) s → s.params.Legal → varreq ≠ 3 →
    let k : BitVec 4 := if 3 ≤ kreq.toNat ∧ kreq.toNat ≤ 14 then kreq else 7
    let b : Word := if breq = 0 then 1 else breq
    ConfigAccepted s.params varreq log2nreq b →
    ∃ t, exec (.config varreq kreq log2nreq breq) s = .next t ∧
      t.cfg.valid = true ∧ t.cfg.var.code = varreq.toNat ∧ t.cfg.k = k ∧ t.cfg.b = b ∧ t.cfg.log2n = log2nreq ∧
      (∀ i < k.toNat, t.width i = ((s.params.table.getD (k.toNat - 3) []).getD i 0).toNat ∧
        t.offset i = (((s.params.table.getD (k.toNat - 3) []).take i).map BitVec.toNat).sum) ∧
      (∀ g, t.word g = if g < 2 ^ log2nreq.toNat * b.toNat * 8 then 0 else s.word g) ∧
      (∀ i, t.counter i = if i < 2 ^ log2nreq.toNat then 0 else s.counter i) ∧
      t.params = s.params ∧ t.ports = s.ports ∧ t.faults = s.faults ∧ t.sched = s.sched ∧ t.grant = s.grant ∧
      t.delivered = ⟨s.grant, .ok, 0⟩ :: s.delivered

/-- E_CONFIG is raised only by CONFIG, and exactly when one of its checks fails on the corrected B; an unsupported k and
B = 0 are not errors (R344). -/
def Obligations.ConfigErrorIsRaisedExactlyByItsChecks : Prop :=
  ∀ (i : Instr) (s t : State), Ready i s → exec i s = .next t →
    ((∃ d, t.delivered = ⟨s.grant, .config, d⟩ :: s.delivered) ↔
      ∃ varreq kreq log2nreq breq, i = .config varreq kreq log2nreq breq ∧ varreq ≠ 3 ∧
        ((log2nreq ≠ 0 ∧ varreq ≠ 2) ∨ s.params.log2nmax < log2nreq.toNat ∨
          2 ^ 50 ≤ (if breq = 0 then (1 : Word) else breq).toNat ∨
          s.params.capBlocks < (if breq = 0 then (1 : Word) else breq).toNat * 2 ^ log2nreq.toNat))

/-- RDCFG of the parameters and of CFG.VALID responds in every state, configured or not (R282). An NPORTS that DATA
cannot hold is reported as a free value (log entry 23). -/
def Obligations.RdcfgReportsTheParameters : Prop :=
  (∀ s : State, Ready (.rdcfg 0x06) s →
    exec (.rdcfg 0x06) s = .next (s.deliver s.grant .ok (BitVec.ofNat 64 s.params.capBlocks))) ∧
  (∀ s : State, Ready (.rdcfg 0x07) s →
    exec (.rdcfg 0x07) s = .next (s.deliver s.grant .ok (if s.cfg.valid then 1 else 0))) ∧
  (∀ s : State, Ready (.rdcfg 0x08) s →
    exec (.rdcfg 0x08) s = .next (s.deliver s.grant .ok (BitVec.ofNat 64 s.params.log2nmax))) ∧
  ∀ s : State, Ready (.rdcfg 0x09) s →
    ∃ d, exec (.rdcfg 0x09) s = .next (s.deliver s.grant .ok d) ∧ (s.params.nports < 2 ^ 64 → d.toNat = s.params.nports)

/-- RDCFG of a configured engine responds with the register or derived quantity of each selector, exact in 64 bits,
and E_RANGE for a partition register at or above k (R282, R37). -/
def Obligations.RdcfgReportsTheConfiguration : Prop :=
  ∀ (sel : BitVec 8) (s : State), Configured (.rdcfg sel) s →
    ∃ st d, exec (.rdcfg sel) s = .next (s.deliver s.grant st d) ∧
      (sel = 0x00 → st = .ok ∧ d = s.cfg.b) ∧
      (sel = 0x01 → st = .ok ∧ d.toNat = s.cfg.k.toNat) ∧
      (sel = 0x02 → st = .ok ∧ d.toNat = 2 ^ s.cfg.log2n.toNat) ∧
      (sel = 0x03 → st = .ok ∧ d.toNat = s.cfg.var.code) ∧
      (sel = 0x04 → st = .ok ∧ d.toNat = 2 ^ s.cfg.log2n.toNat * s.cfg.b.toNat * 512) ∧
      (sel = 0x05 → st = .ok ∧ d.toNat = 2 ^ s.cfg.log2n.toNat * s.cfg.b.toNat) ∧
      (∀ i < 14, sel = BitVec.ofNat 8 (0x10 + i) → i < s.cfg.k.toNat → st = .ok ∧ d.toNat = s.width i) ∧
      (∀ i < 14, sel = BitVec.ofNat 8 (0x20 + i) → i < s.cfg.k.toNat → st = .ok ∧ d.toNat = s.offset i) ∧
      (∀ i < 14, (sel = BitVec.ofNat 8 (0x10 + i) ∨ sel = BitVec.ofNat 8 (0x20 + i)) → s.cfg.k.toNat ≤ i →
        st = .range ∧ d = 0)

/-! ## Statuses (60_exceptions.md) -/

/-- While CFG.VALID is 0 every legal command but NOP, CONFIG and the four parameter selectors responds
E_UNCONFIGURED, and those never do (R342). -/
def Obligations.UnconfiguredCommandsAreRefused : Prop :=
  (∀ (i : Instr) (s : State), Ready i s → s.cfg.valid = false → i.wellFormed = true → needsConfiguration i = true →
    exec i s = .next (s.deliver s.grant .unconfigured 0)) ∧
  ∀ (i : Instr) (s t : State), Ready i s → i.wellFormed = true → needsConfiguration i = false ∨ s.cfg.valid = true →
    exec i s = .next t → ∀ d, t.delivered ≠ ⟨s.grant, .unconfigured, d⟩ :: s.delivered

/-- E_RANGE: a shard number, word index or partition index out of range; never by ADD, TEST or TESTADD (R343). -/
def Obligations.RangeErrorsAreRaised : Prop :=
  (∀ (shard : BitVec 16) (s : State), Configured (.popcnt false shard) s → 2 ^ s.cfg.log2n.toNat ≤ shard.toNat →
    exec (.popcnt false shard) s = .next (s.deliver s.grant .range 0)) ∧
  (∀ (shard : BitVec 16) (s : State), Configured (.rdcount false shard) s → 2 ^ s.cfg.log2n.toNat ≤ shard.toNat →
    exec (.rdcount false shard) s = .next (s.deliver s.grant .range 0)) ∧
  (∀ (shard : BitVec 16) (cval : Word) (s : State), Configured (.wrcount shard cval) s →
    2 ^ s.cfg.log2n.toNat ≤ shard.toNat →
    exec (.wrcount shard cval) s = .next (s.deliver s.grant .range 0)) ∧
  (∀ (shard : BitVec 16) (widx : Word) (s : State), Configured (.rdword shard widx) s →
    2 ^ s.cfg.log2n.toNat ≤ shard.toNat ∨ s.cfg.b.toNat * 8 ≤ widx.toNat →
    exec (.rdword shard widx) s = .next (s.deliver s.grant .range 0)) ∧
  (∀ (shard : BitVec 16) (widx wval : Word) (s : State), Configured (.wrword shard widx wval) s →
    2 ^ s.cfg.log2n.toNat ≤ shard.toNat ∨ s.cfg.b.toNat * 8 ≤ widx.toNat →
    exec (.wrword shard widx wval) s = .next (s.deliver s.grant .range 0)) ∧
  (∀ (i : Nat) (s : State), i < 14 → s.cfg.k.toNat ≤ i →
    (Configured (.rdcfg (BitVec.ofNat 8 (0x10 + i))) s →
      exec (.rdcfg (BitVec.ofNat 8 (0x10 + i))) s = .next (s.deliver s.grant .range 0)) ∧
    (Configured (.rdcfg (BitVec.ofNat 8 (0x20 + i))) s →
      exec (.rdcfg (BitVec.ofNat 8 (0x20 + i))) s = .next (s.deliver s.grant .range 0))) ∧
  ∀ (h : Word) (i : Instr) (s t : State), (i = .add h ∨ i = .test h ∨ i = .testadd h) → Ready i s →
    exec i s = .next t → ∀ d, t.delivered ≠ ⟨s.grant, .range, d⟩ :: s.delivered

/-- A command that responds with a status other than OK has changed nothing, and its DATA is 0 (R346). -/
def Obligations.ErrorsChangeNothing : Prop :=
  ∀ (i : Instr) (s t : State), Ready i s → exec i s = .next t →
    ∃ st d, t.delivered = ⟨s.grant, st, d⟩ :: s.delivered ∧
      (st ≠ .ok → d = 0 ∧ t = s.deliver s.grant st 0)

/-- TEST, POPCNT, RDCOUNT, RDWORD, RDCFG and NOP write nothing: a step of theirs changes only the responses (R69). -/
def Obligations.ReadingCommandsWriteNothing : Prop :=
  ∀ (i : Instr) (s t : State), Ready i s → exec i s = .next t →
    (i = .nop ∨ (∃ h, i = .test h) ∨ (∃ a x, i = .popcnt a x) ∨ (∃ a x, i = .rdcount a x) ∨
      (∃ x w, i = .rdword x w) ∨ ∃ x, i = .rdcfg x) →
    ∃ st d, t = s.deliver s.grant st d

/-! ## Interleaving (20_memory.md) -/

/-- A whole command is one of its interleavings: acceptance, its events one after the other, and the response reach
the same state (R71, R73). -/
def Obligations.CommandEqualsItsAtomicSteps : Prop :=
  ∀ (s t : State) (p : Nat) (r : Request) (rest : List Move),
    s.faults.stuck = none → s.canAccept p = true → (overlapFaults s r).stuck = none →
    step { s with sched := .command p r :: rest } = .next t →
    ∃ n, Host.Core.run Sys2Proof.core (n + 2)
      { s with sched := .accept p r :: (List.replicate n (.event p 0) ++ .respond p :: rest) } =
        .next { t with grant := s.grant }

/-- No bit of the array falls under any step but those of CLEAR, WRWORD, CONFIG and the reset wire, in every variant
(R42, R70). -/
def Obligations.BitsNeverFall : Prop :=
  ∀ (s t : State) (m : Move) (rest : List Move), Inv s → s.sched = m :: rest → mayClear s m = false →
    step s = .next t → BitsKept s t

/-- No false negatives: an ADD or TESTADD of `h`, served whole or by its own moves with other ports' moves between them,
has set every probe bit of `h` once its response is due; and as long as no CLEAR, WRWORD, CONFIG or reset intervenes
from then on, every TEST of `h` responds 1, whatever the ports do in between (R77, R195(a)). -/
def Obligations.NoFalseNegatives : Prop :=
  ∀ (h : Word) (s s1 : State), Inv s → AddPerformed h s s1 →
    ProbesSet s1 h ∧
    ∀ (t : State) (n q : Nat), Quiet s1 → Host.Core.run Sys2Proof.core n s1 = .next t →
      Ready (.test h) { t with grant := q } →
      exec (.test h) { t with grant := q } = .next (State.deliver { t with grant := q } q .ok 1)

/-- The same for a TEST whose loads interleave with other ports' events: accepted when every probe bit of `h` is 1, its
response is 1 when its events are done (R75, R77, R195(a)). -/
def Obligations.InterleavedTestSeesTheAdd : Prop :=
  ∀ (h : Word) (s t : State) (n p : Nat) (r : Request) (f : Flight),
    Inv s → s.cfg.valid = true → ProbesSet s h → decode r = .ok (.test h) → Performed s p r n t f →
    f.prog.status = .ok ∧ f.prog.data f.done = 1

/-- In UNSYNC an ADD performed by its own moves, in any order of its loads, stores and increment that never loads a word
whose store is pending (I24; log entry 8), with moves of other ports between them, is one add: the probe bits are set, no
other bit has changed, the shard's counter is one higher, and the response is OK, 0 (R182, R183). -/
def Obligations.PlainAddInAnyOrderIsOneAdd : Prop :=
  ∀ (h : Word) (s t : State) (n p : Nat) (r : Request) (f : Flight),
    Inv s → s.cfg.valid = true → s.cfg.var = .unsync → decode r = .ok (.add h) → Performed s p r n t f →
    (∀ g j, (t.word g).getLsbD j = true ↔ (s.word g).getLsbD j = true ∨ IsProbeBit s h g j) ∧
    (∀ i, t.counter i = if i = hashShard s h then s.counter i + 1 else s.counter i) ∧
    t.cfg = s.cfg ∧ t.pw = s.pw ∧ t.po = s.po ∧ f.prog.status = .ok ∧ f.prog.data f.done = 0

/-- The short-circuit of a test part that has read a 0 ends that part and changes nothing else; the answer is 0
whatever is performed after it (R187). -/
def Obligations.ShortCircuitAnswersAbsent : Prop :=
  ∀ (s : State) (p : Nat) (f : Flight) (rest : List Move),
    s.faults.stuck = none → s.flight p = some f → f.mayStop = true →
    step { s with sched := .shortCircuit p :: rest } =
      .next (State.setPort { s with sched := rest } p (.busy { f with part := .second, todo := f.prog.second })) ∧
    ∀ more : List Done, f.prog.data (more ++ f.done) = 0

/-- Every command in flight makes progress by its own events, whatever the other ports do: an event can always be
performed until it may respond, each leaves fewer to perform, and the moves of other ports leave the flight alone (R387). -/
def Obligations.FlightsMakeProgress : Prop :=
  (∀ (s : State) (p : Nat) (f : Flight) (rest : List Move), Inv s → s.faults.stuck = none → s.flight p = some f →
    f.complete = false →
    ∃ t f', step { s with sched := .event p 0 :: rest } = .next t ∧ t.flight p = some f' ∧ f'.left < f.left) ∧
  (∀ (s : State) (p : Nat) (f : Flight) (rest : List Move), s.faults.stuck = none → s.flight p = some f →
    f.complete = true →
    step { s with sched := .respond p :: rest } =
      .next (State.deliver (State.setPort { s with sched := rest } p .idle) p f.prog.status (f.prog.data f.done))) ∧
  ∀ (s t : State) (p q n : Nat) (f : Flight) (r : Request) (m : Move) (rest : List Move), s.flight p = some f → q ≠ p →
    (m = .accept q r ∨ m = .command q r ∨ m = .event q n ∨ m = .shortCircuit q ∨ m = .respond q) →
    step { s with sched := m :: rest } = .next t → t.flight p = some f

/-! ## The host's side (48_host_side.md) -/

/-- The construction command of a sharded filter asks for the smallest power of two at or above the explicit shard
count, or above the larger of the parallelism and 4; there is one for every count up to 2^31 (R305, R306). Its KREQ is
k, and for a k of 16 or more one that the soft correction turns into 7 (log entry 24, the model's choice). -/
def Obligations.ShardedConstructionRoundsTheShardCount : Prop :=
  ∀ (k : Nat) (explicit : Option Nat) (parallelism : Nat) (b : Word),
    let wanted := match explicit with
      | some n => n
      | none => max parallelism 4
    wanted ≤ 2 ^ 31 →
    ∃ (kreq : BitVec 4) (l : BitVec 5), constructSharded k explicit parallelism b = some (.config 2 kreq l b) ∧
      (k < 16 → kreq.toNat = k) ∧ (16 ≤ k → kreq.toNat < 3 ∨ 14 < kreq.toNat) ∧
      shardCount explicit parallelism = 2 ^ l.toNat ∧ wanted ≤ 2 ^ l.toNat ∧ ∀ e, wanted ≤ 2 ^ e → l.toNat ≤ e

/-- An UNSYNC filter has an image, and decoding it gives back its k, block count, count and words; a filter of another
variant has none (R310 to R313; N26 and log entry 22 for the other variants). -/
def Obligations.DecodeOfEncodedImage : Prop :=
  ∀ s : State, StorageInv s → s.cfg.valid = true →
    (s.cfg.var = .unsync → ∃ bytes, encodeImage s = some bytes ∧ decodeImage bytes = .ok
      { k := s.cfg.k.toNat, blockCount := s.cfg.b.toNat, count := (s.counter 0).toNat,
        words := (List.range (s.cfg.b.toNat * 8)).map s.word }) ∧
    (s.cfg.var ≠ .unsync → encodeImage s = none)

/-- Decoding the image of a filter into a quiescent engine of the same parameters rebuilds the saved filter:
configuration, words in use and counter (R314, R317). -/
def Obligations.RestoredFilterIsTheSavedOne : Prop :=
  ∀ (s t : State) (bytes : List Byte), StorageInv s → encodeImage s = some bytes →
    t.params = s.params → t.faults.stuck = none → Quiescent t → t.canAccept t.grant = true →
    ∃ u, loadImage bytes t = .ok u ∧ u.cfg = s.cfg ∧
      (∀ i < s.cfg.k.toNat, u.width i = s.width i ∧ u.offset i = s.offset i) ∧
      (∀ g < s.cfg.b.toNat * 8, u.word g = s.word g) ∧ u.counter 0 = s.counter 0

/-- Decoding fails with no filter and no command issued where a check fails, and with nothing changed but CONFIG's
response E_CONFIG where the image has more blocks than the engine (R313, R314). -/
def Obligations.RefusedImageLoadsNothing : Prop :=
  ∀ (bytes : List Byte) (t : State),
    (∀ e, decodeImage bytes = .error e → loadImage bytes t = .error (.image e)) ∧
    (∀ img, decodeImage bytes = .ok img → t.faults.stuck = none → Quiescent t → t.canAccept t.grant = true →
      t.params.capBlocks < img.blockCount →
      loadImage bytes t = .error (.configRefused (t.deliver t.grant .config 0)))
end

