-- ==== Sys2Proof/Laws/State.lean ====
section
/-! SUPPORT. One lemma per field and named update of the state, each true by `rfl`. -/

namespace Sys2Proof.Machine

@[simp] theorem State.putWord_params (s : State) (g : Nat) (v : Word) :
    (s.putWord g v).params = s.params := rfl
@[simp] theorem State.putWord_cfg (s : State) (g : Nat) (v : Word) :
    (s.putWord g v).cfg = s.cfg := rfl
@[simp] theorem State.putWord_pw (s : State) (g : Nat) (v : Word) :
    (s.putWord g v).pw = s.pw := rfl
@[simp] theorem State.putWord_po (s : State) (g : Nat) (v : Word) :
    (s.putWord g v).po = s.po := rfl
@[simp] theorem State.putWord_count (s : State) (g : Nat) (v : Word) :
    (s.putWord g v).count = s.count := rfl
@[simp] theorem State.putWord_arr (s : State) (g : Nat) (v : Word) :
    (s.putWord g v).arr = storeWord s.arr g v := rfl
@[simp] theorem State.putWord_ports (s : State) (g : Nat) (v : Word) :
    (s.putWord g v).ports = s.ports := rfl
@[simp] theorem State.putWord_faults (s : State) (g : Nat) (v : Word) :
    (s.putWord g v).faults = s.faults := rfl
@[simp] theorem State.putWord_sched (s : State) (g : Nat) (v : Word) :
    (s.putWord g v).sched = s.sched := rfl
@[simp] theorem State.putWord_grant (s : State) (g : Nat) (v : Word) :
    (s.putWord g v).grant = s.grant := rfl
@[simp] theorem State.putWord_delivered (s : State) (g : Nat) (v : Word) :
    (s.putWord g v).delivered = s.delivered := rfl

@[simp] theorem State.putCounter_params (s : State) (i : Nat) (v : BitVec 64) :
    (s.putCounter i v).params = s.params := rfl
@[simp] theorem State.putCounter_cfg (s : State) (i : Nat) (v : BitVec 64) :
    (s.putCounter i v).cfg = s.cfg := rfl
@[simp] theorem State.putCounter_pw (s : State) (i : Nat) (v : BitVec 64) :
    (s.putCounter i v).pw = s.pw := rfl
@[simp] theorem State.putCounter_po (s : State) (i : Nat) (v : BitVec 64) :
    (s.putCounter i v).po = s.po := rfl
@[simp] theorem State.putCounter_count (s : State) (i : Nat) (v : BitVec 64) :
    (s.putCounter i v).count = cellPut s.count i v := rfl
@[simp] theorem State.putCounter_arr (s : State) (i : Nat) (v : BitVec 64) :
    (s.putCounter i v).arr = s.arr := rfl
@[simp] theorem State.putCounter_ports (s : State) (i : Nat) (v : BitVec 64) :
    (s.putCounter i v).ports = s.ports := rfl
@[simp] theorem State.putCounter_faults (s : State) (i : Nat) (v : BitVec 64) :
    (s.putCounter i v).faults = s.faults := rfl
@[simp] theorem State.putCounter_sched (s : State) (i : Nat) (v : BitVec 64) :
    (s.putCounter i v).sched = s.sched := rfl
@[simp] theorem State.putCounter_grant (s : State) (i : Nat) (v : BitVec 64) :
    (s.putCounter i v).grant = s.grant := rfl
@[simp] theorem State.putCounter_delivered (s : State) (i : Nat) (v : BitVec 64) :
    (s.putCounter i v).delivered = s.delivered := rfl

@[simp] theorem State.setPort_params (s : State) (p : Nat) (x : Port) :
    (s.setPort p x).params = s.params := rfl
@[simp] theorem State.setPort_cfg (s : State) (p : Nat) (x : Port) :
    (s.setPort p x).cfg = s.cfg := rfl
@[simp] theorem State.setPort_pw (s : State) (p : Nat) (x : Port) :
    (s.setPort p x).pw = s.pw := rfl
@[simp] theorem State.setPort_po (s : State) (p : Nat) (x : Port) :
    (s.setPort p x).po = s.po := rfl
@[simp] theorem State.setPort_count (s : State) (p : Nat) (x : Port) :
    (s.setPort p x).count = s.count := rfl
@[simp] theorem State.setPort_arr (s : State) (p : Nat) (x : Port) :
    (s.setPort p x).arr = s.arr := rfl
@[simp] theorem State.setPort_ports (s : State) (p : Nat) (x : Port) :
    (s.setPort p x).ports = s.ports.set p x := rfl
@[simp] theorem State.setPort_faults (s : State) (p : Nat) (x : Port) :
    (s.setPort p x).faults = s.faults := rfl
@[simp] theorem State.setPort_sched (s : State) (p : Nat) (x : Port) :
    (s.setPort p x).sched = s.sched := rfl
@[simp] theorem State.setPort_grant (s : State) (p : Nat) (x : Port) :
    (s.setPort p x).grant = s.grant := rfl
@[simp] theorem State.setPort_delivered (s : State) (p : Nat) (x : Port) :
    (s.setPort p x).delivered = s.delivered := rfl

@[simp] theorem State.recordFaults_params (s : State) (f : FaultSet) :
    (s.recordFaults f).params = s.params := rfl
@[simp] theorem State.recordFaults_cfg (s : State) (f : FaultSet) :
    (s.recordFaults f).cfg = s.cfg := rfl
@[simp] theorem State.recordFaults_pw (s : State) (f : FaultSet) :
    (s.recordFaults f).pw = s.pw := rfl
@[simp] theorem State.recordFaults_po (s : State) (f : FaultSet) :
    (s.recordFaults f).po = s.po := rfl
@[simp] theorem State.recordFaults_count (s : State) (f : FaultSet) :
    (s.recordFaults f).count = s.count := rfl
@[simp] theorem State.recordFaults_arr (s : State) (f : FaultSet) :
    (s.recordFaults f).arr = s.arr := rfl
@[simp] theorem State.recordFaults_ports (s : State) (f : FaultSet) :
    (s.recordFaults f).ports = s.ports := rfl
@[simp] theorem State.recordFaults_faults (s : State) (f : FaultSet) :
    (s.recordFaults f).faults = s.faults.union f := rfl
@[simp] theorem State.recordFaults_sched (s : State) (f : FaultSet) :
    (s.recordFaults f).sched = s.sched := rfl
@[simp] theorem State.recordFaults_grant (s : State) (f : FaultSet) :
    (s.recordFaults f).grant = s.grant := rfl
@[simp] theorem State.recordFaults_delivered (s : State) (f : FaultSet) :
    (s.recordFaults f).delivered = s.delivered := rfl

@[simp] theorem State.deliver_params (s : State) (p : Nat) (st : Status) (d : Word) :
    (s.deliver p st d).params = s.params := rfl
@[simp] theorem State.deliver_cfg (s : State) (p : Nat) (st : Status) (d : Word) :
    (s.deliver p st d).cfg = s.cfg := rfl
@[simp] theorem State.deliver_pw (s : State) (p : Nat) (st : Status) (d : Word) :
    (s.deliver p st d).pw = s.pw := rfl
@[simp] theorem State.deliver_po (s : State) (p : Nat) (st : Status) (d : Word) :
    (s.deliver p st d).po = s.po := rfl
@[simp] theorem State.deliver_count (s : State) (p : Nat) (st : Status) (d : Word) :
    (s.deliver p st d).count = s.count := rfl
@[simp] theorem State.deliver_arr (s : State) (p : Nat) (st : Status) (d : Word) :
    (s.deliver p st d).arr = s.arr := rfl
@[simp] theorem State.deliver_ports (s : State) (p : Nat) (st : Status) (d : Word) :
    (s.deliver p st d).ports = s.ports := rfl
@[simp] theorem State.deliver_faults (s : State) (p : Nat) (st : Status) (d : Word) :
    (s.deliver p st d).faults = s.faults := rfl
@[simp] theorem State.deliver_sched (s : State) (p : Nat) (st : Status) (d : Word) :
    (s.deliver p st d).sched = s.sched := rfl
@[simp] theorem State.deliver_grant (s : State) (p : Nat) (st : Status) (d : Word) :
    (s.deliver p st d).grant = s.grant := rfl
@[simp] theorem State.deliver_delivered (s : State) (p : Nat) (st : Status) (d : Word) :
    (s.deliver p st d).delivered = ⟨p, st, d⟩ :: s.delivered := rfl

@[simp] theorem State.writeCfg_params (s : State) (var : Variant) (k : BitVec 4) (b : BitVec 64) (l : BitVec 5) :
    (s.writeCfg var k b l).params = s.params := rfl
@[simp] theorem State.writeCfg_cfg (s : State) (var : Variant) (k : BitVec 4) (b : BitVec 64) (l : BitVec 5) :
    (s.writeCfg var k b l).cfg = { valid := true, var := var, k := k, b := b, log2n := l } := rfl
@[simp] theorem State.writeCfg_pw (s : State) (var : Variant) (k : BitVec 4) (b : BitVec 64) (l : BitVec 5) :
    (s.writeCfg var k b l).pw = loadRow s.pw (((tableRow s.params k.toNat).getD []).take k.toNat) := rfl
@[simp] theorem State.writeCfg_po (s : State) (var : Variant) (k : BitVec 4) (b : BitVec 64) (l : BitVec 5) :
    (s.writeCfg var k b l).po = loadRow s.po (prefixSums 0 (((tableRow s.params k.toNat).getD []).take k.toNat)) := rfl
@[simp] theorem State.writeCfg_count (s : State) (var : Variant) (k : BitVec 4) (b : BitVec 64) (l : BitVec 5) :
    (s.writeCfg var k b l).count = s.count := rfl
@[simp] theorem State.writeCfg_arr (s : State) (var : Variant) (k : BitVec 4) (b : BitVec 64) (l : BitVec 5) :
    (s.writeCfg var k b l).arr = s.arr := rfl
@[simp] theorem State.writeCfg_ports (s : State) (var : Variant) (k : BitVec 4) (b : BitVec 64) (l : BitVec 5) :
    (s.writeCfg var k b l).ports = s.ports := rfl
@[simp] theorem State.writeCfg_faults (s : State) (var : Variant) (k : BitVec 4) (b : BitVec 64) (l : BitVec 5) :
    (s.writeCfg var k b l).faults = s.faults := rfl
@[simp] theorem State.writeCfg_sched (s : State) (var : Variant) (k : BitVec 4) (b : BitVec 64) (l : BitVec 5) :
    (s.writeCfg var k b l).sched = s.sched := rfl
@[simp] theorem State.writeCfg_grant (s : State) (var : Variant) (k : BitVec 4) (b : BitVec 64) (l : BitVec 5) :
    (s.writeCfg var k b l).grant = s.grant := rfl
@[simp] theorem State.writeCfg_delivered (s : State) (var : Variant) (k : BitVec 4) (b : BitVec 64) (l : BitVec 5) :
    (s.writeCfg var k b l).delivered = s.delivered := rfl

@[simp] theorem State.accepted_params (s : State) (p : Nat) (r : Request) (prog : Program) :
    (s.accepted p r prog).params = s.params := rfl
@[simp] theorem State.accepted_cfg (s : State) (p : Nat) (r : Request) (prog : Program) :
    (s.accepted p r prog).cfg = s.cfg := rfl
@[simp] theorem State.accepted_pw (s : State) (p : Nat) (r : Request) (prog : Program) :
    (s.accepted p r prog).pw = s.pw := rfl
@[simp] theorem State.accepted_po (s : State) (p : Nat) (r : Request) (prog : Program) :
    (s.accepted p r prog).po = s.po := rfl
@[simp] theorem State.accepted_count (s : State) (p : Nat) (r : Request) (prog : Program) :
    (s.accepted p r prog).count = s.count := rfl
@[simp] theorem State.accepted_arr (s : State) (p : Nat) (r : Request) (prog : Program) :
    (s.accepted p r prog).arr = s.arr := rfl
@[simp] theorem State.accepted_ports (s : State) (p : Nat) (r : Request) (prog : Program) :
    (s.accepted p r prog).ports = s.ports.set p (.busy (startFlight r prog)) := rfl
@[simp] theorem State.accepted_faults (s : State) (p : Nat) (r : Request) (prog : Program) :
    (s.accepted p r prog).faults = s.faults.union (overlapFaults s r) := rfl
@[simp] theorem State.accepted_sched (s : State) (p : Nat) (r : Request) (prog : Program) :
    (s.accepted p r prog).sched = s.sched := rfl
@[simp] theorem State.accepted_grant (s : State) (p : Nat) (r : Request) (prog : Program) :
    (s.accepted p r prog).grant = s.grant := rfl
@[simp] theorem State.accepted_delivered (s : State) (p : Nat) (r : Request) (prog : Program) :
    (s.accepted p r prog).delivered = s.delivered := rfl

@[simp] theorem State.presentNext_sched (s : State) (r : Request) : (s.presentNext r).sched = .command 0 r :: s.sched := rfl
@[simp] theorem State.presentNext_params (s : State) (r : Request) : (s.presentNext r).params = s.params := rfl
@[simp] theorem State.presentNext_cfg (s : State) (r : Request) : (s.presentNext r).cfg = s.cfg := rfl
@[simp] theorem State.presentNext_pw (s : State) (r : Request) : (s.presentNext r).pw = s.pw := rfl
@[simp] theorem State.presentNext_po (s : State) (r : Request) : (s.presentNext r).po = s.po := rfl
@[simp] theorem State.presentNext_count (s : State) (r : Request) : (s.presentNext r).count = s.count := rfl
@[simp] theorem State.presentNext_arr (s : State) (r : Request) : (s.presentNext r).arr = s.arr := rfl
@[simp] theorem State.presentNext_ports (s : State) (r : Request) : (s.presentNext r).ports = s.ports := rfl
@[simp] theorem State.presentNext_faults (s : State) (r : Request) : (s.presentNext r).faults = s.faults := rfl
@[simp] theorem State.presentNext_grant (s : State) (r : Request) : (s.presentNext r).grant = s.grant := rfl
@[simp] theorem State.presentNext_delivered (s : State) (r : Request) : (s.presentNext r).delivered = s.delivered := rfl

end Sys2Proof.Machine
end

