-- ==== Sys2Proof/Laws/Cells.lean ====
section
/-! SUPPORT. Sparse storage: read after write, and the canonical form every write keeps. -/

namespace Sys2Proof.Machine

variable {w : Nat}

theorem cellGet_erase (c : List (Nat × BitVec w)) (a b : Nat) :
    cellGet (cellErase c a) b = if b = a then unlisted w else cellGet c b := by
  induction c with
  | nil => simp [cellErase, cellGet]
  | cons x t ih =>
    obtain ⟨k, v⟩ := x
    by_cases hk : k = a
    · subst hk
      rw [cellErase, if_pos rfl, ih, cellGet]
      by_cases hb : b = k
      · simp [hb]
      · simp [hb, Ne.symm hb]
    · simp only [cellErase, if_neg hk, cellGet, ih]
      by_cases hb : k = b
      · subst hb; simp [hk]
      · simp [hb]

theorem cellGet_insert (c : List (Nat × BitVec w)) (a b : Nat) (v : BitVec w) (h : ∀ x ∈ c, x.1 ≠ a) :
    cellGet (cellInsert c a v) b = if b = a then v else cellGet c b := by
  induction c with
  | nil => simp [cellInsert, cellGet, eq_comm]
  | cons x t ih =>
    obtain ⟨k, y⟩ := x
    have hk : k ≠ a := h (k, y) (by simp)
    have ht := ih fun x hx => h x (by simp [hx])
    by_cases hlt : a < k
    · simp [cellInsert, hlt, cellGet, eq_comm]
    · simp only [cellInsert, if_neg hlt, cellGet, ht]
      by_cases hb : k = b
      · subst hb; simp [hk]
      · simp [hb]

theorem mem_cellErase {c : List (Nat × BitVec w)} {a : Nat} {x : Nat × BitVec w} :
    x ∈ cellErase c a ↔ x ∈ c ∧ x.1 ≠ a := by
  induction c with
  | nil => simp [cellErase]
  | cons y t ih =>
    obtain ⟨k, z⟩ := y
    by_cases hk : k = a
    · simp only [cellErase, if_pos hk, ih, List.mem_cons]
      constructor
      · rintro ⟨h1, h2⟩; exact ⟨.inr h1, h2⟩
      · rintro ⟨rfl | h1, h2⟩
        · exact absurd hk h2
        · exact ⟨h1, h2⟩
    · simp only [cellErase, if_neg hk, ih, List.mem_cons]
      constructor
      · rintro (rfl | ⟨h1, h2⟩)
        · exact ⟨.inl rfl, hk⟩
        · exact ⟨.inr h1, h2⟩
      · rintro ⟨rfl | h1, h2⟩
        · exact .inl rfl
        · exact .inr ⟨h1, h2⟩

theorem mem_cellInsert {c : List (Nat × BitVec w)} {a : Nat} {v : BitVec w} {x : Nat × BitVec w} :
    x ∈ cellInsert c a v ↔ x = (a, v) ∨ x ∈ c := by
  induction c with
  | nil => simp [cellInsert]
  | cons y t ih =>
    by_cases hlt : a < y.1
    · simp [cellInsert, hlt]
    · simp only [cellInsert, if_neg hlt, List.mem_cons, ih]; tauto

/-- A read after a write: the value written at its key, every other key as before. -/
theorem cellGet_put (c : List (Nat × BitVec w)) (a b : Nat) (v : BitVec w) :
    cellGet (cellPut c a v) b = if b = a then v else cellGet c b := by
  unfold cellPut
  by_cases hv : v = unlisted w
  · rw [if_pos hv, cellGet_erase, hv]
  · rw [if_neg hv, cellGet_insert _ _ _ _ fun x hx => (mem_cellErase.1 hx).2, cellGet_erase]
    by_cases hb : b = a <;> simp [hb]

@[simp] theorem cellGet_put_self (c : List (Nat × BitVec w)) (a : Nat) (v : BitVec w) :
    cellGet (cellPut c a v) a = v := by simp [cellGet_put]

theorem cellGet_put_ne (c : List (Nat × BitVec w)) {a b : Nat} (v : BitVec w) (h : b ≠ a) :
    cellGet (cellPut c a v) b = cellGet c b := by simp [cellGet_put, h]

theorem cellsWf_iff {c : List (Nat × BitVec w)} :
    cellsWf c = true ↔ (c.map Prod.fst).Pairwise (· < ·) ∧ ∀ x ∈ c, x.2 ≠ unlisted w := by
  induction c with
  | nil => simp [cellsWf]
  | cons x t ih =>
    obtain ⟨k, v⟩ := x
    simp only [cellsWf, Bool.and_eq_true, ih, bne_iff_ne, List.all_eq_true, decide_eq_true_eq, List.map_cons,
      List.pairwise_cons, List.mem_map, List.mem_cons, forall_eq_or_imp]
    constructor
    · rintro ⟨⟨h1, h2⟩, h3, h4⟩
      exact ⟨⟨by rintro _ ⟨y, hy, rfl⟩; exact h2 y hy, h3⟩, h1, h4⟩
    · rintro ⟨⟨h2, h3⟩, h1, h4⟩
      exact ⟨⟨h1, fun y hy => h2 _ ⟨y, hy, rfl⟩⟩, h3, h4⟩

theorem cellErase_sublist (c : List (Nat × BitVec w)) (a : Nat) : (cellErase c a).Sublist c := by
  induction c with
  | nil => exact .slnil
  | cons x t ih =>
    obtain ⟨k, v⟩ := x
    by_cases hk : k = a
    · simpa [cellErase, hk] using ih.cons _
    · simpa [cellErase, hk] using ih

theorem pairwise_cellInsert {c : List (Nat × BitVec w)} {a : Nat} {v : BitVec w}
    (h : (c.map Prod.fst).Pairwise (· < ·)) (ha : ∀ x ∈ c, x.1 ≠ a) :
    ((cellInsert c a v).map Prod.fst).Pairwise (· < ·) := by
  induction c with
  | nil => simp [cellInsert]
  | cons x t ih =>
    obtain ⟨k, y⟩ := x
    rw [List.map_cons, List.pairwise_cons] at h
    by_cases hlt : a < k
    · simp only [cellInsert, if_pos hlt, List.map_cons, List.pairwise_cons, List.mem_cons, forall_eq_or_imp]
      exact ⟨⟨hlt, fun b hb => hlt.trans (h.1 b hb)⟩, h.1, h.2⟩
    · have hne : k ≠ a := ha (k, y) (by simp)
      simp only [cellInsert, if_neg hlt, List.map_cons, List.pairwise_cons, List.mem_map]
      refine ⟨?_, ih h.2 fun x hx => ha x (by simp [hx])⟩
      rintro _ ⟨z, hz, rfl⟩
      rcases mem_cellInsert.1 hz with rfl | hz
      · simp only; omega
      · exact h.1 _ (List.mem_map.2 ⟨z, hz, rfl⟩)

/-- A write keeps the canonical form. -/
theorem cellsWf_put {c : List (Nat × BitVec w)} (h : cellsWf c = true) (a : Nat) (v : BitVec w) :
    cellsWf (cellPut c a v) = true := by
  rw [cellsWf_iff] at h ⊢
  have herase : ((cellErase c a).map Prod.fst).Pairwise (· < ·) := h.1.sublist ((cellErase_sublist c a).map _)
  unfold cellPut
  by_cases hv : v = unlisted w
  · rw [if_pos hv]
    exact ⟨herase, fun x hx => h.2 x (mem_cellErase.1 hx).1⟩
  · rw [if_neg hv]
    refine ⟨pairwise_cellInsert herase fun x hx => (mem_cellErase.1 hx).2, fun x hx => ?_⟩
    rcases mem_cellInsert.1 hx with rfl | hx
    · exact hv
    · exact h.2 x (mem_cellErase.1 hx).1

theorem cellsBelow_iff {n : Nat} {c : List (Nat × BitVec w)} : cellsBelow n c = true ↔ ∀ x ∈ c, x.1 < n := by
  simp [cellsBelow]

/-- A write below the bound keeps every key below it. -/
theorem cellsBelow_put {n : Nat} {c : List (Nat × BitVec w)} (h : cellsBelow n c = true) {a : Nat} (ha : a < n)
    (v : BitVec w) : cellsBelow n (cellPut c a v) = true := by
  rw [cellsBelow_iff] at h ⊢
  intro x hx
  unfold cellPut at hx
  split at hx
  · exact h x (mem_cellErase.1 hx).1
  · rcases mem_cellInsert.1 hx with rfl | hx
    · exact ha
    · exact h x (mem_cellErase.1 hx).1

/-- In canonical form equal contents are equal lists. -/
theorem cells_ext {c d : List (Nat × BitVec w)} (hc : cellsWf c = true) (hd : cellsWf d = true)
    (h : ∀ a, cellGet c a = cellGet d a) : c = d := by
  have get_of_mem : ∀ {l : List (Nat × BitVec w)}, (l.map Prod.fst).Pairwise (· < ·) → ∀ x ∈ l,
      cellGet l x.1 = x.2 := by
    intro l
    induction l with
    | nil => simp
    | cons y t ih =>
      intro hp x hx
      rw [List.map_cons, List.pairwise_cons] at hp
      rcases List.mem_cons.1 hx with rfl | hx
      · simp [cellGet]
      · have : y.1 ≠ x.1 := (hp.1 _ (List.mem_map.2 ⟨x, hx, rfl⟩)).ne
        simpa [cellGet, this] using ih hp.2 x hx
  have mem_of_get : ∀ {l : List (Nat × BitVec w)} {a : Nat}, cellGet l a ≠ unlisted w → (a, cellGet l a) ∈ l := by
    intro l a
    induction l with
    | nil => simp [cellGet]
    | cons y t ih =>
      intro hne
      by_cases hy : y.1 = a
      · subst hy; simp [cellGet]
      · simp only [cellGet, if_neg hy] at hne ⊢
        exact List.mem_cons_of_mem _ (ih hne)
  rw [cellsWf_iff] at hc hd
  have sub : ∀ {l m : List (Nat × BitVec w)}, (l.map Prod.fst).Pairwise (· < ·) → (∀ x ∈ l, x.2 ≠ unlisted w) →
      (∀ a, cellGet l a = cellGet m a) → ∀ x ∈ l, x ∈ m := by
    intro l m hp hz he x hx
    have hg := get_of_mem hp x hx
    have := mem_of_get (l := m) (a := x.1) (by rw [← he, hg]; exact hz x hx)
    rwa [← he, hg] at this
  have srt : ∀ {l : List (Nat × BitVec w)}, (l.map Prod.fst).Pairwise (· < ·) →
      l.Pairwise fun x y => x.1 < y.1 := by
    intro l hp; exact List.pairwise_map.1 hp
  have hperm : c.Perm d := by
    refine (List.perm_ext_iff_of_nodup ?_ ?_).2 fun x => ⟨sub hc.1 hc.2 h x, sub hd.1 hd.2 (fun a => (h a).symm) x⟩
    · exact (srt hc.1).imp fun hlt he => by rw [he] at hlt; exact lt_irrefl _ hlt
    · exact (srt hd.1).imp fun hlt he => by rw [he] at hlt; exact lt_irrefl _ hlt
  refine List.Perm.eq_of_pairwise ?_ (srt hc.1) (srt hd.1) hperm
  intro a b _ _ h1 h2
  exact absurd h1 (not_lt.2 h2.le)

end Sys2Proof.Machine
end

