-- ==== Sys2Proof/Laws/Words.lean ====
section
/-! SUPPORT. Array words over the byte view of R63: read after write, the canonical form and the bounds, and the counters. -/

namespace Sys2Proof.Machine

theorem getLsbD_wordOfBytes (b0 b1 b2 b3 b4 b5 b6 b7 : Byte) (i : Nat) :
    (wordOfBytes b0 b1 b2 b3 b4 b5 b6 b7).getLsbD i =
      if i < 8 then b0.getLsbD i else if i < 16 then b1.getLsbD (i - 8) else if i < 24 then b2.getLsbD (i - 16)
      else if i < 32 then b3.getLsbD (i - 24) else if i < 40 then b4.getLsbD (i - 32)
      else if i < 48 then b5.getLsbD (i - 40) else if i < 56 then b6.getLsbD (i - 48)
      else b7.getLsbD (i - 56) := by
  simp only [wordOfBytes, BitVec.getLsbD_append]
  repeat' split
  all_goals first | rfl | omega

theorem getLsbD_byteOfWord (v : Word) (j i : Nat) :
    (byteOfWord v j).getLsbD i = (decide (i < 8) && v.getLsbD (8 * j + i)) := by
  simp [byteOfWord, BitVec.getLsbD_extractLsb']

/-- A word is the word of its bytes. -/
theorem wordOfBytes_byteOfWord (v : Word) :
    wordOfBytes (byteOfWord v 0) (byteOfWord v 1) (byteOfWord v 2) (byteOfWord v 3) (byteOfWord v 4)
      (byteOfWord v 5) (byteOfWord v 6) (byteOfWord v 7) = v := by
  apply BitVec.eq_of_getLsbD_eq
  intro i hi
  simp only [getLsbD_wordOfBytes, getLsbD_byteOfWord]
  repeat' split
  all_goals
    rw [decide_eq_true (by omega), Bool.true_and]
    congr 1; omega

/-- Byte `j` of the word of eight bytes is the byte at place `j`. -/
theorem byteOfWord_wordOfBytes (b : Nat → Byte) (j : Nat) (hj : j < 8) :
    byteOfWord (wordOfBytes (b 0) (b 1) (b 2) (b 3) (b 4) (b 5) (b 6) (b 7)) j = b j := by
  apply BitVec.eq_of_getLsbD_eq
  intro i hi
  rw [getLsbD_byteOfWord, decide_eq_true hi, Bool.true_and, getLsbD_wordOfBytes]
  interval_cases j
  all_goals
    repeat' split
  all_goals first | omega | (congr 1; omega)

theorem cellGet_storeBytes (m : List Host.Cell) (a : Nat) (v : Word) (n b : Nat) :
    cellGet (storeBytes m a v n) b = if a ≤ b ∧ b < a + n then byteOfWord v (b - a) else cellGet m b := by
  induction n with
  | zero => rw [storeBytes, if_neg (by omega)]
  | succ n ih =>
    rw [storeBytes, cellGet_put, ih]
    by_cases hb : b = a + n
    · rw [if_pos hb, if_pos (by omega), hb, Nat.add_sub_cancel_left]
    · rw [if_neg hb]
      by_cases h1 : a ≤ b ∧ b < a + n
      · rw [if_pos h1, if_pos (by omega)]
      · rw [if_neg h1, if_neg (by omega)]

/-- Byte `g*8 + j` of the image view is bits `[8j+7 : 8j]` of word `g` (R63). -/
theorem byteOfWord_loadWord (m : List Host.Cell) (g j : Nat) (hj : j < 8) :
    byteOfWord (loadWord m g) j = cellGet m (g * 8 + j) := by
  have := byteOfWord_wordOfBytes (fun i => cellGet m (g * 8 + i)) j hj
  simpa [loadWord] using this

/-- A load after a store: the word stored at its index, every other word as before. -/
theorem loadWord_storeWord (m : List Host.Cell) (g h : Nat) (v : Word) :
    loadWord (storeWord m g v) h = if h = g then v else loadWord m h := by
  by_cases hg : h = g
  · subst hg
    rw [if_pos rfl]
    conv => rhs; rw [← wordOfBytes_byteOfWord v]
    simp only [loadWord, storeWord, cellGet_storeBytes]
    congr 1
    all_goals
      rw [if_pos (by omega)]
      congr 1; omega
  · rw [if_neg hg]
    simp only [loadWord, storeWord, cellGet_storeBytes]
    congr 1
    all_goals
      rw [if_neg (by omega)]

theorem State.word_putWord (s : State) (g h : Nat) (v : Word) :
    (s.putWord g v).word h = if h = g then v else s.word h :=
  loadWord_storeWord s.arr g h v

@[simp] theorem State.word_putWord_self (s : State) (g : Nat) (v : Word) : (s.putWord g v).word g = v := by
  simp [State.word_putWord]

/-- A store changes the eight bytes of its word and no other byte. -/
theorem State.byte_putWord (s : State) (g : Nat) (v : Word) (a : Nat) :
    (s.putWord g v).byte a = if g * 8 ≤ a ∧ a < g * 8 + 8 then byteOfWord v (a - g * 8) else s.byte a :=
  cellGet_storeBytes s.arr (g * 8) v 8 a

theorem State.counter_putCounter (s : State) (i j : Nat) (v : BitVec 64) :
    (s.putCounter i v).counter j = if j = i then v else s.counter j :=
  cellGet_put s.count i j v

@[simp] theorem State.counter_putWord (s : State) (g i : Nat) (v : Word) : (s.putWord g v).counter i = s.counter i := rfl

@[simp] theorem State.word_putCounter (s : State) (i g : Nat) (v : BitVec 64) : (s.putCounter i v).word g = s.word g := rfl

@[simp] theorem State.byte_putCounter (s : State) (i a : Nat) (v : BitVec 64) : (s.putCounter i v).byte a = s.byte a := rfl

theorem storeBytes_wf {m : List Host.Cell} (h : Memory.wf m = true) (a : Nat) (v : Word) (n : Nat) :
    Memory.wf (storeBytes m a v n) = true := by
  induction n with
  | zero => exact h
  | succ n ih => exact cellsWf_put ih _ _

/-- Every word write keeps the canonical form of memory. -/
theorem storeWord_wf {m : List Host.Cell} (h : Memory.wf m = true) (g : Nat) (v : Word) :
    Memory.wf (storeWord m g v) = true := storeBytes_wf h _ _ _

theorem storeBytes_below {m : List Host.Cell} {n : Nat} (h : cellsBelow n m = true) (a : Nat) (v : Word) (k : Nat)
    (hk : a + k ≤ n) : cellsBelow n (storeBytes m a v k) = true := by
  induction k with
  | zero => exact h
  | succ k ih => exact cellsBelow_put (ih (by omega)) (by omega) _

/-- A write to a word below `n` keeps every byte address below `n * 8`. -/
theorem storeWord_below {m : List Host.Cell} {n : Nat} (h : cellsBelow (n * 8) m = true) {g : Nat} (hg : g < n)
    (v : Word) : cellsBelow (n * 8) (storeWord m g v) = true :=
  storeBytes_below h _ _ _ (by omega)

/-- The memory of the state after reset is in canonical form. -/
theorem reset_memory_wf : Memory.wf State.reset.arr = true := rfl

end Sys2Proof.Machine
end

