-- ==== Sys2Proof/Laws/Run.lean ====
section
/-! SUPPORT. What performing events, tasks and lists of tasks does: the effect of legal tasks as a plain function, and what it leaves unchanged. -/

namespace Sys2Proof.Machine

/-- The state a task with its follow-up leaves, where its words and counters exist. -/
def Task.effect (s : State) : Task → State
  | .probe _ _ => s
  | .setBit g m => s.putWord g (s.word g ||| m)
  | .rmwLoad g m => s.putWord g (s.word g ||| m)
  | .rmwStore g v => s.putWord g v
  | .inc i => s.putCounter i (s.counter i + 1)
  | .countOnes _ => s
  | .addCount _ => s
  | .readWord _ => s
  | .storeWord g v => s.putWord g v
  | .storeCount i v => s.putCounter i v
  | .writeCfg var k b log2n => s.writeCfg var k b log2n

/-- The record a task with its follow-up leaves, newest first. -/
def Task.records (s : State) : Task → List Done
  | .probe g m => [⟨.probe g m, s.word g⟩]
  | .setBit g m => [⟨.setBit g m, 0⟩]
  | .rmwLoad g m => [⟨.rmwStore g (s.word g ||| m), 0⟩, ⟨.rmwLoad g m, s.word g⟩]
  | .rmwStore g v => [⟨.rmwStore g v, 0⟩]
  | .inc i => [⟨.inc i, 0⟩]
  | .countOnes g => [⟨.countOnes g, s.word g⟩]
  | .addCount i => [⟨.addCount i, s.counter i⟩]
  | .readWord g => [⟨.readWord g, s.word g⟩]
  | .storeWord g v => [⟨.storeWord g v, 0⟩]
  | .storeCount i v => [⟨.storeCount i v, 0⟩]
  | .writeCfg var k b log2n => [⟨.writeCfg var k b log2n, 0⟩]

/-- The state a list of tasks leaves. -/
def tasksEffect (s : State) (l : List Task) : State := l.foldl Task.effect s

/-- The record a list of tasks leaves. -/
def tasksRecords (s : State) : List Task → List Done → List Done
  | [], d => d
  | t :: l, d => tasksRecords (t.effect s) l (t.records s ++ d)

@[simp] theorem tasksEffect_nil (s : State) : tasksEffect s [] = s := rfl
@[simp] theorem tasksEffect_cons (s : State) (t : Task) (l : List Task) :
    tasksEffect s (t :: l) = tasksEffect (t.effect s) l := rfl
theorem tasksEffect_append (s : State) (l m : List Task) :
    tasksEffect s (l ++ m) = tasksEffect (tasksEffect s l) m := List.foldl_append
@[simp] theorem tasksRecords_nil (s : State) (d : List Done) : tasksRecords s [] d = d := rfl
@[simp] theorem tasksRecords_cons (s : State) (t : Task) (l : List Task) (d : List Done) :
    tasksRecords s (t :: l) d = tasksRecords (t.effect s) l (t.records s ++ d) := rfl

/-! ## What a task leaves unchanged -/

@[simp] theorem Task.effect_params (s : State) (t : Task) : (t.effect s).params = s.params := by cases t <;> rfl
@[simp] theorem Task.effect_ports (s : State) (t : Task) : (t.effect s).ports = s.ports := by cases t <;> rfl
@[simp] theorem Task.effect_faults (s : State) (t : Task) : (t.effect s).faults = s.faults := by cases t <;> rfl
@[simp] theorem Task.effect_sched (s : State) (t : Task) : (t.effect s).sched = s.sched := by cases t <;> rfl
@[simp] theorem Task.effect_grant (s : State) (t : Task) : (t.effect s).grant = s.grant := by cases t <;> rfl
@[simp] theorem Task.effect_delivered (s : State) (t : Task) : (t.effect s).delivered = s.delivered := by
  cases t <;> rfl

/-- Only `writeCfg` changes the configuration and partition registers. -/
theorem Task.effect_cfg {t : Task} (h : ∀ var k b l, t ≠ .writeCfg var k b l) (s : State) :
    (t.effect s).cfg = s.cfg ∧ (t.effect s).pw = s.pw ∧ (t.effect s).po = s.po := by
  cases t <;> first | exact ⟨rfl, rfl, rfl⟩ | exact absurd rfl (h _ _ _ _)

theorem tasksEffect_params (s : State) (l : List Task) : (tasksEffect s l).params = s.params := by
  induction l generalizing s with
  | nil => rfl
  | cons t l ih => simp [ih]

theorem tasksEffect_ports (s : State) (l : List Task) : (tasksEffect s l).ports = s.ports := by
  induction l generalizing s with
  | nil => rfl
  | cons t l ih => simp [ih]

theorem tasksEffect_faults (s : State) (l : List Task) : (tasksEffect s l).faults = s.faults := by
  induction l generalizing s with
  | nil => rfl
  | cons t l ih => simp [ih]

theorem tasksEffect_sched (s : State) (l : List Task) : (tasksEffect s l).sched = s.sched := by
  induction l generalizing s with
  | nil => rfl
  | cons t l ih => simp [ih]

theorem tasksEffect_grant (s : State) (l : List Task) : (tasksEffect s l).grant = s.grant := by
  induction l generalizing s with
  | nil => rfl
  | cons t l ih => simp [ih]

theorem tasksEffect_delivered (s : State) (l : List Task) : (tasksEffect s l).delivered = s.delivered := by
  induction l generalizing s with
  | nil => rfl
  | cons t l ih => simp [ih]

theorem tasksEffect_cfg {l : List Task} (h : ∀ t ∈ l, ∀ var k b l, t ≠ .writeCfg var k b l) (s : State) :
    (tasksEffect s l).cfg = s.cfg ∧ (tasksEffect s l).pw = s.pw ∧ (tasksEffect s l).po = s.po := by
  induction l generalizing s with
  | nil => exact ⟨rfl, rfl, rfl⟩
  | cons t l ih =>
    obtain ⟨h1, h2, h3⟩ := Task.effect_cfg (h t (by simp)) s
    obtain ⟨i1, i2, i3⟩ := ih (fun x hx => h x (by simp [hx])) (t.effect s)
    exact ⟨i1.trans h1, i2.trans h2, i3.trans h3⟩

/-! ## Legal tasks run -/

/-- An event on a word or counter that exists, or a configuration update, is performed. -/
theorem perform_of_legal {s : State} {e : Event} (h : EventLegal s.params e) : ∃ s' v, perform s e = .ok (s', v) := by
  cases e <;> simp only [EventLegal] at h <;> simp [perform, h]

/-- A legal task and its follow-up are performed, with the task's effect and record. -/
theorem runWithFollowUp_eq {s : State} {t : Task} (h : EventLegal s.params t.event) (d : List Done) :
    runWithFollowUp s t d = .ok (t.effect s, t.records s ++ d) := by
  cases t <;> simp only [Task.event, EventLegal] at h <;>
    simp [runWithFollowUp, runTask, perform, Task.event, Task.followUp, Task.effect, Task.records, h]

/-- Legal tasks are performed one after the other. -/
theorem runTasks_eq {s : State} {l : List Task} (h : ∀ t ∈ l, EventLegal s.params t.event) (d : List Done) :
    runTasks s l d = .ok (tasksEffect s l, tasksRecords s l d) := by
  induction l generalizing s d with
  | nil => rfl
  | cons t l ih =>
    rw [runTasks, runWithFollowUp_eq (h t (by simp))]
    exact ih (fun x hx => by simpa using h x (by simp [hx])) _

/-- A command whose tasks are legal responds on its port, after the effect of its parts. -/
theorem runCommand_eq {s : State} {prog : Program} (p : Nat) (h1 : ∀ t ∈ prog.first, EventLegal s.params t.event)
    (h2 : ∀ t ∈ prog.second, EventLegal s.params t.event) :
    runCommand p prog s =
      .next ((tasksEffect (tasksEffect s prog.first) (prog.rest (tasksRecords s prog.first []))).deliver p
        prog.status (prog.data (tasksRecords (tasksEffect s prog.first)
          (prog.rest (tasksRecords s prog.first [])) (tasksRecords s prog.first [])))) := by
  rw [runCommand, runTasks_eq h1]
  dsimp only
  rw [runTasks_eq]
  intro t ht
  rw [tasksEffect_params]
  unfold Program.rest at ht
  split at ht
  · cases ht
  · exact h2 t ht

/-- A command that can be accepted without a fault is run. -/
theorem serve_of_ready {s : State} {p : Nat} {r : Request} (prog : Program) (h1 : s.faults.stuck = none)
    (h2 : s.canAccept p = true) (h3 : (overlapFaults s r).stuck = none) :
    serve p r prog s = runCommand p prog s := by
  simp [serve, h1, h2, h3]

/-- Everything serving a request can do: stick, wait, record faults at the acceptance, or run. -/
theorem serve_cases (p : Nat) (r : Request) (prog : Program) (s : State) :
    (∃ e, s.faults.stuck = some e ∧ serve p r prog s = .fault e) ∨
    (s.faults.stuck = none ∧ s.canAccept p = false ∧ serve p r prog s = .next s) ∨
    (s.faults.stuck = none ∧ s.canAccept p = true ∧ (overlapFaults s r).stuck ≠ none ∧
      serve p r prog s = .next (s.accepted p r prog)) ∨
    (s.faults.stuck = none ∧ s.canAccept p = true ∧ (overlapFaults s r).stuck = none ∧
      serve p r prog s = runCommand p prog s) := by
  unfold serve
  rcases hs : s.faults.stuck with _ | e
  · rcases hc : s.canAccept p with _ | _
    · simp
    · rcases ho : (overlapFaults s r).stuck with _ | e <;> simp
  · simp

/-! ## Reading tasks -/

/-- The task only reads. -/
def Task.reads : Task → Bool
  | .probe _ _ => true
  | .countOnes _ => true
  | .addCount _ => true
  | .readWord _ => true
  | _ => false

theorem Task.effect_of_reads {t : Task} (h : t.reads = true) (s : State) : t.effect s = s := by
  cases t <;> first | rfl | cases h

theorem tasksEffect_of_reads {l : List Task} (h : ∀ t ∈ l, t.reads = true) (s : State) : tasksEffect s l = s := by
  induction l with
  | nil => rfl
  | cons t l ih =>
    rw [tasksEffect_cons, Task.effect_of_reads (h t (by simp)), ih fun x hx => h x (by simp [hx])]

theorem tasksRecords_of_reads {l : List Task} (h : ∀ t ∈ l, t.reads = true) (s : State) (d : List Done) :
    tasksRecords s l d = (l.flatMap (Task.records s)).reverse ++ d := by
  induction l generalizing d with
  | nil => rfl
  | cons t l ih =>
    have ht := h t (by simp)
    rw [tasksRecords_cons, Task.effect_of_reads ht, ih fun x hx => h x (by simp [hx])]
    have : (t.records s).reverse = t.records s := by cases t <;> first | rfl | cases ht
    simp [List.flatMap_cons, this]

/-! ## Words and counters under a task -/

theorem Task.effect_word (s : State) (t : Task) (g : Nat) :
    (t.effect s).word g = match t with
      | .setBit h m => if g = h then s.word h ||| m else s.word g
      | .rmwLoad h m => if g = h then s.word h ||| m else s.word g
      | .rmwStore h v => if g = h then v else s.word g
      | .storeWord h v => if g = h then v else s.word g
      | _ => s.word g := by
  cases t with
  | setBit h m => exact State.word_putWord s h g _
  | rmwLoad h m => exact State.word_putWord s h g _
  | rmwStore h v => exact State.word_putWord s h g v
  | storeWord h v => exact State.word_putWord s h g v
  | probe | inc | countOnes | addCount | readWord | storeCount | writeCfg => rfl

theorem Task.effect_counter (s : State) (t : Task) (i : Nat) :
    (t.effect s).counter i = match t with
      | .inc j => if i = j then s.counter j + 1 else s.counter i
      | .storeCount j v => if i = j then v else s.counter i
      | _ => s.counter i := by
  cases t with
  | inc j => exact State.counter_putCounter s j i _
  | storeCount j v => exact State.counter_putCounter s j i v
  | setBit | rmwLoad | rmwStore | storeWord | probe | countOnes | addCount | readWord | writeCfg => rfl

/-- The task sets bits and nothing else: an OR, plain or atomic. -/
def Task.orMask : Task → Option (Nat × Word)
  | .setBit g m => some (g, m)
  | .rmwLoad g m => some (g, m)
  | _ => none

theorem Task.effect_word_or {t : Task} {g : Nat} {m : Word} (h : t.orMask = some (g, m)) (s : State) (x : Nat) :
    (t.effect s).word x = if x = g then s.word g ||| m else s.word x := by
  cases t <;> simp only [Task.orMask, Option.some.injEq, Prod.mk.injEq, reduceCtorEq] at h <;>
    (obtain ⟨rfl, rfl⟩ := h; exact Task.effect_word s _ x)

/-- A list of ORs sets, in each word, the bits of its masks there, and no other bit. -/
theorem tasksEffect_word_or {l : List Task} (h : ∀ t ∈ l, t.orMask ≠ none) (s : State) (x j : Nat) :
    ((tasksEffect s l).word x).getLsbD j = true ↔
      (s.word x).getLsbD j = true ∨ ∃ t ∈ l, ∃ m, t.orMask = some (x, m) ∧ m.getLsbD j = true := by
  induction l generalizing s with
  | nil => simp
  | cons t l ih =>
    obtain ⟨⟨g, m⟩, hg⟩ := Option.ne_none_iff_exists'.1 (h t (by simp))
    rw [tasksEffect_cons, ih fun y hy => h y (by simp [hy]), Task.effect_word_or hg]
    by_cases hx : x = g
    · subst hx
      simp only [if_pos, BitVec.getLsbD_or, Bool.or_eq_true, List.mem_cons, exists_eq_or_imp, hg, Option.some.injEq,
        Prod.mk.injEq, true_and, exists_eq_left']
      tauto
    · simp only [if_neg hx, List.mem_cons, exists_eq_or_imp, hg, Option.some.injEq, Prod.mk.injEq]
      have : ¬ ∃ n, (g = x ∧ m = n) ∧ n.getLsbD j = true := by rintro ⟨_, ⟨rfl, _⟩, _⟩; exact hx rfl
      tauto

theorem tasksEffect_counter_or {l : List Task} (h : ∀ t ∈ l, t.orMask ≠ none) (s : State) (i : Nat) :
    (tasksEffect s l).counter i = s.counter i := by
  induction l generalizing s with
  | nil => rfl
  | cons t l ih =>
    have ht := h t (by simp)
    rw [tasksEffect_cons, ih fun y hy => h y (by simp [hy]), Task.effect_counter]
    cases t <;> first | rfl | exact absurd rfl ht

/-- The zero-stores of CLEAR and CONFIG: words and counters below the bounds are 0, the others as before. -/
theorem tasksEffect_zero (s : State) (words shards : Nat) :
    (∀ g, (tasksEffect s (zeroTasks words shards)).word g = if g < words then 0 else s.word g) ∧
    (∀ i, (tasksEffect s (zeroTasks words shards)).counter i = if i < shards then 0 else s.counter i) := by
  have hw : ∀ (n : Nat) (s : State),
      (∀ g, (tasksEffect s ((List.range n).map fun g => Task.storeWord g 0)).word g = if g < n then 0 else s.word g) ∧
      ∀ i, (tasksEffect s ((List.range n).map fun g => Task.storeWord g 0)).counter i = s.counter i := by
    intro n
    induction n with
    | zero => intro s; simp
    | succ n ih =>
      intro s
      simp only [List.range_succ, List.map_append, List.map_cons, List.map_nil, tasksEffect_append, tasksEffect_cons,
        tasksEffect_nil, Task.effect_word, Task.effect_counter]
      refine ⟨fun g => ?_, fun i => (ih s).2 i⟩
      rw [(ih s).1]
      by_cases hg : g = n
      · simp [hg]
      · rw [if_neg hg]; congr 1; apply propext; omega
  have hc : ∀ (n : Nat) (s : State),
      (∀ g, (tasksEffect s ((List.range n).map fun i => Task.storeCount i 0)).word g = s.word g) ∧
      ∀ i, (tasksEffect s ((List.range n).map fun i => Task.storeCount i 0)).counter i =
        if i < n then 0 else s.counter i := by
    intro n
    induction n with
    | zero => intro s; simp
    | succ n ih =>
      intro s
      simp only [List.range_succ, List.map_append, List.map_cons, List.map_nil, tasksEffect_append, tasksEffect_cons,
        tasksEffect_nil, Task.effect_word, Task.effect_counter]
      refine ⟨fun g => (ih s).1 g, fun i => ?_⟩
      rw [(ih s).2]
      by_cases hi : i = n
      · simp [hi]
      · rw [if_neg hi]; congr 1; apply propext; omega
  rw [zeroTasks, tasksEffect_append]
  exact ⟨fun g => by rw [(hc _ _).1, (hw _ _).1], fun i => by rw [(hc _ _).2, (hw _ _).2]⟩

end Sys2Proof.Machine
end

