-- ==== Sys2Proof/Laws/Datapath.lean ====
section
/-! SUPPORT. The datapath in a legal configuration: the table's row, the partition registers, and the word a probe names. -/

namespace Sys2Proof.Machine

/-- The row of the table for a supported k is legal. -/
theorem row_legal {p : Params} (hp : p.Legal) {k : Nat} (h3 : 3 ≤ k) (h14 : k ≤ 14) :
    RowLegal k (p.table.getD (k - 3) []) := by
  have := hp.rows (k - 3) (by omega)
  rwa [Nat.sub_add_cancel h3] at this

/-- The lookup of a supported k finds the row (R145). -/
theorem tableRow_eq {p : Params} (hp : p.Legal) {k : Nat} (h3 : 3 ≤ k) (h14 : k ≤ 14) :
    tableRow p k = some (p.table.getD (k - 3) []) := by
  have hl : k - 3 < p.table.length := by rw [hp.table_length]; omega
  rw [tableRow, if_pos ⟨h3, h14⟩, List.getD_eq_getElem?_getD, List.getElem?_eq_getElem hl]
  rfl

/-- A prefix of widths is at most the whole sum. -/
theorem sum_take_le (l : List Nat) (i : Nat) : (l.take i).sum ≤ l.sum := by
  have h := congrArg List.sum (List.take_append_drop i l)
  rw [List.sum_append] at h
  omega

/-- The next prefix sum adds the next width (R148). -/
theorem sum_take_succ (l : List Nat) (i : Nat) : (l.take (i + 1)).sum = (l.take i).sum + l.getD i 0 := by
  by_cases h : i < l.length
  · rw [List.take_add_one, List.sum_append, List.getD_eq_getElem?_getD, List.getElem?_eq_getElem h]; simp
  · rw [List.take_of_length_le (by omega), List.take_of_length_le (by omega), List.getD_eq_getElem?_getD,
      List.getElem?_eq_none (by omega)]; simp

theorem map_toNat_getD (row : List (BitVec 10)) (i : Nat) : (row.map BitVec.toNat).getD i 0 = (row.getD i 0).toNat := by
  rw [List.getD_eq_getElem?_getD, List.getD_eq_getElem?_getD, List.getElem?_map]
  cases row[i]? <;> rfl

/-- A shard's blocks are blocks in use. -/
theorem block_lt_total {c : Cfg} {shard block : Nat} (hsh : shard < c.shards) (hb : block < c.b.toNat) :
    shard * c.b.toNat + block < c.totalBlocks := by
  have : (shard + 1) * c.b.toNat ≤ c.shards * c.b.toNat := Nat.mul_le_mul_right _ hsh
  rw [Nat.add_mul, Nat.one_mul] at this
  unfold Cfg.totalBlocks
  omega

/-- A word of a shard is in use (R250). -/
theorem imageWord_lt {c : Cfg} {shard : BitVec 16} {widx : Word} (h1 : c.hasShard shard = true)
    (h2 : c.hasWord widx = true) : imageWord c shard widx < c.usedWords := by
  have h3 : shard.toNat < c.shards := by simpa [Cfg.hasShard] using h1
  have h4 : widx.toNat < c.b.toNat * 8 := by simpa [Cfg.hasWord] using h2
  have : (shard.toNat + 1) * c.b.toNat ≤ c.shards * c.b.toNat := Nat.mul_le_mul_right _ h3
  rw [Nat.add_mul, Nat.one_mul] at this
  unfold imageWord Cfg.usedWords Cfg.totalBlocks
  omega

section Configured

variable {s : State} (hs : StorageInv s) (hv : s.cfg.valid = true)
include hs hv

/-- The configuration of a configured legal state. -/
theorem config_legal : ConfigLegal s.params s.cfg.var s.cfg.k s.cfg.b s.cfg.log2n := (hs.configured hv).1

/-- The row in use is legal. -/
theorem cfg_row_legal : RowLegal s.cfg.k.toNat (s.params.table.getD (s.cfg.k.toNat - 3) []) :=
  row_legal hs.params (config_legal hs hv).k_ge (config_legal hs hv).k_le

/-- Offsets follow one another by the widths (R148). -/
theorem offset_succ {i : Nat} (hi : i + 1 < s.cfg.k.toNat) : s.offset (i + 1) = s.offset i + s.width i := by
  obtain ⟨hw, ho⟩ := (hs.configured hv).2 i (by omega)
  rw [((hs.configured hv).2 (i + 1) hi).2, ho, hw, List.map_take, List.map_take, sum_take_succ, map_toNat_getD]

/-- The last partition ends at bit 512 (R39). -/
theorem offset_last {i : Nat} (hi : i + 1 = s.cfg.k.toNat) : s.offset i + s.width i = 512 := by
  obtain ⟨hw, ho⟩ := (hs.configured hv).2 i (by omega)
  have hr := cfg_row_legal hs hv
  rw [ho, hw, List.map_take, ← map_toNat_getD, ← sum_take_succ, List.take_of_length_le, hr.sum_eq]
  rw [List.length_map, hr.length_eq]; omega

/-- Every partition ends within the block (R39). -/
theorem offset_add_width_le {i : Nat} (hi : i < s.cfg.k.toNat) : s.offset i + s.width i ≤ 512 := by
  obtain ⟨hw, ho⟩ := (hs.configured hv).2 i hi
  have hr := cfg_row_legal hs hv
  rw [ho, hw, List.map_take, ← map_toNat_getD, ← sum_take_succ, ← hr.sum_eq]
  exact sum_take_le _ _

/-- No width in use is zero (R39). -/
theorem width_pos {i : Nat} (hi : i < s.cfg.k.toNat) : 1 ≤ s.width i := by
  have hr := cfg_row_legal hs hv
  have hlt : i < (s.params.table.getD (s.cfg.k.toNat - 3) []).length := by rw [hr.length_eq]; exact hi
  rw [((hs.configured hv).2 i hi).1, List.getD_eq_getElem?_getD, List.getElem?_eq_getElem hlt]
  exact hr.positive _ (List.getElem_mem hlt)

/-- A probe position is within the block (R149). -/
theorem probePos_lt (x : Nat) {i : Nat} (hi : i < s.cfg.k.toNat) : probePos s x i < 512 := by
  have h1 := Nat.mod_lt x (width_pos hs hv hi)
  have h2 := offset_add_width_le hs hv hi
  unfold probePos
  omega

/-- The field split never leaves the configuration's shards and blocks (R144). -/
theorem hashFields_lt (h : Word) :
    (hashFields s.cfg h).shardIndex < s.cfg.shards ∧ (hashFields s.cfg h).blockIndex < s.cfg.b.toNat := by
  have hb := (config_legal hs hv).b_pos
  have hn : 0 < s.cfg.shards := Nat.pow_pos (by decide)
  unfold hashFields
  split
  · exact ⟨hn, Nat.mod_lt _ hb⟩
  · exact ⟨hn, Nat.mod_lt _ hb⟩
  · exact ⟨Nat.mod_lt _ hn, Nat.mod_lt _ hb⟩

/-- The blocks in use are within the storage (R35). -/
theorem totalBlocks_le : s.cfg.totalBlocks ≤ s.params.capBlocks := by
  have := (config_legal hs hv).fits
  rwa [Nat.mul_comm] at this

/-- The words in use exist (R41). -/
theorem usedWords_le : s.cfg.usedWords ≤ s.params.words :=
  Nat.mul_le_mul_right 8 (totalBlocks_le hs hv)

/-- The shards of the configuration have counters (R36, R40). -/
theorem shards_le : s.cfg.shards ≤ s.params.nmax :=
  Nat.pow_le_pow_right (by decide) (config_legal hs hv).log2n_le

/-- A probe's word is in use (R152). -/
theorem probeWord_lt (h : Word) {i : Nat} (hi : i < s.cfg.k.toNat) : probeWord s h i < s.cfg.usedWords := by
  obtain ⟨h1, h2⟩ := hashFields_lt hs hv h
  have h3 := block_lt_total h1 h2
  have h4 := probePos_lt hs hv (hashFields s.cfg h).intraHash hi
  unfold probeWord gword Cfg.usedWords
  dsimp only
  omega

end Configured

end Sys2Proof.Machine
end

