-- ==== Sys2Proof/Laws/Config.lean ====
section
/-! SUPPORT. What the `CfgWrite` event leaves in the partition registers (R38, R148), and when CONFIG's checks hold. -/

namespace Sys2Proof.Machine

theorem loadRow_getElem? (v : Vector (BitVec 10) 14) (row : List (BitVec 10)) {i : Nat} (hi : i < 14)
    (hr : i < row.length) : (loadRow v row)[i]?.getD 0 = row.getD i 0 := by
  rw [Vector.getElem?_eq_getElem hi, Option.getD_some, loadRow, Vector.getElem_ofFn,
    List.getElem?_eq_getElem (by simpa using hr), Option.getD_some, List.getD_eq_getElem?_getD,
    List.getElem?_eq_getElem hr, Option.getD_some]

theorem prefixSums_length (acc : BitVec 10) (row : List (BitVec 10)) : (prefixSums acc row).length = row.length := by
  induction row generalizing acc with
  | nil => rfl
  | cons w t ih => simp [prefixSums, ih]

/-- Entry `i` of the prefix sums is the sum of the widths before it, as long as the sum fits 10 bits (R148). -/
theorem prefixSums_getD (acc : BitVec 10) (row : List (BitVec 10)) {i : Nat} (hi : i < row.length)
    (h : acc.toNat + (row.map BitVec.toNat).sum < 1024) :
    ((prefixSums acc row).getD i 0).toNat = acc.toNat + ((row.take i).map BitVec.toNat).sum := by
  induction row generalizing acc i with
  | nil => cases hi
  | cons w t ih =>
    rw [List.map_cons, List.sum_cons] at h
    cases i with
    | zero => simp [prefixSums]
    | succ i =>
      have hw : (acc + w).toNat = acc.toNat + w.toNat := by
        rw [BitVec.toNat_add, Nat.mod_eq_of_lt (by omega)]
      have := ih (acc + w) (i := i) (by simpa using hi) (by omega)
      simp only [prefixSums, List.getD_cons_succ, this, hw, List.take_succ_cons, List.map_cons, List.sum_cons]
      omega

section WriteCfg

variable {s : State} {var : Variant} {k : BitVec 4} {b : Word} {l : BitVec 5}

/-- After `CfgWrite` with a supported k the partition registers hold the table's row and its prefix sums (R38). -/
theorem writeCfg_partitionLoaded (hp : s.params.Legal) (h3 : 3 ≤ k.toNat) (h14 : k.toNat ≤ 14) :
    PartitionLoaded (s.writeCfg var k b l) := by
  intro i hi
  have hi : i < k.toNat := hi
  have hr := row_legal hp h3 h14
  have htake : ((tableRow s.params k.toNat).getD []).take k.toNat = s.params.table.getD (k.toNat - 3) [] := by
    rw [tableRow_eq hp h3 h14, Option.getD_some, List.take_of_length_le (by rw [hr.length_eq])]
  have hlen : i < (s.params.table.getD (k.toNat - 3) []).length := by rw [hr.length_eq]; exact hi
  constructor
  · show (((loadRow s.pw (((tableRow s.params k.toNat).getD []).take k.toNat))[i]?).getD 0).toNat = _
    rw [htake, loadRow_getElem? _ _ (by omega) hlen]; rfl
  · show (((loadRow s.po (prefixSums 0 (((tableRow s.params k.toNat).getD []).take k.toNat)))[i]?).getD 0).toNat = _
    rw [htake, loadRow_getElem? _ _ (by omega) (by rw [prefixSums_length]; exact hlen),
      prefixSums_getD _ _ hlen (by rw [hr.sum_eq]; decide)]
    simp only [State.writeCfg_params, State.writeCfg_cfg]
    simp

/-- The configuration after `CfgWrite` is legal if its values are (R34 to R36). -/
theorem writeCfg_configuredLegal (hp : s.params.Legal) (h : ConfigLegal s.params var k b l) :
    ConfiguredLegal (s.writeCfg var k b l) :=
  fun _ => ⟨h, writeCfg_partitionLoaded hp h.k_ge h.k_le⟩

end WriteCfg

theorem correctK_range (k : BitVec 4) : 3 ≤ (correctK k).toNat ∧ (correctK k).toNat ≤ 14 := by
  unfold correctK
  split
  · assumption
  · decide

theorem correctB_pos (b : Word) : 1 ≤ (correctB b).toNat := by
  unfold correctB
  split
  · decide
  · rename_i h
    have : b.toNat ≠ 0 := fun h0 => h (BitVec.eq_of_toNat_eq (by simpa using h0))
    omega

theorem configFits_iff {p : Params} {var : Variant} {l : BitVec 5} {b : Word} :
    configFits p var l b = true ↔ (var = .sharded ∨ l = 0) ∧ l.toNat ≤ p.log2nmax ∧ b.toNat < 2 ^ 50 ∧
      b.toNat * 2 ^ l.toNat ≤ p.capBlocks := by
  simp [configFits, and_assoc]

/-- Values that pass CONFIG's checks are legal (R276). -/
theorem configLegal_of_fits {p : Params} {var : Variant} {l : BitVec 5} {k : BitVec 4} {b : Word}
    (h : configFits p var l (correctB b) = true) : ConfigLegal p var (correctK k) (correctB b) l := by
  obtain ⟨h1, h2, h3, h4⟩ := configFits_iff.1 h
  exact ⟨(correctK_range k).1, (correctK_range k).2, correctB_pos b, h3, h4, h2, fun hv => h1.resolve_left hv⟩

theorem variantOfCode_eq_none {v : BitVec 2} : variantOfCode v = none ↔ v = 3 := by
  revert v; decide

theorem variantOfCode_code {v : BitVec 2} {var : Variant} (h : variantOfCode v = some var) :
    var.code = v.toNat ∧ (var = .sharded ↔ v = 2) := by
  revert v var
  intro v var
  cases var <;> revert v <;> decide

end Sys2Proof.Machine
end

