-- ==== Sys2Proof/Laws/Encoding.lean ====
section
/-! SUPPORT. Fields of command words: what each format's word holds in each field, what each format's decoder accepts, and words as bits. -/

namespace Sys2Proof

theorem toNat_append {n m : Nat} (a : BitVec n) (b : BitVec m) : (a ++ b).toNat = a.toNat * 2 ^ m + b.toNat := by
  rw [BitVec.toNat_append, ← Nat.shiftLeft_add_eq_or_of_lt b.isLt, Nat.shiftLeft_eq]

theorem toNat_extractLsb {n : Nat} (a : BitVec n) (hi lo : Nat) :
    (a.extractLsb hi lo).toNat = a.toNat / 2 ^ lo % 2 ^ (hi - lo + 1) := by
  rw [BitVec.extractLsb_toNat, Nat.shiftRight_eq_div_pow]

/-! ## Fields of the words the encoder writes -/

theorem cmdNP_fields (op : BitVec 8) : (cmdNP op).extractLsb 31 8 = 0 ∧ (cmdNP op).extractLsb 7 0 = op := by
  revert op; decide +kernel

theorem cmdS_toNat (op : BitVec 8) (all : Bool) (shard : BitVec 16) :
    (cmdS op all shard).toNat = shard.toNat * 65536 + all.toNat * 256 + op.toNat := by
  simp only [cmdS, toNat_append, BitVec.toNat_ofBool, BitVec.ofNat_eq_ofNat, BitVec.toNat_ofNat]; omega

theorem cmdS_fields (op : BitVec 8) (all : Bool) (shard : BitVec 16) :
    (cmdS op all shard).extractLsb 7 0 = op ∧ (cmdS op all shard).extractLsb 15 9 = 0 ∧
      (cmdS op all shard).getLsbD 8 = all ∧ (cmdS op all shard).extractLsb 31 16 = shard := by
  have h := cmdS_toNat op all shard
  have := op.isLt
  have := shard.isLt
  have := Bool.toNat_lt all
  refine ⟨?_, ?_, ?_, ?_⟩
  · apply BitVec.eq_of_toNat_eq; rw [toNat_extractLsb, h]; omega
  · apply BitVec.eq_of_toNat_eq; rw [toNat_extractLsb, h]; simp; omega
  · rw [BitVec.getLsbD, h, Nat.testBit_eq_decide_div_mod_eq]; cases all <;> simp <;> omega
  · apply BitVec.eq_of_toNat_eq; rw [toNat_extractLsb, h]; omega

theorem cmdC_fields (v : BitVec 2) (k : BitVec 4) (l : BitVec 5) : (cmdC v k l).extractLsb 7 0 = 0x0A ∧
    (cmdC v k l).extractLsb 11 8 = 0 ∧ (cmdC v k l).extractLsb 19 18 = 0 ∧ (cmdC v k l).extractLsb 31 25 = 0 ∧
    (cmdC v k l).extractLsb 17 16 = v ∧ (cmdC v k l).extractLsb 15 12 = k ∧ (cmdC v k l).extractLsb 24 20 = l := by
  revert v k l; decide +kernel

theorem cmdR_fields (sel : BitVec 8) : (cmdR sel).extractLsb 7 0 = 0x0B ∧ (cmdR sel).extractLsb 31 16 = 0 ∧
    (cmdR sel).extractLsb 15 8 = sel := by
  revert sel; decide +kernel

/-- The decoder's selectors are the well-formed ones (R282). -/
theorem validSel_eq (sel : BitVec 8) : validSel sel = (Instr.rdcfg sel).wellFormed := by
  revert sel; decide +kernel

/-! ## What the decoder of a format accepts -/

theorem decodeNP_ok {c : BitVec 32} {i j : Instr} (h : decodeNP c i = .ok j) : j = i ∧ c.extractLsb 31 8 = 0 := by
  unfold decodeNP at h
  split at h
  · injection h with h; exact ⟨h.symm, by assumption⟩
  · cases h

theorem decodeAggregate_ok {c : BitVec 32} {mk : Bool → BitVec 16 → Instr} {j : Instr}
    (h : decodeAggregate c mk = .ok j) : j = mk (c.getLsbD 8) (c.extractLsb 31 16) ∧ c.extractLsb 15 9 = 0 := by
  unfold decodeAggregate at h
  split at h
  · injection h with h; exact ⟨h.symm, by assumption⟩
  · cases h

theorem decodeShard_ok {c : BitVec 32} {mk : BitVec 16 → Instr} {j : Instr} (h : decodeShard c mk = .ok j) :
    j = mk (c.extractLsb 31 16) ∧ c.extractLsb 15 9 = 0 ∧ c.getLsbD 8 = false := by
  unfold decodeShard at h
  split at h
  · cases h
  · rename_i h1
    split at h
    · cases h
    · rename_i h2
      injection h with h
      exact ⟨h.symm, by simpa using h1, by simpa using h2⟩

theorem decodeConfig_ok {c : BitVec 32} {b : Word} {j : Instr} (h : decodeConfig c b = .ok j) :
    j = .config (c.extractLsb 17 16) (c.extractLsb 15 12) (c.extractLsb 24 20) b ∧ c.extractLsb 11 8 = 0 ∧
      c.extractLsb 19 18 = 0 ∧ c.extractLsb 31 25 = 0 ∧ c.extractLsb 17 16 ≠ 3 := by
  unfold decodeConfig at h
  split at h
  · cases h
  · rename_i h1
    split at h
    · cases h
    · rename_i h2
      injection h with h
      simp only [not_or, not_not] at h1
      exact ⟨h.symm, h1.1, h1.2.1, h1.2.2, h2⟩

theorem decodeSelector_ok {c : BitVec 32} {j : Instr} (h : decodeSelector c = .ok j) :
    j = .rdcfg (c.extractLsb 15 8) ∧ c.extractLsb 31 16 = 0 ∧ validSel (c.extractLsb 15 8) = true := by
  unfold decodeSelector at h
  split at h
  · cases h
  · rename_i h1
    split at h
    · rename_i h2
      injection h with h
      exact ⟨h.symm, by simpa using h1, h2⟩
    · cases h

/-! ## Words as bits -/

/-- A masked word equals a pattern exactly when it does bit by bit (R110). -/
theorem mask_eq_iff (c m v : BitVec 32) :
    (c &&& m == v) = true ↔ ∀ i : Fin 32, (c.getLsbD i && m.getLsbD i) = v.getLsbD i := by
  rw [beq_iff_eq]
  constructor
  · rintro rfl i; simp
  · intro h
    apply BitVec.eq_of_getLsbD_eq
    intro i hi
    simpa using h ⟨i, hi⟩

/-- A field equals a value exactly when it does bit by bit. -/
theorem extractLsb_eq_iff (c : BitVec 32) (hi lo : Nat) (v : BitVec (hi - lo + 1)) :
    c.extractLsb hi lo = v ↔ ∀ i : Fin (hi - lo + 1), c.getLsbD (lo + i) = v.getLsbD i := by
  constructor
  · rintro rfl i; simp [i.isLt]
  · intro h
    apply BitVec.eq_of_getLsbD_eq
    intro i hi
    have := h ⟨i, hi⟩
    simpa [hi] using this

/-- A word of format S has nothing but its OP byte under a mask that leaves out SHARD and ALL. -/
theorem cmdS_mask (op : BitVec 8) (all : Bool) (shard : BitVec 16) :
    (cmdS op all shard &&& 0x0000FEFF == op.setWidth 32) = true := by
  rw [mask_eq_iff]
  intro ⟨i, hi⟩
  simp only [cmdS, BitVec.getLsbD_append, BitVec.getLsbD_setWidth]
  interval_cases i <;> simp [BitVec.getLsbD_of_ge]

/-- A word of format S with ALL 0 has nothing but its OP byte under a mask that leaves out SHARD. -/
theorem cmdS_mask_noAll (op : BitVec 8) (shard : BitVec 16) :
    (cmdS op false shard &&& 0x0000FFFF == op.setWidth 32) = true := by
  rw [mask_eq_iff]
  intro ⟨i, hi⟩
  simp only [cmdS, BitVec.getLsbD_append, BitVec.getLsbD_setWidth]
  interval_cases i <;> simp [BitVec.getLsbD_of_ge]

theorem cmdC_mask (v : BitVec 2) (k : BitVec 4) (l : BitVec 5) : (cmdC v k l &&& 0xFE0C0FFF == 0x0000000A) = true := by
  revert v k l; decide +kernel

theorem cmdR_mask (sel : BitVec 8) : (cmdR sel &&& 0xFFFF00FF == 0x0000000B) = true := by
  revert sel; decide +kernel

end Sys2Proof
end

