-- ==== Sys2Proof/Laws/Programs.lean ====
section
/-! SUPPORT. The programs of the commands: their OP bytes, and that in a legal state every task of a program is legal, belongs to its command and is a plain read-modify-write in UNSYNC only. -/

namespace Sys2Proof.Machine

/-! ## OP bytes (R102) -/

/-- The OP byte of a command: its row in the table of R110. -/
def opOf (i : Instr) : BitVec 8 := BitVec.ofNat 8 i.rowIndex

theorem opByte_encode (i : Instr) : opByte (encode i) = opOf i := by
  have h : ∀ (x : BitVec 24) (op : BitVec 8), BitVec.extractLsb 7 0 (x ++ op : BitVec 32) = op := by
    intro x op
    apply BitVec.eq_of_getLsbD_eq
    intro j hj
    simp only [BitVec.getLsbD_extractLsb, BitVec.getLsbD_append]
    simp [show j < 8 by omega]
  cases i <;> exact h _ _

theorem decode_opByte {r : Request} {i : Instr} (h : decode r = .ok i) : opByte r = opOf i := by
  have key : ∀ n : Nat, (r.cmd.extractLsb 7 0).toNat = n → opByte r = BitVec.ofNat 8 n := by
    intro n hn
    apply BitVec.eq_of_toNat_eq
    have := (r.cmd.extractLsb 7 0).isLt
    simp only [opByte, BitVec.toNat_ofNat]
    omega
  unfold decode at h
  split at h
  all_goals first
    | (rename_i hn
       simp only [decodeNP, decodeAggregate, decodeShard, decodeConfig, decodeSelector] at h
       repeat' split at h
       all_goals first
         | (injection h with h; subst h; rw [key _ hn]; rfl)
         | cases h)
    | cases h

/-- A request is a NOP by its word only if its OP byte is NOP's. -/
theorem isNop_eq_false {r : Request} (h : opByte r ≠ 0x00) : isNop r = false := by
  unfold isNop
  rw [beq_eq_false_iff_ne]
  intro h0
  apply h
  rw [opByte, h0]
  rfl

theorem isExclusive_eq (r : Request) : isExclusive r = ([0x04, 0x07, 0x09, 0x0A] : List (BitVec 8)).contains (opByte r) :=
  rfl

/-! ## Tasks (R182 to R283) -/

/-- No task of the program is a pending store half: those arise from their load halves only (R183). -/
def Program.Whole (prog : Program) : Prop := ∀ t ∈ prog.first ++ prog.second, t.pendingStore = none

theorem raise_whole (st : Status) : (Program.raise st).Whole := nofun

theorem answer_whole (v : Word) : (Program.answer v).Whole := nofun

theorem perform_whole {l : List Task} {r : Result} (h : ∀ t ∈ l, t.pendingStore = none) :
    (Program.perform l r).Whole := by simpa [Program.Whole, Program.perform] using h

theorem gate_whole {s : State} {p : Program} (h : p.Whole) : (gate s p).Whole := by
  unfold gate; split
  · exact h
  · exact raise_whole _

theorem unlessThen_whole {b : Bool} {st : Status} {p : Program} (h : p.Whole) : (unlessThen b st p).Whole := by
  unfold unlessThen; split
  · exact h
  · exact raise_whole _

theorem addTasks_whole (s : State) (h : Word) : ∀ t ∈ addTasks s h, t.pendingStore = none := by
  intro t ht
  unfold addTasks forEachProbe at ht
  split at ht <;> simp only [List.mem_append, List.mem_map, List.mem_singleton] at ht <;>
    rcases ht with ⟨i, -, rfl⟩ | rfl <;> rfl

theorem zeroTasks_whole (words shards : Nat) : ∀ t ∈ zeroTasks words shards, t.pendingStore = none := by
  intro t ht
  simp only [zeroTasks, List.mem_append, List.mem_map] at ht
  rcases ht with ⟨g, -, rfl⟩ | ⟨i, -, rfl⟩ <;> rfl

/-- Whatever the state, a command starts with no store half pending. -/
theorem program_whole (i : Instr) (s : State) : (program i s).Whole := by
  have probes : ∀ h, ∀ t ∈ forEachProbe s h .probe, t.pendingStore = none := by
    intro h t ht
    obtain ⟨i, -, rfl⟩ := List.mem_map.1 ht
    rfl
  have one : ∀ x : Task, x.pendingStore = none → ∀ t ∈ [x], t.pendingStore = none := fun x hx t ht => by
    rwa [List.mem_singleton.1 ht]
  cases i with
  | nop => exact answer_whole _
  | add h => exact gate_whole (perform_whole (addTasks_whole s h))
  | test h => exact gate_whole (perform_whole (probes h))
  | testadd h =>
    exact gate_whole fun t ht => (List.mem_append.1 ht).elim (probes h t) (addTasks_whole s h t)
  | clear => exact gate_whole (perform_whole (zeroTasks_whole _ _))
  | popcnt all shard =>
    refine gate_whole (unlessThen_whole (perform_whole fun t ht => ?_))
    obtain ⟨g, -, rfl⟩ := List.mem_map.1 ht
    rfl
  | rdcount all shard =>
    refine gate_whole (unlessThen_whole (perform_whole fun t ht => ?_))
    obtain ⟨g, -, rfl⟩ := List.mem_map.1 ht
    rfl
  | wrcount | rdword | wrword => exact gate_whole (unlessThen_whole (perform_whole (one _ rfl)))
  | config varreq kreq l breq =>
    show (configProgram varreq kreq l breq s).Whole
    unfold configProgram
    split
    · exact raise_whole _
    · refine unlessThen_whole (perform_whole fun t ht => ?_)
      rcases List.mem_cons.1 ht with rfl | ht
      · rfl
      · exact zeroTasks_whole _ _ t ht
  | rdcfg sel =>
    show (rdcfgProgram sel s).Whole
    unfold rdcfgProgram
    split
    · split
      iterate 4 exact answer_whole _
      refine gate_whole ?_
      unfold configuredProgram
      split
      iterate 6 exact answer_whole _
      split <;> exact unlessThen_whole (answer_whole _)
    · exact raise_whole _

/-- Whatever the state, a request's program starts with no store half pending. -/
theorem requestProgram_whole (r : Request) (s : State) : (requestProgram r s).Whole := by
  unfold requestProgram
  split
  · exact program_whole _ s
  · exact raise_whole _

/-- A task a program of OP byte `op` may have in state `s`. -/
structure Task.Fits (s : State) (op : BitVec 8) (t : Task) : Prop where
  legal : EventLegal s.params t.event
  owner : op ∈ t.owners
  plain : t.plain = true → s.cfg.valid = true ∧ s.cfg.var = .unsync
  atomic : t.atomicOr = true → s.cfg.var ≠ .unsync
  whole : t.pendingStore = none

/-- A pending store half is half of a plain read-modify-write. -/
theorem Task.plain_of_pendingStore {t : Task} {g : Nat} (h : t.pendingStore = some g) : t.plain = true := by
  cases t <;> first | rfl | cases h

/-- A task that sets no probe bit fits if it is legal and of the command. -/
theorem Task.fits {s : State} {op : BitVec 8} {t : Task} (h1 : EventLegal s.params t.event) (h2 : op ∈ t.owners)
    (h3 : t.plain = false) (h4 : t.atomicOr = false := by rfl) : t.Fits s op :=
  ⟨h1, h2, fun h => by simp [h3] at h, fun h => by simp [h4] at h,
    Option.eq_none_iff_forall_ne_some.2 fun _ h => by simp [Task.plain_of_pendingStore h] at h3⟩

/-- Every task of the program fits. -/
structure Program.Owned (s : State) (op : BitVec 8) (prog : Program) : Prop where
  first : ∀ t ∈ prog.first, t.Fits s op
  second : ∀ t ∈ prog.second, t.Fits s op

theorem raise_owned (s : State) (op : BitVec 8) (st : Status) : (Program.raise st).Owned s op :=
  ⟨by simp [Program.raise], by simp [Program.raise]⟩

theorem answer_owned (s : State) (op : BitVec 8) (v : Word) : (Program.answer v).Owned s op :=
  ⟨by simp [Program.answer], by simp [Program.answer]⟩

theorem gate_owned {s : State} {op : BitVec 8} {p : Program} (h : s.cfg.valid = true → p.Owned s op) :
    (gate s p).Owned s op := by
  unfold gate
  split
  · exact h ‹_›
  · exact raise_owned _ _ _

theorem unlessThen_owned {s : State} {op : BitVec 8} {b : Bool} {st : Status} {p : Program}
    (h : b = true → p.Owned s op) : (unlessThen b st p).Owned s op := by
  unfold unlessThen
  split
  · exact h ‹_›
  · exact raise_owned _ _ _

theorem perform_owned {s : State} {op : BitVec 8} {l : List Task} {r : Result}
    (h : ∀ t ∈ l, t.Fits s op) :
    (Program.perform l r).Owned s op :=
  ⟨h, by simp [Program.perform]⟩

theorem mem_forEachProbe {s : State} {h : Word} {task : Nat → Word → Task} {t : Task} :
    t ∈ forEachProbe s h task ↔ ∃ i < s.cfg.k.toNat, t = task (probeWord s h i) (probeMask s h i) := by
  simp [forEachProbe, eq_comm]

section

variable {s : State} (hs : StorageInv s)
include hs

/-- The probe words exist. -/
theorem probeWord_lt_words (hv : s.cfg.valid = true) (h : Word) {i : Nat} (hi : i < s.cfg.k.toNat) :
    probeWord s h i < s.params.words :=
  (probeWord_lt hs hv h hi).trans_le (usedWords_le hs hv)

/-- The counter of a hash's shard exists. -/
theorem hashShard_lt (hv : s.cfg.valid = true) (h : Word) : hashShard s h < s.params.nmax :=
  (hashFields_lt hs hv h).1.trans_le (shards_le hs hv)

theorem addTasks_owned (hv : s.cfg.valid = true) (h : Word) {op : BitVec 8} (hop : op = 0x01 ∨ op = 0x03)
    {t : Task} (ht : t ∈ addTasks s h) : t.Fits s op := by
  have hop' : op ∈ ([0x01, 0x03] : List (BitVec 8)) := by simpa using hop
  unfold addTasks at ht
  split at ht <;> rename_i hvar <;> simp only [List.mem_append, mem_forEachProbe, List.mem_singleton] at ht <;>
    rcases ht with ⟨i, hi, rfl⟩ | rfl
  · exact ⟨probeWord_lt_words hs hv h hi, hop', fun _ => ⟨hv, hvar⟩, nofun, rfl⟩
  · exact Task.fits (hashShard_lt hs hv h) (hop') rfl
  · exact ⟨probeWord_lt_words hs hv h hi, hop', nofun, fun _ => by simp [hvar], rfl⟩
  · exact Task.fits (hashShard_lt hs hv h) (hop') rfl
  · exact ⟨probeWord_lt_words hs hv h hi, hop', nofun, fun _ => by simp [hvar], rfl⟩
  · exact Task.fits (hashShard_lt hs hv h) (hop') rfl

omit hs in
theorem zeroTasks_owned {words shards : Nat} (hw : words ≤ s.params.words) (hn : shards ≤ s.params.nmax)
    {op : BitVec 8} (hop : op = 0x04 ∨ op = 0x0A) {t : Task} (ht : t ∈ zeroTasks words shards) :
    t.Fits s op := by
  simp only [zeroTasks, List.mem_append, List.mem_map, List.mem_range] at ht
  rcases ht with ⟨g, hg, rfl⟩ | ⟨i, hi, rfl⟩
  · exact Task.fits (hg.trans_le hw) (by rcases hop with rfl | rfl <;> simp [Task.owners]) rfl
  · exact Task.fits (hi.trans_le hn) (by rcases hop with rfl | rfl <;> simp [Task.owners]) rfl

theorem popcntWords_lt (hv : s.cfg.valid = true) {all : Bool} {shard : BitVec 16}
    (h : (all || s.cfg.hasShard shard) = true) {g : Nat} (hg : g ∈ popcntWords s.cfg all shard) :
    g < s.params.words := by
  refine lt_of_lt_of_le ?_ (usedWords_le hs hv)
  unfold popcntWords at hg
  cases all
  · have h3 : shard.toNat < s.cfg.shards := by simpa [Cfg.hasShard] using h
    have h5 : g < shard.toNat * s.cfg.b.toNat * 8 + s.cfg.b.toNat * 8 := by
      simpa [List.mem_range'_1] using (List.mem_range'_1.1 (by simpa using hg)).2
    have : (shard.toNat + 1) * s.cfg.b.toNat ≤ s.cfg.shards * s.cfg.b.toNat := Nat.mul_le_mul_right _ h3
    rw [Nat.add_mul, Nat.one_mul] at this
    unfold Cfg.usedWords Cfg.totalBlocks
    omega
  · simpa using hg

theorem rdcountShards_lt (hv : s.cfg.valid = true) {all : Bool} {shard : BitVec 16}
    (h : (all || s.cfg.hasShard shard) = true) {i : Nat} (hi : i ∈ rdcountShards s.cfg all shard) :
    i < s.params.nmax := by
  refine lt_of_lt_of_le ?_ (shards_le hs hv)
  unfold rdcountShards at hi
  cases all
  · have h3 : shard.toNat < s.cfg.shards := by simpa [Cfg.hasShard] using h
    simp only [Bool.false_eq_true, if_false, List.mem_singleton] at hi
    omega
  · simpa using hi

omit hs in
theorem configProgram_owned (varreq : BitVec 2) (kreq : BitVec 4) (l : BitVec 5) (breq : Word) :
    (configProgram varreq kreq l breq s).Owned s 0x0A := by
  unfold configProgram
  split
  · exact raise_owned _ _ _
  · refine unlessThen_owned fun hf => ?_
    have hl := configLegal_of_fits (k := kreq) hf
    refine perform_owned fun t ht => ?_
    rcases List.mem_cons.1 ht with rfl | ht
    · exact Task.fits (hl) (by simp [Task.owners]) rfl
    · refine zeroTasks_owned ?_ ?_ (.inr rfl) ht
      · have := hl.fits
        rw [Nat.mul_comm] at this
        exact Nat.mul_le_mul_right 8 this
      · exact Nat.pow_le_pow_right (by decide) hl.log2n_le

omit hs in
theorem rdcfgProgram_owned (sel : BitVec 8) : (rdcfgProgram sel s).Owned s 0x0B := by
  unfold rdcfgProgram
  split
  · split
    iterate 4 exact answer_owned _ _ _
    refine gate_owned fun _ => ?_
    unfold configuredProgram
    split
    iterate 6 exact answer_owned _ _ _
    split <;> exact unlessThen_owned fun _ => answer_owned _ _ _
  · exact raise_owned _ _ _

/-- Every task of a command's program is legal and the command's own (R388). -/
theorem program_owned (i : Instr) : (program i s).Owned s (opOf i) := by
  cases i with
  | nop => exact answer_owned _ _ _
  | add h =>
    exact gate_owned fun hv => perform_owned fun t ht => addTasks_owned hs hv h (.inl rfl) ht
  | test h =>
    refine gate_owned fun hv => perform_owned fun t ht => ?_
    obtain ⟨i, hi, rfl⟩ := mem_forEachProbe.1 ht
    exact Task.fits (probeWord_lt_words hs hv h hi) (by simp [Task.owners, opOf, Instr.rowIndex]) rfl
  | testadd h =>
    refine gate_owned fun hv => ⟨fun t ht => ?_, fun t ht => addTasks_owned hs hv h (.inr rfl) ht⟩
    obtain ⟨i, hi, rfl⟩ := mem_forEachProbe.1 ht
    exact Task.fits (probeWord_lt_words hs hv h hi) (by simp [Task.owners, opOf, Instr.rowIndex]) rfl
  | clear =>
    exact gate_owned fun hv => perform_owned fun t ht =>
      zeroTasks_owned (usedWords_le hs hv) (shards_le hs hv) (.inl rfl) ht
  | popcnt all shard =>
    refine gate_owned fun hv => unlessThen_owned fun hc => perform_owned fun t ht => ?_
    obtain ⟨g, hg, rfl⟩ := List.mem_map.1 ht
    exact Task.fits (popcntWords_lt hs hv hc hg) (by simp [Task.owners, opOf, Instr.rowIndex]) rfl
  | rdcount all shard =>
    refine gate_owned fun hv => unlessThen_owned fun hc => perform_owned fun t ht => ?_
    obtain ⟨i, hi, rfl⟩ := List.mem_map.1 ht
    exact Task.fits (rdcountShards_lt hs hv hc hi) (by simp [Task.owners, opOf, Instr.rowIndex]) rfl
  | wrcount shard cval =>
    refine gate_owned fun hv => unlessThen_owned fun hc => perform_owned fun t ht => ?_
    obtain rfl := List.mem_singleton.1 ht
    refine Task.fits (?_) (by simp [Task.owners, opOf, Instr.rowIndex]) rfl
    have h3 : shard.toNat < s.cfg.shards := by simpa [Cfg.hasShard] using hc
    exact h3.trans_le (shards_le hs hv)
  | rdword shard widx =>
    refine gate_owned fun hv => unlessThen_owned fun hc => perform_owned fun t ht => ?_
    obtain rfl := List.mem_singleton.1 ht
    rw [Bool.and_eq_true] at hc
    exact Task.fits ((imageWord_lt hc.1 hc.2).trans_le (usedWords_le hs hv)) (by simp [Task.owners, opOf, Instr.rowIndex]) rfl
  | wrword shard widx wval =>
    refine gate_owned fun hv => unlessThen_owned fun hc => perform_owned fun t ht => ?_
    obtain rfl := List.mem_singleton.1 ht
    rw [Bool.and_eq_true] at hc
    exact Task.fits ((imageWord_lt hc.1 hc.2).trans_le (usedWords_le hs hv)) (by simp [Task.owners, opOf, Instr.rowIndex]) rfl
  | config varreq kreq l breq => exact configProgram_owned varreq kreq l breq
  | rdcfg sel => exact rdcfgProgram_owned sel

/-- Every task of a request's program is legal and its command's own. -/
theorem requestProgram_owned (r : Request) : (requestProgram r s).Owned s (opByte r) := by
  unfold requestProgram
  rcases h : decode r with e | i
  · exact raise_owned _ _ _
  · rw [decode_opByte h]
    exact program_owned hs i

end

/-- `exec` serves the command's own request with its program on the granted port. -/
theorem exec_eq (i : Instr) (s : State) : exec i s = serve s.grant (encode i) (program i s) s := by
  cases i <;> rfl

end Sys2Proof.Machine
end

