-- ==== Sys2Proof/Laws/Flights.lean ====
section
/-! SUPPORT. Storage and flights: that performing legal tasks keeps the storage invariant, what overlap rules say of the commands in flight, and what the tasks of one command can do to another in flight. -/

namespace Sys2Proof.Machine

/-! ## Storage -/

theorem StorageInv.putWord {s : State} (h : StorageInv s) {g : Nat} (hg : g < s.params.words) (v : Word) :
    StorageInv (s.putWord g v) :=
  ⟨h.params, h.configured, storeWord_wf h.arr_wf g v, storeWord_below h.arr_below hg v, h.count_wf, h.count_below,
    h.ports_length⟩

theorem StorageInv.putCounter {s : State} (h : StorageInv s) {i : Nat} (hi : i < s.params.nmax) (v : Word) :
    StorageInv (s.putCounter i v) :=
  ⟨h.params, h.configured, h.arr_wf, h.arr_below, cellsWf_put h.count_wf i v, cellsBelow_put h.count_below hi v,
    h.ports_length⟩

theorem StorageInv.writeCfg {s : State} (h : StorageInv s) {var : Variant} {k : BitVec 4} {b : Word} {l : BitVec 5}
    (hl : ConfigLegal s.params var k b l) : StorageInv (s.writeCfg var k b l) :=
  ⟨h.params, writeCfg_configuredLegal h.params hl, h.arr_wf, h.arr_below, h.count_wf, h.count_below, h.ports_length⟩

theorem StorageInv.setPort {s : State} (h : StorageInv s) (p : Nat) (x : Port) : StorageInv (s.setPort p x) :=
  ⟨h.params, h.configured, h.arr_wf, h.arr_below, h.count_wf, h.count_below, by
    rw [State.setPort_ports, List.length_set]; exact h.ports_length⟩

/-- A legal event keeps the storage invariant, the parameters, the ports and the schedule. -/
theorem perform_storage {s s' : State} {e : Event} {v : Word} (h : StorageInv s) (hl : EventLegal s.params e)
    (hp : perform s e = .ok (s', v)) : StorageInv s' := by
  cases e <;> simp only [EventLegal] at hl <;> simp only [perform, hl, if_true, Except.ok.injEq, Prod.mk.injEq] at hp <;>
    obtain ⟨rfl, rfl⟩ := hp
  · exact h
  · exact h.putWord hl _
  · exact h.putWord hl _
  · exact h
  · exact h.putCounter hl _
  · exact h.putCounter hl _
  · exact h.writeCfg hl

/-- What a performed event keeps, whatever the state. -/
theorem perform_kept {s s' : State} {e : Event} {v : Word} (hp : perform s e = .ok (s', v)) :
    s'.params = s.params ∧ s'.ports = s.ports ∧ s'.faults = s.faults ∧ s'.sched = s.sched ∧ s'.grant = s.grant ∧
      s'.delivered = s.delivered ∧ ((∀ a b c d, e ≠ .cfgWrite a b c d) → s'.cfg = s.cfg ∧ s'.pw = s.pw ∧ s'.po = s.po) := by
  cases e <;> simp only [perform] at hp <;> first
    | (split at hp
       · simp only [Except.ok.injEq, Prod.mk.injEq] at hp
         obtain ⟨rfl, rfl⟩ := hp
         exact ⟨rfl, rfl, rfl, rfl, rfl, rfl, fun _ => ⟨rfl, rfl, rfl⟩⟩
       · cases hp)
    | (simp only [Except.ok.injEq, Prod.mk.injEq] at hp
       obtain ⟨rfl, rfl⟩ := hp
       exact ⟨rfl, rfl, rfl, rfl, rfl, rfl, fun h => absurd rfl (h _ _ _ _)⟩)

/-- What performed tasks keep, whatever the state. -/
theorem runTasks_kept {l : List Task} {s s1 : State} {d d1 : List Done} (h : runTasks s l d = .ok (s1, d1)) :
    s1.params = s.params ∧ s1.ports = s.ports ∧ s1.faults = s.faults ∧ s1.sched = s.sched ∧ s1.grant = s.grant ∧
      s1.delivered = s.delivered := by
  have key : ∀ {s s1 : State} {t : Task} {d : Done}, runTask s t = .ok (s1, d) →
      s1.params = s.params ∧ s1.ports = s.ports ∧ s1.faults = s.faults ∧ s1.sched = s.sched ∧ s1.grant = s.grant ∧
        s1.delivered = s.delivered := by
    intro s s1 t d h
    unfold runTask at h
    rcases hp : perform s t.event with e | ⟨s2, v⟩
    · simp [hp] at h
    · simp only [hp, Except.ok.injEq, Prod.mk.injEq] at h
      obtain ⟨rfl, rfl⟩ := h
      obtain ⟨h1, h2, h3, h4, h5, h6, _⟩ := perform_kept hp
      exact ⟨h1, h2, h3, h4, h5, h6⟩
  have trans : ∀ {a b c : State}, (b.params = a.params ∧ b.ports = a.ports ∧ b.faults = a.faults ∧ b.sched = a.sched ∧
      b.grant = a.grant ∧ b.delivered = a.delivered) → (c.params = b.params ∧ c.ports = b.ports ∧ c.faults = b.faults ∧
      c.sched = b.sched ∧ c.grant = b.grant ∧ c.delivered = b.delivered) → c.params = a.params ∧ c.ports = a.ports ∧
      c.faults = a.faults ∧ c.sched = a.sched ∧ c.grant = a.grant ∧ c.delivered = a.delivered := by
    rintro a b c ⟨h1, h2, h3, h4, h5, h6⟩ ⟨i1, i2, i3, i4, i5, i6⟩
    exact ⟨i1.trans h1, i2.trans h2, i3.trans h3, i4.trans h4, i5.trans h5, i6.trans h6⟩
  induction l generalizing s d with
  | nil =>
    simp only [runTasks, Except.ok.injEq, Prod.mk.injEq] at h
    obtain ⟨rfl, rfl⟩ := h
    exact ⟨rfl, rfl, rfl, rfl, rfl, rfl⟩
  | cons t l ih =>
    unfold runTasks runWithFollowUp at h
    rcases h1 : runTask s t with e | ⟨s2, d2⟩
    · simp [h1] at h
    · rcases hf : t.followUp d2.value with _ | t2
      · simp only [h1, hf] at h
        exact trans (key h1) (ih h)
      · rcases h2 : runTask s2 t2 with e | ⟨s3, d3⟩
        · simp [h1, hf, h2] at h
        · simp only [h1, hf, h2] at h
          exact trans (trans (key h1) (key h2)) (ih h)

theorem Task.effect_storage {s : State} {t : Task} (h : StorageInv s) (hl : EventLegal s.params t.event) :
    StorageInv (t.effect s) := by
  cases t <;> simp only [Task.event, EventLegal] at hl <;> first
    | exact h
    | exact h.putWord hl _
    | exact h.putCounter hl _
    | exact h.writeCfg hl

theorem tasksEffect_storage {s : State} {l : List Task} (h : StorageInv s)
    (hl : ∀ t ∈ l, EventLegal s.params t.event) : StorageInv (tasksEffect s l) := by
  induction l generalizing s with
  | nil => exact h
  | cons t l ih =>
    exact ih (Task.effect_storage h (hl t (by simp))) fun x hx => by simpa using hl x (by simp [hx])

/-- The second part's tasks are tasks of the program. -/
theorem mem_rest {prog : Program} {done : List Done} {t : Task} (h : t ∈ prog.rest done) : t ∈ prog.second := by
  unfold Program.rest at h
  split at h
  · cases h
  · exact h

/-! ## Ports -/

theorem canAccept_lt {s : State} {p : Nat} (h : s.canAccept p = true) : p < s.ports.length := by
  by_contra hn
  rw [State.canAccept, List.getElem?_eq_none (by omega)] at h
  cases h

theorem flight_of_canAccept {s : State} {p : Nat} (h : s.canAccept p = true) : s.flight p = none := by
  rw [State.canAccept, beq_iff_eq] at h
  rw [State.flight, h]

theorem flight_lt {s : State} {p : Nat} {f : Flight} (h : s.flight p = some f) : p < s.ports.length := by
  by_contra hn
  rw [State.flight, List.getElem?_eq_none (by omega)] at h
  cases h

theorem flight_eq_some {s : State} {p : Nat} {f : Flight} : s.flight p = some f ↔ s.ports[p]? = some (.busy f) := by
  unfold State.flight
  split <;> simp_all

theorem flight_setPort_ne (s : State) {p q : Nat} (x : Port) (h : q ≠ p) : (s.setPort p x).flight q = s.flight q := by
  unfold State.flight
  rw [State.setPort_ports, List.getElem?_set_ne (Ne.symm h)]

theorem flight_setPort_busy (s : State) {p : Nat} (f : Flight) (h : p < s.ports.length) :
    (s.setPort p (.busy f)).flight p = some f := by
  unfold State.flight
  rw [State.setPort_ports, List.getElem?_set_self h]

theorem flight_setPort_idle (s : State) (p : Nat) : (s.setPort p .idle).flight p = none := by
  unfold State.flight
  rw [State.setPort_ports]
  by_cases h : p < s.ports.length
  · rw [List.getElem?_set_self h]
  · rw [List.getElem?_eq_none (by rw [List.length_set]; omega)]

/-- The flights are the ports' alone. -/
theorem flight_congr {s t : State} (h : t.ports = s.ports) (p : Nat) : t.flight p = s.flight p := by
  unfold State.flight
  rw [h]

/-- A request is in flight on some port. -/
theorem mem_inFlight {s : State} {r : Request} : r ∈ s.inFlight ↔ ∃ p f, s.flight p = some f ∧ f.req = r := by
  rw [State.inFlight, List.mem_filterMap]
  constructor
  · rintro ⟨x, hx, hr⟩
    obtain ⟨p, hp⟩ := List.mem_iff_getElem?.1 hx
    cases x with
    | idle => cases hr
    | busy f => exact ⟨p, f, flight_eq_some.2 hp, by simpa [Port.request] using hr⟩
  · rintro ⟨p, f, hp, rfl⟩
    exact ⟨_, List.mem_iff_getElem?.2 ⟨p, flight_eq_some.1 hp⟩, rfl⟩

/-! ## Overlap (R351, R352) -/

theorem stuck_eq_none {f : FaultSet} : f.stuck = none ↔ f.excl = false ∧ f.unsync = false := by
  obtain ⟨_ | _, _ | _⟩ := f <;> simp [FaultSet.stuck]

/-- Recording faults on none leaves the faults recorded. -/
theorem union_of_stuck_none {f g : FaultSet} (h : f.stuck = none) : f.union g = g := by
  obtain ⟨h1, h2⟩ := stuck_eq_none.1 h
  cases f; cases g; simp_all [FaultSet.union]

/-- No overlap fault: each command in flight is a NOP, or the request is, or neither is exclusive and the
configuration is not a valid UNSYNC one. -/
theorem overlapFaults_none {s : State} {r : Request} (h : (overlapFaults s r).stuck = none) {p : Nat} {f : Flight}
    (hf : s.flight p = some f) (hr : isNop r = false) (hd : isNop f.req = false) :
    isExclusive r = false ∧ isExclusive f.req = false ∧ ¬ (s.cfg.valid = true ∧ s.cfg.var = .unsync) := by
  obtain ⟨h1, h2⟩ := stuck_eq_none.1 h
  have hm : f.req ∈ s.inFlight := mem_inFlight.2 ⟨p, f, hf, rfl⟩
  simp only [overlapFaults] at h1 h2
  rw [List.any_eq_false] at h1
  have h1 := h1 _ hm
  refine ⟨?_, ?_, ?_⟩
  · simp_all
  · simp_all
  · rintro ⟨hv, hu⟩
    have : s.inFlight.any (fun d => !isNop r && !isNop d) = true := List.any_eq_true.2 ⟨_, hm, by simp [hr, hd]⟩
    simp [hv, hu, this] at h2

/-- The request of a command with a task left is no NOP. -/
theorem TaskOwned.not_nop {s : State} {r : Request} {t : Task} (h : TaskOwned s r t) : isNop r = false := by
  refine isNop_eq_false fun h0 => ?_
  have := h.owner
  rw [h0] at this
  cases t <;> simp [Task.owners] at this

theorem Task.Fits.owned {s : State} {r : Request} {t : Task} (h : t.Fits s (opByte r)) : TaskOwned s r t :=
  ⟨h.legal, h.owner, h.plain, h.atomic⟩

/-- A task whose configuration is unchanged, or whose command has a task that writes the configuration, stays owned. -/
theorem TaskOwned.congr {s s' : State} {r : Request} {t : Task} (h : TaskOwned s r t) (hp : s'.params = s.params)
    (hc : s'.cfg = s.cfg ∨ opByte r = 0x0A) : TaskOwned s' r t := by
  refine ⟨by rw [hp]; exact h.legal, h.owner, fun hpl => ?_, fun hat => ?_⟩ <;> rcases hc with hc | hc
  · rw [hc]; exact h.plain hpl
  · have := h.owner
    rw [hc] at this
    cases t <;> simp [Task.owners, Task.plain] at this hpl
  · rw [hc]; exact h.atomic hat
  · have := h.owner
    rw [hc] at this
    cases t <;> simp [Task.owners, Task.atomicOr] at this hat

/-- Only CONFIG changes the configuration. -/
theorem perform_cfg {s s' : State} {r : Request} {t : Task} {v : Word} (ho : opByte r ∈ t.owners)
    (hp : perform s t.event = .ok (s', v)) : s'.cfg = s.cfg ∨ opByte r = 0x0A := by
  by_cases h : ∃ a b c d, t = .writeCfg a b c d
  · obtain ⟨a, b, c, d, rfl⟩ := h
    exact .inr (by simpa [Task.owners] using ho)
  · refine .inl ((perform_kept hp).2.2.2.2.2.2 fun a b c d he => h ?_).1
    cases t <;> simp [Task.event] at he
    exact ⟨_, _, _, _, rfl⟩

theorem tasksEffect_cfg_of_op {s : State} {op : BitVec 8} {l : List Task} (h : ∀ t ∈ l, op ∈ t.owners) :
    ((tasksEffect s l).cfg = s.cfg ∧ (tasksEffect s l).pw = s.pw ∧ (tasksEffect s l).po = s.po) ∨ op = 0x0A := by
  by_cases h0 : op = 0x0A
  · exact .inr h0
  · refine .inl (tasksEffect_cfg (fun t ht a b c d he => h0 ?_) s)
    subst he
    simpa [Task.owners] using h _ ht

/-- A flight stays legal when another command's event changes the state: the two are not both plain UNSYNC commands,
and a command that writes the configuration has no other beside it but NOPs. -/
theorem FlightLegal.congr {s s' : State} {f : Flight} (h : FlightLegal s f) (hp : s'.params = s.params)
    (hc : isNop f.req = false → s'.cfg = s.cfg)
    (hw : isNop f.req = false → s.cfg.valid = true ∧ s.cfg.var = .unsync → ∀ g, s'.word g = s.word g) :
    FlightLegal s' f := by
  have own : ∀ t, TaskOwned s f.req t → TaskOwned s' f.req t := fun t ht =>
    ht.congr hp (.inl (hc ht.not_nop))
  refine ⟨fun t ht => own t (h.todo t ht), fun t ht => own t (h.second t ht), h.settled, h.stores_lead,
    h.second_whole, ?_⟩
  intro g v hgv
  have ho := h.todo _ hgv
  rw [hw ho.not_nop (ho.plain rfl)]
  exact h.store_keeps g v hgv

/-- No illegal overlap, when the configuration is unchanged or no two commands other than NOPs are in flight. -/
theorem NoIllegalOverlap.congr {s s' : State} (h : NoIllegalOverlap s)
    (hf : ∀ p f', s'.flight p = some f' → ∃ f, s.flight p = some f ∧ f'.req = f.req)
    (hc : ∀ p q f g, p ≠ q → s.flight p = some f → s.flight q = some g → isNop f.req = false → isNop g.req = false →
      s'.cfg = s.cfg) : NoIllegalOverlap s' := by
  intro p q f' g' hne h1 h2 n1 n2
  obtain ⟨f, hf1, e1⟩ := hf p f' h1
  obtain ⟨g, hg1, e2⟩ := hf q g' h2
  rw [e1] at n1 ⊢
  rw [e2] at n2 ⊢
  rw [hc p q f g hne hf1 hg1 n1 n2]
  exact h p q f g hne hf1 hg1 n1 n2

end Sys2Proof.Machine
end

