-- ==== Sys2Proof/Laws/Moves.lean ====
section
/-! SUPPORT. One lemma per kind of move: everything it can do, and that it keeps the invariant's parts. -/

namespace Sys2Proof.Machine

/-! ## Picking and performing one task -/

/-- Picking the task at a place: it may be performed, and the others are left. -/
theorem pickTask_eq_some {todo rest : List Task} {n : Nat} {t : Task} (h : pickTask todo n = some (t, rest)) :
    todo[n]? = some t ∧ mayPerform todo t = true ∧ rest = todo.eraseIdx n := by
  unfold pickTask at h
  split at h
  · cases h
  · split at h
    · cases h; exact ⟨‹_›, ‹_›, rfl⟩
    · cases h

/-- A picked task is one of those to do; the rest are others of them, in order. -/
theorem pickTask_mem {todo rest : List Task} {n : Nat} {t : Task} (h : pickTask todo n = some (t, rest)) :
    t ∈ todo ∧ rest.Sublist todo := by
  obtain ⟨h1, -, rfl⟩ := pickTask_eq_some h
  exact ⟨List.mem_of_getElem? h1, List.eraseIdx_sublist _ _⟩

/-- What is picked stands, with the rest, for all there was to do. -/
theorem pickTask_perm {todo rest : List Task} {n : Nat} {t : Task} (h : pickTask todo n = some (t, rest)) :
    todo.Perm (t :: rest) := by
  obtain ⟨h1, -, rfl⟩ := pickTask_eq_some h
  obtain ⟨hn, rfl⟩ := List.getElem?_eq_some_iff.1 h1
  exact (List.getElem_cons_eraseIdx_perm hn).symm

/-- Among pending stores that lead and are to different words, no other is to the word of one of them. -/
theorem pickTask_store {todo rest : List Task} {n : Nat} {t : Task} {g : Nat} (h : pickTask todo n = some (t, rest))
    (hs : StoresLead todo) (ht : t.pendingStore = some g) {x : Task} (hx : x ∈ rest) : x.pendingStore ≠ some g := by
  have hne : todo.Pairwise fun x y => ¬ (x.pendingStore = some g ∧ y.pendingStore = some g) := by
    refine hs.imp fun hxy => ?_
    rintro ⟨hx, hy⟩
    obtain ⟨k, hk, hkg⟩ := hxy g hy
    rw [hx] at hk
    exact hkg (Option.some.inj hk).symm
  have hp := (pickTask_perm h).pairwise_iff (fun {x y} hxy hyx => hxy ⟨hyx.2, hyx.1⟩) |>.1 hne
  exact fun hxg => (List.pairwise_cons.1 hp).1 x hx ⟨ht, hxg⟩

/-- Where the pending stores lead, the first task may be performed. -/
theorem pickTask_zero {x : Task} {l : List Task}
    (hs : StoresLead (x :: l)) : pickTask (x :: l) 0 = some (x, l) := by
  refine if_pos ?_
  cases x with
  | rmwLoad g m =>
    simp only [mayPerform, List.all_eq_true, bne_iff_ne, ne_eq]
    intro t ht hg
    rcases List.mem_cons.1 ht with rfl | ht
    · cases hg
    · obtain ⟨k, hk, -⟩ := (List.pairwise_cons.1 hs).1 t ht g hg
      cases hk
  | rmwStore | probe | setBit | inc | countOnes | addCount | readWord | storeWord | storeCount | writeCfg => rfl

/-- Tasks none of which is a pending store meet the order of pending stores. -/
theorem stores_lead_of_none {l : List Task} (h : ∀ t ∈ l, t.pendingStore = none) : StoresLead l :=
  List.pairwise_of_forall_mem_list fun _ _ y hy g hg => by rw [h y hy] at hg; cases hg

/-- The first part of a flight that is settled is not empty. -/
theorem settle_settled (f : Flight) (h : (Flight.settle f).part = .first) : (Flight.settle f).todo ≠ [] := by
  unfold Flight.settle at h ⊢
  split
  · split at h <;> simp_all
  · simp_all
  · simp_all

@[simp] theorem settle_req (f : Flight) : f.settle.req = f.req := by
  unfold Flight.settle; split <;> rfl

@[simp] theorem settle_prog (f : Flight) : f.settle.prog = f.prog := by
  unfold Flight.settle; split <;> rfl

@[simp] theorem settle_done (f : Flight) : f.settle.done = f.done := by
  unfold Flight.settle; split <;> rfl

/-- What is to do after settling: the rest of the first part, or the second. -/
theorem settle_todo (f : Flight) : f.settle.todo = f.todo ∨ f.todo = [] ∧ f.settle.todo = f.prog.rest f.done := by
  unfold Flight.settle
  split
  · rename_i h; exact .inr ⟨h, rfl⟩
  · exact .inl rfl
  · exact .inl rfl

/-- A flight whose tasks are legal stays so when it settles. -/
theorem FlightLegal.settle {s : State} {f : Flight} (h1 : ∀ t ∈ f.todo, TaskOwned s f.req t)
    (h2 : ∀ t ∈ f.prog.second, TaskOwned s f.req t)
    (h3 : StoresLead f.todo)
    (h4 : ∀ t ∈ f.prog.second, t.pendingStore = none)
    (h5 : ∀ g v, Task.rmwStore g v ∈ f.todo → s.word g &&& v = s.word g) : FlightLegal s f.settle := by
  refine ⟨?_, by simpa using h2, settle_settled f, ?_, by simpa using h4, ?_⟩
  · rw [settle_req]
    rcases settle_todo f with he | ⟨_, he⟩ <;> rw [he]
    · exact h1
    · exact fun t ht => h2 t (mem_rest ht)
  · rcases settle_todo f with he | ⟨_, he⟩ <;> rw [he]
    · exact h3
    · exact stores_lead_of_none fun t ht => h4 t (mem_rest ht)
  · intro g v
    rcases settle_todo f with he | ⟨_, he⟩ <;> rw [he]
    · exact h5 g v
    · exact fun hm => absurd (h4 _ (mem_rest hm)) nofun

/-- Everything an event move can do: nothing, a stop, or one task of the flight. -/
theorem eventMove_cases (p n : Nat) (s : State) :
    (eventMove p n s = .next s) ∨
    (∃ f t rest e, s.flight p = some f ∧ pickTask f.todo n = some (t, rest) ∧ perform s t.event = .error e ∧
      eventMove p n s = .fault e) ∨
    (∃ f t rest s1 v, s.flight p = some f ∧ pickTask f.todo n = some (t, rest) ∧ perform s t.event = .ok (s1, v) ∧
      eventMove p n s = .next (s1.setPort p (.busy (f.advance t v rest)))) := by
  unfold eventMove
  rcases hf : s.flight p with _ | f
  · simp
  · rcases ht : pickTask f.todo n with _ | ⟨t, rest⟩
    · simp [ht]
    · rcases he : perform s t.event with e | ⟨s1, v⟩
      · simp [ht, he]
      · simp [ht, he]

/-- The words of the array under an event. -/
theorem perform_word {s s1 : State} {e : Event} {v : Word} (hp : perform s e = .ok (s1, v)) (g : Nat) :
    s1.word g = match e with
      | .atomicOr h m => if g = h then s.word h ||| m else s.word g
      | .store h x => if g = h then x else s.word g
      | _ => s.word g := by
  cases e with
  | atomicOr h m =>
    simp only [perform] at hp; split at hp
    · simp only [Except.ok.injEq, Prod.mk.injEq] at hp; obtain ⟨rfl, rfl⟩ := hp; exact State.word_putWord s h g _
    · cases hp
  | store h x =>
    simp only [perform] at hp; split at hp
    · simp only [Except.ok.injEq, Prod.mk.injEq] at hp; obtain ⟨rfl, rfl⟩ := hp; exact State.word_putWord s h g _
    · cases hp
  | atomicLoad | countLoad | atomicInc | countStore =>
    simp only [perform] at hp; split at hp
    · simp only [Except.ok.injEq, Prod.mk.injEq] at hp; obtain ⟨rfl, rfl⟩ := hp; rfl
    · cases hp
  | cfgWrite =>
    simp only [perform, Except.ok.injEq, Prod.mk.injEq] at hp; obtain ⟨rfl, rfl⟩ := hp; rfl

/-- A load returns the word and leaves the state alone. -/
theorem perform_atomicLoad {s s1 : State} {g : Nat} {v : Word} (hp : perform s (.atomicLoad g) = .ok (s1, v)) :
    s1 = s ∧ v = s.word g := by
  simp only [perform] at hp
  split at hp
  · simp only [Except.ok.injEq, Prod.mk.injEq] at hp; exact ⟨hp.1.symm, hp.2.symm⟩
  · cases hp

theorem and_or_self (a b : Word) : a &&& (a ||| b) = a := by
  ext i hi
  simp only [BitVec.getElem_and, BitVec.getElem_or]
  cases a[i] <;> simp

/-- A pending store half keeps every bit of its word through another task of its flight. -/
theorem FlightLegal.word_kept {s s1 : State} {f : Flight} {t : Task} {rest : List Task} {n : Nat} {v w : Word} {g : Nat}
    (h : FlightLegal s f) (hpick : pickTask f.todo n = some (t, rest)) (hp : perform s t.event = .ok (s1, v))
    (hx : Task.rmwStore g w ∈ rest) : s1.word g = s.word g := by
  obtain ⟨hmem, hsub⟩ := pickTask_mem hpick
  have hpl := (h.todo _ (hsub.subset hx)).plain rfl
  have ho := (h.todo _ (hsub.subset hx)).owner
  rw [perform_word hp]
  cases t with
  | setBit => exact absurd hpl.2 ((h.todo _ hmem).atomic rfl)
  | storeWord =>
    have := (h.todo _ hmem).owner
    simp only [Task.owners, List.mem_cons, List.not_mem_nil, or_false] at ho this
    rcases ho with ho | ho <;> rw [ho] at this <;> simp at this
  | rmwStore k u =>
    refine if_neg fun he => pickTask_store hpick h.stores_lead (g := g) ?_ hx rfl
    rw [he]; rfl
  | probe | rmwLoad | inc | countOnes | addCount | readWord | storeCount | writeCfg => rfl

/-- The flight that performs a task stays legal. -/
theorem FlightLegal.advance {s s1 : State} {f : Flight} {t : Task} {rest : List Task} {n : Nat} {v : Word}
    (h : FlightLegal s f) (hpick : pickTask f.todo n = some (t, rest)) (hp : perform s t.event = .ok (s1, v)) :
    FlightLegal s1 (f.advance t v rest) := by
  obtain ⟨hmem, hsub⟩ := pickTask_mem hpick
  have ho := h.todo t hmem
  have hpar := (perform_kept hp).1
  have hcfg := perform_cfg ho.owner hp
  have own : ∀ x, TaskOwned s f.req x → TaskOwned s1 f.req x := fun x hx => hx.congr hpar hcfg
  have keeps : ∀ g w, Task.rmwStore g w ∈ rest → s1.word g &&& w = s1.word g := fun g w hx => by
    rw [h.word_kept hpick hp hx]
    exact h.store_keeps g w (hsub.subset hx)
  unfold Flight.advance
  by_cases hl : ∃ g m, t = .rmwLoad g m
  · obtain ⟨g, m, rfl⟩ := hl
    obtain ⟨rfl, rfl⟩ := perform_atomicLoad hp
    refine FlightLegal.settle ?_ (fun x hx => h.second x hx) ?_ h.second_whole ?_
    · intro x hx
      rcases List.mem_cons.1 hx with rfl | hx
      · exact ⟨ho.legal, ho.owner, fun _ => ho.plain rfl, nofun⟩
      · exact h.todo x (hsub.subset hx)
    · refine List.pairwise_cons.2 ⟨fun x hx k hk => ⟨g, rfl, ?_⟩, h.stores_lead.sublist hsub⟩
      rintro rfl
      have := List.all_eq_true.1 (pickTask_eq_some hpick).2.1 x (hsub.subset hx)
      simp [hk] at this
    · intro g' v' hx
      rcases List.mem_cons.1 hx with he | hx
      · obtain ⟨rfl, rfl⟩ := Task.rmwStore.inj he
        exact and_or_self _ _
      · exact keeps g' v' hx
  · have hf : t.followUp v = none := by
      cases t <;> first | rfl | exact absurd ⟨_, _, rfl⟩ hl
    simp only [hf, Option.toList_none, List.nil_append]
    exact FlightLegal.settle (fun x hx => own x (h.todo x (hsub.subset hx))) (fun x hx => own x (h.second x hx))
      (h.stores_lead.sublist hsub) h.second_whole keeps

/-- The flight of a command just accepted is legal. -/
theorem FlightLegal.start {s : State} {r : Request} {prog : Program} (h : prog.Owned s (opByte r)) :
    FlightLegal s (startFlight r prog) :=
  FlightLegal.settle (fun t ht => (h.first t ht).owned) (fun t ht => (h.second t ht).owned)
    (stores_lead_of_none fun t ht => (h.first t ht).whole) (fun t ht => (h.second t ht).whole)
    fun _ _ hm => absurd (h.first _ hm).whole nofun

/-! ## The invariant's parts -/

/-- A command whose other commands in flight are all NOPs where it is exclusive or the configuration is plain. -/
theorem flightInv_event {s s1 : State} {p n : Nat} {f : Flight} {t : Task} {rest : List Task} {v : Word}
    (h : FlightInv s) (hf : s.flight p = some f) (hpick : pickTask f.todo n = some (t, rest))
    (hp : perform s t.event = .ok (s1, v)) : FlightInv (s1.setPort p (.busy (f.advance t v rest))) := by
  have hk := perform_kept hp
  have hfl := h.flights p f hf
  have ho := hfl.todo t (pickTask_mem hpick).1
  have hlt : p < s1.ports.length := by rw [hk.2.1]; exact flight_lt hf
  have other : ∀ q, q ≠ p → (s1.setPort p (.busy (f.advance t v rest))).flight q = s.flight q := fun q hq => by
    rw [flight_setPort_ne _ _ hq, flight_congr hk.2.1]
  have self : (s1.setPort p (.busy (f.advance t v rest))).flight p = some (f.advance t v rest) :=
    flight_setPort_busy s1 _ hlt
  have cfg_of : ∀ q g, q ≠ p → s.flight q = some g → isNop g.req = false → s1.cfg = s.cfg := by
    intro q g hq hg hn
    refine (perform_cfg ho.owner hp).resolve_right fun h0 => ?_
    have := (h.no_overlap p q f g (Ne.symm hq) hf hg ho.not_nop hn).1
    rw [isExclusive_eq, h0] at this
    cases this
  refine ⟨fun q g hg => ?_, ?_⟩
  · by_cases hq : q = p
    · subst hq
      rw [self] at hg
      obtain rfl := Option.some.inj hg
      exact FlightLegal.congr (s := s1) (hfl.advance hpick hp) rfl (fun _ => rfl) (fun _ _ _ => rfl)
    · rw [other q hq] at hg
      refine (h.flights q g hg).congr hk.1 (cfg_of q g hq hg) fun hn hu x => ?_
      exact absurd hu (h.no_overlap p q f g (Ne.symm hq) hf hg ho.not_nop hn).2.2
  · refine h.no_overlap.congr (fun q g hg => ?_) fun a b x y hab hx hy nx ny => ?_
    · by_cases hq : q = p
      · subst hq
        rw [self] at hg
        obtain rfl := Option.some.inj hg
        exact ⟨f, hf, by simp [Flight.advance]⟩
      · rw [other q hq] at hg
        exact ⟨g, hg, rfl⟩
    · by_cases ha : a = p
      · exact cfg_of b y (by rw [← ha]; exact hab.symm) hy ny
      · exact cfg_of a x ha hx nx

/-- Performing a command's own tasks beside the commands in flight keeps them legal (R71). -/
theorem flightInv_tasks {s s1 : State} {op : BitVec 8} {r : Request} (h : FlightInv s)
    (ho : (overlapFaults s r).stuck = none) (hop : opByte r = op) {l : List Task} (hl : ∀ t ∈ l, op ∈ t.owners)
    (h1 : s1.params = s.params) (h2 : s1.ports = s.ports) (h3 : s1.cfg = (tasksEffect s l).cfg)
    (h4 : ∀ g, s1.word g = (tasksEffect s l).word g) : FlightInv s1 := by
  rcases l with _ | ⟨t, l⟩
  · refine ⟨fun q g hg => ?_, h.no_overlap.congr (fun q g hg => ⟨g, by rwa [← flight_congr h2], rfl⟩)
      fun _ _ _ _ _ _ _ _ _ => h3⟩
    exact (h.flights q g (by rwa [← flight_congr h2])).congr h1 (fun _ => h3) fun _ _ => h4
  · have hr : isNop r = false := by
      refine isNop_eq_false fun h0 => ?_
      have := hl t (by simp)
      rw [← hop, h0] at this
      cases t <;> simp [Task.owners] at this
    have cfg_of : ∀ q g, s.flight q = some g → isNop g.req = false → s1.cfg = s.cfg := by
      intro q g hg hn
      rw [h3]
      refine (tasksEffect_cfg_of_op hl).elim (fun h => h.1) fun h0 => ?_
      have := (overlapFaults_none ho hg hr hn).1
      rw [isExclusive_eq, hop, h0] at this
      cases this
    refine ⟨fun q g hg => ?_, ?_⟩
    · rw [flight_congr h2] at hg
      refine (h.flights q g hg).congr h1 (cfg_of q g hg) fun hn hu x => ?_
      exact absurd hu (overlapFaults_none ho hg hr hn).2.2
    · exact h.no_overlap.congr (fun q g hg => ⟨g, by rwa [← flight_congr h2], rfl⟩)
        fun a b x y _ hx _ nx _ => cfg_of a x hx nx

/-- A request accepted without a fault is in flight beside the others. -/
theorem flightInv_accept {s : State} {p : Nat} {r : Request} {prog : Program} (h : FlightInv s)
    (hc : s.canAccept p = true) (ho : (overlapFaults s r).stuck = none) (hown : prog.Owned s (opByte r)) :
    FlightInv (s.accepted p r prog) := by
  have other : ∀ q, q ≠ p → (s.accepted p r prog).flight q = s.flight q := fun q hq =>
    (flight_congr rfl q).trans (flight_setPort_ne s _ hq)
  have self : (s.accepted p r prog).flight p = some (startFlight r prog) :=
    (flight_congr rfl p).trans (flight_setPort_busy s _ (canAccept_lt hc))
  refine ⟨fun q g hg => ?_, fun a b x y hab hx hy nx ny => ?_⟩
  · by_cases hq : q = p
    · subst hq
      rw [self] at hg
      obtain rfl := Option.some.inj hg
      exact (FlightLegal.start hown).congr rfl (fun _ => rfl) fun _ _ _ => rfl
    · rw [other q hq] at hg
      exact (h.flights q g hg).congr rfl (fun _ => rfl) fun _ _ _ => rfl
  · have hreq : (startFlight r prog).req = r := by simp [startFlight]
    by_cases ha : a = p
    · subst ha
      rw [self] at hx
      obtain rfl := Option.some.inj hx
      rw [other b hab.symm] at hy
      rw [hreq] at nx ⊢
      exact overlapFaults_none ho hy nx ny
    · rw [other a ha] at hx
      by_cases hb : b = p
      · subst hb
        rw [self] at hy
        obtain rfl := Option.some.inj hy
        rw [hreq] at ny ⊢
        obtain ⟨h1, h2, h3⟩ := overlapFaults_none ho hx ny nx
        exact ⟨h2, h1, h3⟩
      · rw [other b hb] at hy
        exact h.no_overlap a b x y hab hx hy nx ny

/-! ## Contents after the reset wire -/

theorem normalCells_wf {w : Nat} (n : Nat) (c : List (Nat × BitVec w)) :
    cellsWf (normalCells n c) = true ∧ cellsBelow n (normalCells n c) = true := by
  have key : ∀ (c acc : List (Nat × BitVec w)), cellsWf acc = true → cellsBelow n acc = true →
      cellsWf (c.foldl (fun acc x => if x.1 < n then cellPut acc x.1 x.2 else acc) acc) = true ∧
        cellsBelow n (c.foldl (fun acc x => if x.1 < n then cellPut acc x.1 x.2 else acc) acc) = true := by
    intro c
    induction c with
    | nil => intro acc h1 h2; exact ⟨h1, h2⟩
    | cons x c ih =>
      intro acc h1 h2
      rw [List.foldl_cons]
      split
      · exact ih _ (cellsWf_put h1 _ _) (cellsBelow_put h2 (by assumption) _)
      · exact ih _ h1 h2
  exact key c [] rfl rfl

theorem resetWith_flight (p : Params) (u : Residue) (q : Nat) : (State.resetWith p u).flight q = none := by
  unfold State.flight
  rw [show (State.resetWith p u).ports = List.replicate p.nports Port.idle from rfl, List.getElem?_replicate]
  by_cases hq : q < p.nports <;> simp [hq]

theorem resetWith_storage {p : Params} (hp : p.Legal) (u : Residue) :
    StorageInv (State.resetWith p (Residue.normal p u)) := by
  refine ⟨hp, fun h => (Bool.false_ne_true h).elim, (normalCells_wf _ _).1, (normalCells_wf _ _).2,
    (normalCells_wf _ _).1, (normalCells_wf _ _).2, ?_⟩
  exact List.length_replicate ..

end Sys2Proof.Machine
end

