-- ==== Sys2Proof/Laws/Exec.lean ====
section
/-! SUPPORT. Whole commands and steps: the status of a program, what `exec` answers on a ready port, what a step does with the next move, and runs of several steps. -/

namespace Sys2Proof.Machine

/-! ## Programs -/

theorem gate_of_valid {s : State} (h : s.cfg.valid = true) (p : Program) : gate s p = p := by simp [gate, h]

/-- Whatever holds of the program behind the gate and of E_UNCONFIGURED holds of the gated program (R180). -/
theorem gate_induction {s : State} {p : Program} (P : Program → Prop) (h1 : s.cfg.valid = true → P p)
    (h2 : s.cfg.valid = false → P (.raise .unconfigured)) : P (gate s p) := by
  unfold gate
  split
  · exact h1 ‹_›
  · rename_i h; exact h2 (by simpa using h)

/-- Whatever holds of the program behind a check and of its error holds of the checked program. -/
theorem unlessThen_induction {b : Bool} {st : Status} {p : Program} (P : Program → Prop) (h1 : b = true → P p)
    (h2 : b = false → P (.raise st)) : P (unlessThen b st p) := by
  unfold unlessThen
  split
  · exact h1 ‹_›
  · rename_i h; exact h2 (by simpa using h)

/-- The program of RDCFG's WIDTH selectors (R282). -/
theorem rdcfgProgram_width (s : State) {i : Nat} (hi : i < 14) :
    rdcfgProgram (BitVec.ofNat 8 (0x10 + i)) s = gate s (partitionProgram s i (s.width i)) := by
  interval_cases i <;> rfl

/-- The program of RDCFG's OFFSET selectors (R282). -/
theorem rdcfgProgram_offset (s : State) {i : Nat} (hi : i < 14) :
    rdcfgProgram (BitVec.ofNat 8 (0x20 + i)) s = gate s (partitionProgram s i (s.offset i)) := by
  interval_cases i <;> rfl

/-- A program either responds OK or is an error and nothing else (R346). -/
theorem program_ok_or_raise (i : Instr) (s : State) :
    (program i s).status = .ok ∨ ∃ st, program i s = .raise st := by
  have hraise : ∀ st, (Program.raise st).status = .ok ∨ ∃ st', Program.raise st = Program.raise st' :=
    fun st => .inr ⟨st, rfl⟩
  have hgate : ∀ {p : Program}, (p.status = .ok ∨ ∃ st, p = .raise st) →
      (gate s p).status = .ok ∨ ∃ st, gate s p = .raise st :=
    fun h => gate_induction (fun p => p.status = .ok ∨ ∃ st, p = .raise st) (fun _ => h) fun _ => hraise _
  have hcheck : ∀ {b : Bool} {st : Status} {p : Program}, (p.status = .ok ∨ ∃ st, p = .raise st) →
      (unlessThen b st p).status = .ok ∨ ∃ st', unlessThen b st p = .raise st' :=
    fun h => unlessThen_induction (fun p => p.status = .ok ∨ ∃ st, p = .raise st) (fun _ => h) fun _ => hraise _
  cases i with
  | nop => exact .inl rfl
  | add h | test h | testadd h | clear => exact hgate (.inl rfl)
  | popcnt a x | rdcount a x | wrcount x v | rdword x w | wrword x w v => exact hgate (hcheck (.inl rfl))
  | config v k l b =>
    show (configProgram v k l b s).status = .ok ∨ ∃ st, configProgram v k l b s = .raise st
    unfold configProgram
    split
    · exact hraise _
    · exact hcheck (.inl rfl)
  | rdcfg sel =>
    show (rdcfgProgram sel s).status = .ok ∨ ∃ st, rdcfgProgram sel s = .raise st
    unfold rdcfgProgram
    split
    · split
      iterate 4 exact .inl rfl
      refine hgate ?_
      unfold configuredProgram
      split
      iterate 6 exact .inl rfl
      split <;> exact hcheck (.inl rfl)
    · exact hraise _

/-- A request's program depends on the parameters, the configuration and the partition registers only. -/
theorem program_congr (i : Instr) {s t : State} (h0 : t.params = s.params) (h1 : t.cfg = s.cfg) (h2 : t.pw = s.pw)
    (h3 : t.po = s.po) : program i t = program i s := by
  cases s; cases t
  simp only at h0 h1 h2 h3
  subst h0 h1 h2 h3
  cases i <;> rfl

theorem requestProgram_congr (r : Request) {s t : State} (h0 : t.params = s.params) (h1 : t.cfg = s.cfg)
    (h2 : t.pw = s.pw) (h3 : t.po = s.po) : requestProgram r t = requestProgram r s := by
  unfold requestProgram
  split
  · exact program_congr _ h0 h1 h2 h3
  · rfl

/-! ## Commands -/

/-- A command that answers a next state has run its two parts and delivered its response. -/
theorem runCommand_next {p : Nat} {prog : Program} {s t : State} (h : runCommand p prog s = .next t) :
    ∃ s1 d1 s2 d2, runTasks s prog.first [] = .ok (s1, d1) ∧ runTasks s1 (prog.rest d1) d1 = .ok (s2, d2) ∧
      t = s2.deliver p prog.status (prog.data d2) := by
  unfold runCommand at h
  rcases e1 : runTasks s prog.first [] with e | ⟨s1, d1⟩
  · rw [e1] at h; cases h
  · rw [e1] at h; dsimp only at h
    rcases e2 : runTasks s1 (prog.rest d1) d1 with e | ⟨s2, d2⟩
    · rw [e2] at h; cases h
    · rw [e2] at h; injection h with h
      exact ⟨s1, d1, s2, d2, rfl, e2, h.symm⟩

/-- What `exec` answers on a ready port of a legal state. -/
theorem exec_of_ready {i : Instr} {s : State} (h : Ready i s) (hs : StorageInv s) :
    exec i s = .next ((tasksEffect (tasksEffect s (program i s).first)
      ((program i s).rest (tasksRecords s (program i s).first []))).deliver s.grant (program i s).status
        ((program i s).data (tasksRecords (tasksEffect s (program i s).first)
          ((program i s).rest (tasksRecords s (program i s).first [])) (tasksRecords s (program i s).first [])))) := by
  have ho := program_owned hs i
  rw [exec_eq, serve_of_ready _ h.unfaulted h.idle h.alone,
    runCommand_eq _ (fun t ht => (ho.first t ht).legal) (fun t ht => (ho.second t ht).legal)]

/-- What `exec` has done when it answers a next state on a ready port. -/
theorem exec_next_of_ready {i : Instr} {s t : State} (h : Ready i s) (he : exec i s = .next t) :
    ∃ s1 d1 s2 d2, runTasks s (program i s).first [] = .ok (s1, d1) ∧
      runTasks s1 ((program i s).rest d1) d1 = .ok (s2, d2) ∧
      t = s2.deliver s.grant (program i s).status ((program i s).data d2) := by
  rw [exec_eq, serve_of_ready _ h.unfaulted h.idle h.alone] at he
  exact runCommand_next he

/-- A command without events only responds. -/
theorem exec_of_no_tasks {i : Instr} {s : State} {p : Program} (h : Ready i s) (hp : program i s = p)
    (h1 : p.first = []) (h2 : p.second = []) : exec i s = .next (s.deliver s.grant p.status (p.data [])) := by
  rw [exec_eq, serve_of_ready _ h.unfaulted h.idle h.alone, hp]
  simp [runCommand, h1, runTasks, Program.rest, h2]

/-- `popcount` is the number of bit positions that hold a 1 (R11). -/
theorem popcount_eq_card (w : Word) : popcount w = ((Finset.range 64).filter fun j => w.getLsbD j = true).card := by
  unfold popcount
  rw [List.countP_eq_length_filter]
  show _ = Multiset.card (Multiset.filter (fun j => w.getLsbD j = true) (Multiset.ofList (List.range 64)))
  rw [Multiset.filter_coe, Multiset.coe_card]
  simp

/-! ## Steps -/

/-- A step makes the next move of the schedule. -/
theorem step_of_sched {s : State} {m : Move} {rest : List Move} (hn : s.faults.stuck = none)
    (hs : s.sched = m :: rest) : step s = runMove m { s with sched := rest } := by
  unfold step stepMove
  rw [hn, hs]

/-- The same, of a state given with its schedule. -/
theorem step_with_sched {s : State} {m : Move} {rest : List Move} (hn : s.faults.stuck = none) :
    step { s with sched := m :: rest } = runMove m { s with sched := rest } :=
  step_of_sched (s := { s with sched := m :: rest }) hn rfl

/-- A step of a faulted state stops (R350). -/
theorem step_of_stuck {s : State} {e : Fault} (hn : s.faults.stuck = some e) : step s = .fault e := by
  unfold step stepMove
  rw [hn]

/-- A step with nothing to do leaves the state as it is. -/
theorem step_of_nil {s : State} (hn : s.faults.stuck = none) (hs : s.sched = []) : step s = .next s := by
  unfold step stepMove
  rw [hn, hs]

/-! ## Runs -/

theorem run_succ (n : Nat) {s t : State} (h : step s = .next t) :
    Host.Core.run Sys2Proof.core (n + 1) s = Host.Core.run Sys2Proof.core n t := by
  have h : Sys2Proof.core.step s = .next t := h
  simp only [Host.Core.run]
  rw [h]

theorem run_add (a b : Nat) (s t : State) (h : Host.Core.run Sys2Proof.core a s = .next t) :
    Host.Core.run Sys2Proof.core (a + b) s = Host.Core.run Sys2Proof.core b t := by
  induction a generalizing s with
  | zero => cases h; rw [Nat.zero_add]
  | succ a ih =>
    rw [Nat.succ_add]
    simp only [Host.Core.run] at h ⊢
    rcases hs : Sys2Proof.core.step s with s' | e | e
    · rw [hs] at h; exact ih s' h
    · rw [hs] at h; cases h
    · rw [hs] at h; cases h

end Sys2Proof.Machine
end

