-- ==== Sys2Proof/Laws/HostSide.lean ====
section
/-! SUPPORT. What the operations of the host's side can do: the exponent of a shard count, the k of a construction, and the decoding of an image into the engine. -/

namespace Sys2Proof.Machine

/-- With fuel enough, `exponentFrom` answers the smallest exponent, from `e` on, whose power of two reaches `n` (R305). -/
theorem exponentFrom_spec (n : Nat) : ∀ fuel e, n ≤ 2 ^ (e + fuel) →
    n ≤ 2 ^ exponentFrom n fuel e ∧ ∀ m, e ≤ m → n ≤ 2 ^ m → exponentFrom n fuel e ≤ m := by
  intro fuel
  induction fuel with
  | zero => exact fun e h => ⟨h, fun m hm _ => hm⟩
  | succ fuel ih =>
    intro e h
    unfold exponentFrom
    split
    · exact ⟨‹_›, fun m hm _ => hm⟩
    · rename_i hn
      obtain ⟨a, b⟩ := ih (e + 1) (by rwa [Nat.add_right_comm])
      refine ⟨a, fun m hm hnm => b m (Nat.lt_of_le_of_ne hm ?_) hnm⟩
      rintro rfl
      exact hn hnm

/-- `nextPow2 n` is a power of two at or above `n`, and no smaller power of two is (R305). -/
theorem nextPow2_spec (n : Nat) : n ≤ nextPow2 n ∧ ∀ m, n ≤ 2 ^ m → nextPow2 n ≤ 2 ^ m := by
  obtain ⟨a, b⟩ := exponentFrom_spec n n 0 (by rw [Nat.zero_add]; exact Nat.lt_two_pow_self.le)
  exact ⟨a, fun m h => Nat.pow_le_pow_right (by decide) (b m (Nat.zero_le m) h)⟩

/-- Whatever k the host is given, the engine configures it as it is from 3 to 14, and as 7 outside (R304, R277; log
entry 24 for 16 and above). -/
theorem correctK_requestedK (k : Nat) :
    (correctK (requestedK k)).toNat = if 3 ≤ k ∧ k ≤ 14 then k else 7 := by
  by_cases h : k < 16
  · interval_cases k <;> rfl
  · rw [requestedK, if_neg h, if_neg (by omega)]
    rfl

/-- What the checks of R313 leave of an image they pass. -/
theorem decodeImage_ok {bytes : List Byte} {img : Image} (h : decodeImage bytes = .ok img) :
    3 ≤ img.k ∧ img.k ≤ 14 ∧ 1 ≤ img.blockCount ∧ img.blockCount < 2 ^ 50 ∧
      bytes.length = 21 + img.blockCount * 64 := by
  unfold decodeImage at h
  dsimp only at h
  iterate 5 (split at h; · cases h)
  cases h
  dsimp only
  omega

/-- A filter is loaded only where the checks of R313 pass, CONFIG responds OK and every command after it is served (R314). -/
theorem loadImage_ok {bytes : List Byte} {s u : State} (h : loadImage bytes s = .ok u) :
    ∃ img t, decodeImage bytes = .ok img ∧ exec (imageConfig img) s = .next t ∧ respondedOk s t = true ∧
      runCommands (imageContents img) t = .next u := by
  unfold loadImage at h
  rcases hd : decodeImage bytes with e | img <;> rw [hd] at h
  · cases h
  dsimp only [restoreImage] at h
  rcases he : exec (imageConfig img) s with t | e | e <;> rw [he] at h
  · dsimp only at h
    split at h
    · rename_i hr
      rcases hc : runCommands (imageContents img) t with u' | e | e <;> rw [hc] at h <;> cases h
      exact ⟨img, t, rfl, he, hr, hc⟩
    · cases h
  · cases h
  · cases h

end Sys2Proof.Machine
end

