-- ==== Sys2Proof/Laws/Params.lean ====
section
/-! SUPPORT. The parameters of spec/95_test_vectors.md are legal (R9, R146). -/

namespace Sys2Proof

theorem primesLegal_of_even {k : Nat} {row : List (BitVec 10)} (h : k % 2 = 0)
    (hp : ∀ w ∈ row, Nat.Prime w.toNat) : PrimesLegal k row := by
  simpa [PrimesLegal, h] using hp

theorem primesLegal_of_filler {k : Nat} {row : List (BitVec 10)} (f : BitVec 10) (h : k % 2 = 1) (hf : f ∈ row)
    (he : f.toNat % 2 = 0) (hn : ¬ Nat.Prime f.toNat) (hp : ∀ w ∈ row, w ≠ f → Nat.Prime w.toNat) :
    PrimesLegal k row := by
  simp only [PrimesLegal, h]
  exact ⟨f, hf, he, hn, hp⟩

theorem reference_row_3 : RowLegal 3 [167, 172, 173] :=
  ⟨rfl, by decide, by decide, by decide, primesLegal_of_filler 172 rfl (by decide) (by decide) (by simp; norm_num) (by simp; norm_num)⟩

theorem reference_row_4 : RowLegal 4 [109, 127, 137, 139] :=
  ⟨rfl, by decide, by decide, by decide, primesLegal_of_even rfl (by simp; norm_num)⟩

theorem reference_row_5 : RowLegal 5 [97, 101, 103, 104, 107] :=
  ⟨rfl, by decide, by decide, by decide, primesLegal_of_filler 104 rfl (by decide) (by decide) (by simp; norm_num) (by simp; norm_num)⟩

theorem reference_row_6 : RowLegal 6 [71, 73, 79, 89, 97, 103] :=
  ⟨rfl, by decide, by decide, by decide, primesLegal_of_even rfl (by simp; norm_num)⟩

theorem reference_row_7 : RowLegal 7 [61, 67, 71, 73, 78, 79, 83] :=
  ⟨rfl, by decide, by decide, by decide, primesLegal_of_filler 78 rfl (by decide) (by decide) (by simp; norm_num) (by simp; norm_num)⟩

theorem reference_row_8 : RowLegal 8 [43, 47, 59, 61, 67, 73, 79, 83] :=
  ⟨rfl, by decide, by decide, by decide, primesLegal_of_even rfl (by simp; norm_num)⟩

theorem reference_row_9 : RowLegal 9 [41, 43, 47, 53, 59, 61, 67, 70, 71] :=
  ⟨rfl, by decide, by decide, by decide, primesLegal_of_filler 70 rfl (by decide) (by decide) (by simp; norm_num) (by simp; norm_num)⟩

theorem reference_row_10 : RowLegal 10 [31, 37, 41, 43, 47, 53, 59, 61, 67, 73] :=
  ⟨rfl, by decide, by decide, by decide, primesLegal_of_even rfl (by simp; norm_num)⟩

theorem reference_row_11 : RowLegal 11 [29, 31, 37, 41, 43, 44, 47, 53, 59, 61, 67] :=
  ⟨rfl, by decide, by decide, by decide, primesLegal_of_filler 44 rfl (by decide) (by decide) (by simp; norm_num) (by simp; norm_num)⟩

theorem reference_row_12 : RowLegal 12 [17, 23, 29, 31, 37, 41, 43, 47, 53, 59, 61, 71] :=
  ⟨rfl, by decide, by decide, by decide, primesLegal_of_even rfl (by simp; norm_num)⟩

theorem reference_row_13 : RowLegal 13 [17, 19, 23, 29, 31, 37, 41, 43, 47, 52, 53, 59, 61] :=
  ⟨rfl, by decide, by decide, by decide, primesLegal_of_filler 52 rfl (by decide) (by decide) (by simp; norm_num) (by simp; norm_num)⟩

theorem reference_row_14 : RowLegal 14 [7, 11, 13, 19, 23, 31, 37, 41, 43, 47, 53, 59, 61, 67] :=
  ⟨rfl, by decide, by decide, by decide, primesLegal_of_even rfl (by simp; norm_num)⟩

/-- The parameters `State.reset` takes are legal. -/
theorem reference_legal : Params.reference.Legal where
  nports_pos := by decide
  capBlocks_pos := by decide
  capBlocks_lt := by decide
  log2nmax_le := by decide
  table_length := rfl
  rows := by
    intro i hi
    interval_cases i
    exacts [reference_row_3, reference_row_4, reference_row_5, reference_row_6, reference_row_7, reference_row_8,
      reference_row_9, reference_row_10, reference_row_11, reference_row_12, reference_row_13, reference_row_14]

end Sys2Proof
end

