-- ==== Sys2Proof/Laws/PerInstr.lean ====
section
/-! SUPPORT. Per instruction: the word a command is encoded to selects its own row of the match and mask table (R110). -/

namespace Sys2Proof.Laws.EncodeRow

/-- The encoding of a well-formed command selects the row of R110 the command belongs to. -/
def Statement (i : Instr) : Prop :=
  i.wellFormed = true → ∃ row, opRows[i.rowIndex]? = some row ∧ row.selects (encode i).cmd = true

theorem nop : Statement .nop := fun _ => ⟨_, rfl, rfl⟩
theorem add (h : Word) : Statement (.add h) :=
  fun _ => ⟨_, rfl, (by decide : (cmdNP 0x01 &&& 0xFFFFFFFF == 0x00000001) = true)⟩
theorem test (h : Word) : Statement (.test h) :=
  fun _ => ⟨_, rfl, (by decide : (cmdNP 0x02 &&& 0xFFFFFFFF == 0x00000002) = true)⟩
theorem testadd (h : Word) : Statement (.testadd h) :=
  fun _ => ⟨_, rfl, (by decide : (cmdNP 0x03 &&& 0xFFFFFFFF == 0x00000003) = true)⟩
theorem clear : Statement .clear := fun _ => ⟨_, rfl, rfl⟩
theorem popcnt (all : Bool) (shard : BitVec 16) : Statement (.popcnt all shard) :=
  fun _ => ⟨_, rfl, cmdS_mask 0x05 all shard⟩
theorem rdcount (all : Bool) (shard : BitVec 16) : Statement (.rdcount all shard) :=
  fun _ => ⟨_, rfl, cmdS_mask 0x06 all shard⟩
theorem wrcount (shard : BitVec 16) (cval : Word) : Statement (.wrcount shard cval) :=
  fun _ => ⟨_, rfl, cmdS_mask_noAll 0x07 shard⟩
theorem rdword (shard : BitVec 16) (widx : Word) : Statement (.rdword shard widx) :=
  fun _ => ⟨_, rfl, cmdS_mask_noAll 0x08 shard⟩
theorem wrword (shard : BitVec 16) (widx wval : Word) : Statement (.wrword shard widx wval) :=
  fun _ => ⟨_, rfl, cmdS_mask_noAll 0x09 shard⟩
theorem config (varreq : BitVec 2) (kreq : BitVec 4) (log2nreq : BitVec 5) (breq : Word) :
    Statement (.config varreq kreq log2nreq breq) :=
  fun _ => ⟨_, rfl, cmdC_mask varreq kreq log2nreq⟩
theorem rdcfg (sel : BitVec 8) : Statement (.rdcfg sel) := fun _ => ⟨_, rfl, cmdR_mask sel⟩

end Sys2Proof.Laws.EncodeRow
end

