-- ==== Sys2Proof/Machine/Assembler.lean ====
section
/-! DEFINITION. The textual syntax of R113: one command per line, operands parted by commas, numbers decimal or hexadecimal, a comment after a semicolon, an optional port prefix. What the spec leaves open of it is log entry 20. -/

namespace Sys2Proof.Machine

/-- A blank: a space or a tab. DESIGN CHOICE: R113 names no blank characters (log entry 20). -/
def isBlank (c : Char) : Bool := c == ' ' || c == '\t'

/-- The text without blanks at its ends. -/
def trim (text : List Char) : List Char := ((text.dropWhile isBlank).reverse.dropWhile isBlank).reverse

/-- The operands of a list parted by commas; `cur` holds the one being read, last character first. -/
def splitCommas (cur : List Char) : List Char → List (List Char)
  | [] => [cur.reverse]
  | c :: t => if c == ',' then cur.reverse :: splitCommas [] t else splitCommas (c :: cur) t

/-- The mnemonic is parted from its operands by a blank, and the operands from one another by commas, with blanks
allowed around them (R113). -/
def splitCommand (text : List Char) : List Char × List (List Char) :=
  let body := trim text
  let operands := trim (body.dropWhile fun c => !isBlank c)
  (body.takeWhile fun c => !isBlank c, if operands.isEmpty then [] else (splitCommas [] operands).map trim)

/-- The line without its comment. -/
def dropComment (line : List Char) : List Char := line.takeWhile (· != ';')

/-- The value of a digit in base `base`. DESIGN CHOICE: a hexadecimal digit may be a capital or a small letter (log
entry 20). -/
def digitValue (base : Nat) (c : Char) : Option Nat :=
  let n := c.toNat
  let v := if 48 ≤ n ∧ n ≤ 57 then n - 48
    else if 65 ≤ n ∧ n ≤ 70 then n - 55
    else if 97 ≤ n ∧ n ≤ 102 then n - 87
    else base
  if v < base then some v else none

/-- The number of a digit string, `acc` read so far. -/
def digitsValue (base acc : Nat) : List Char → Option Nat
  | [] => some acc
  | c :: t =>
    match digitValue base c with
    | some v => digitsValue base (base * acc + v) t
    | none => none

/-- A number, decimal or hexadecimal with the prefix 0x (R113). -/
def numberValue : List Char → Option Nat
  | [] => none
  | ['0', 'x'] => none
  | '0' :: 'x' :: t => digitsValue 16 0 t
  | t => digitsValue 10 0 t

/-- A number below `bound`. DESIGN CHOICE: a number too wide for its field is refused and not truncated, of which R113
says nothing (log entry 20). -/
def number (bound : Nat) (word : List Char) : Option Nat := (numberValue word).filter (· < bound)

/-- A 64-bit operand. -/
def wordOperand (word : List Char) : Option Word := (number (2 ^ 64) word).map (BitVec.ofNat 64)

/-- A shard number. -/
def shardOperand (word : List Char) : Option (BitVec 16) := (number (2 ^ 16) word).map (BitVec.ofNat 16)

/-- The ALL flag and shard of POPCNT and RDCOUNT: a star stands for all shards, encoded with SHARD 0. -/
def aggregateOperand (word : List Char) : Option (Bool × BitVec 16) :=
  if word = ['*'] then some (true, 0) else (shardOperand word).map fun s => (false, s)

/-- The variant names of CONFIG. -/
def variantOperand (word : List Char) : Option (BitVec 2) :=
  if word = "UNSYNC".toList then some 0
  else if word = "ATOMIC".toList then some 1
  else if word = "SHARDED".toList then some 2
  else none

/-- A command and its operands. -/
def parseCommand (mnemonic : List Char) (args : List (List Char)) : Option Instr :=
  match args with
  | [] =>
    if mnemonic = "NOP".toList then some .nop
    else if mnemonic = "CLEAR".toList then some .clear
    else none
  | [a] =>
    if mnemonic = "ADD".toList then (wordOperand a).map .add
    else if mnemonic = "TEST".toList then (wordOperand a).map .test
    else if mnemonic = "TESTADD".toList then (wordOperand a).map .testadd
    else if mnemonic = "POPCNT".toList then (aggregateOperand a).map fun x => .popcnt x.1 x.2
    else if mnemonic = "RDCOUNT".toList then (aggregateOperand a).map fun x => .rdcount x.1 x.2
    else if mnemonic = "RDCFG".toList then
      ((number 256 a).map (BitVec.ofNat 8)).bind fun sel => if validSel sel then some (.rdcfg sel) else none
    else none
  | [a, b] =>
    if mnemonic = "WRCOUNT".toList then
      (shardOperand a).bind fun s => (wordOperand b).map fun v => .wrcount s v
    else if mnemonic = "RDWORD".toList then
      (shardOperand a).bind fun s => (wordOperand b).map fun w => .rdword s w
    else none
  | [a, b, c] =>
    if mnemonic = "WRWORD".toList then
      (shardOperand a).bind fun s => (wordOperand b).bind fun w => (wordOperand c).map fun v => .wrword s w v
    else none
  | [a, b, c, d] =>
    if mnemonic = "CONFIG".toList then
      (variantOperand a).bind fun var => (number 16 b).bind fun k => (number 32 c).bind fun l =>
        (wordOperand d).map fun n => .config var (BitVec.ofNat 4 k) (BitVec.ofNat 5 l) n
    else none
  | _ => none

/-- The pseudo-commands of R114. -/
def parsePseudo (mnemonic : List Char) (args : List (List Char)) : Option Instr :=
  match args with
  | [] =>
    if mnemonic = "CAP".toList then some .cap
    else if mnemonic = "GETK".toList then some .getk
    else if mnemonic = "NUMBLOCKS".toList then some .numblocks
    else if mnemonic = "NUMSHARDS".toList then some .numshards
    else if mnemonic = "COUNT".toList then some .count
    else if mnemonic = "FILL".toList then some .fill
    else none
  | _ :: _ => none

/-- A command or pseudo-command (R113, R114). -/
def parseLine (text : List Char) : Option Instr :=
  let c := splitCommand text
  (parseCommand c.1 c.2).or (parsePseudo c.1 c.2)

/-- The port a line names with a prefix `p<n>:`, `<n>` a number, and the rest of the line; port 0 without a prefix
(R113). DESIGN CHOICE: blanks may stand before the prefix and after it, and none need; none may stand inside it; the
port is not held against NPORTS, which the text does not name (log entry 20). -/
def portPrefix (line : List Char) : Option (Nat × List Char) :=
  match line.dropWhile isBlank with
  | 'p' :: t =>
    if t.contains ':' then
      (numberValue (t.takeWhile (· != ':'))).map fun p => (p, (t.dropWhile (· != ':')).tail)
    else none
  | text => some (0, text)

/-- The command of a line with the port that issues it (R113). A line with no command, such as a comment alone, gives
none. -/
def assemble (line : List Char) : Option (Nat × Instr) :=
  (portPrefix (dropComment line)).bind fun x => (parseLine x.2).map fun i => (x.1, i)

end Sys2Proof.Machine
end

