-- ==== Sys2Proof/Tests/Slice0.lean ====
section
/-! SUPPORT. The model's own tests: one step each, with results taken from the worked examples of spec/, and a witness for the hypotheses of each statement. -/

namespace Sys2Proof.Tests

open Sys2Proof.Machine

-- Each evaluation below would otherwise hold a thread of its own.
set_option Elab.async false

/-! ## Ill-formed commands are refused -/

theorem test_illformed_varreq : (Instr.config 3 3 0 4).wellFormed = false := by decide
theorem test_illformed_sel_above_params : (Instr.rdcfg 0x0A).wellFormed = false := by decide
theorem test_illformed_sel_above_widths : (Instr.rdcfg 0x1E).wellFormed = false := by decide
theorem test_illformed_sel_above_offsets : (Instr.rdcfg 0x2E).wellFormed = false := by decide

/-! ## Words of the encoding tables (R103 to R107, R113, 95 section 2.14) -/

theorem test_decode_nop : decode ⟨0x00000000, 7, 8⟩ = .ok .nop := by decide
theorem test_decode_add : decode ⟨0x00000001, 0x0123456789ABCDEF, 0⟩ = .ok (.add 0x0123456789ABCDEF) := by decide
theorem test_decode_test : decode ⟨0x00000002, 9, 0⟩ = .ok (.test 9) := by decide
theorem test_decode_testadd : decode ⟨0x00000003, 9, 0⟩ = .ok (.testadd 9) := by decide
theorem test_decode_clear : decode ⟨0x00000004, 0, 0⟩ = .ok .clear := by decide
theorem test_decode_popcnt_all : decode ⟨0x00000105, 0, 0⟩ = .ok (.popcnt true 0) := by decide
theorem test_decode_popcnt : decode ⟨0x00010005, 0, 0⟩ = .ok (.popcnt false 1) := by decide
theorem test_decode_rdcount : decode ⟨0xABCD0006, 0, 0⟩ = .ok (.rdcount false 0xABCD) := by decide
theorem test_decode_rdcount_all : decode ⟨0x00000106, 0, 0⟩ = .ok (.rdcount true 0) := by decide
theorem test_decode_wrcount : decode ⟨0x00030007, 7, 0⟩ = .ok (.wrcount 3 7) := by decide
theorem test_decode_rdword : decode ⟨0x00030008, 1, 0⟩ = .ok (.rdword 3 1) := by decide
theorem test_decode_wrword :
    decode ⟨0x00000009, 24, 0x0000200000000000⟩ = .ok (.wrword 0 24 0x0000200000000000) := by decide
theorem test_decode_config : decode ⟨0x0022400A, 3, 0⟩ = .ok (.config 2 4 2 3) := by decide
theorem test_decode_config_widest : decode ⟨0x01F2E00A, 0, 0⟩ = .ok (.config 2 14 31 0) := by decide
theorem test_decode_rdcfg : decode ⟨0x00002D0B, 0, 0⟩ = .ok (.rdcfg 0x2D) := by decide
theorem test_table_word_wrword : decodeTableWord 32 0xABCD0009 = some (.wrword 0xABCD 0 0) := by decide
/-- An operand of a table word lies above the command word (log entry 16). -/
theorem test_table_word_operands :
    decodeTableWord 160 (0x00000009 + 5 * 2 ^ 32 + 6 * 2 ^ 96) = some (.wrword 0 5 6) := by decide

theorem test_illegal_op_0c : decode ⟨0x0000000C, 0, 0⟩ = .error .reservedOp := by decide
theorem test_illegal_op_ff : decode ⟨0x000000FF, 0, 0⟩ = .error .reservedOp := by decide
theorem test_illegal_nop_bit : decode ⟨0x00000100, 0, 0⟩ = .error .reservedField := by decide
theorem test_illegal_clear_bit : decode ⟨0x00010004, 0, 0⟩ = .error .reservedField := by decide
theorem test_illegal_popcnt_bit : decode ⟨0x00000205, 0, 0⟩ = .error .reservedField := by decide
theorem test_illegal_wrcount_all : decode ⟨0x00000107, 5, 0⟩ = .error .allNotAllowed := by decide
theorem test_illegal_rdword_all : decode ⟨0x00000108, 0, 0⟩ = .error .allNotAllowed := by decide
theorem test_illegal_wrword_all : decode ⟨0x00010109, 0, 0⟩ = .error .allNotAllowed := by decide
theorem test_illegal_config_variant : decode ⟨0x01F3E00A, 0, 0⟩ = .error .variantThree := by decide
theorem test_illegal_config_bit8 : decode ⟨0x0001310A, 4, 0⟩ = .error .reservedField := by decide
theorem test_illegal_config_bit18 : decode ⟨0x0005300A, 4, 0⟩ = .error .reservedField := by decide
theorem test_illegal_config_bit25 : decode ⟨0x0201300A, 4, 0⟩ = .error .reservedField := by decide
theorem test_illegal_rdcfg_sel : decode ⟨0x00002E0B, 0, 0⟩ = .error .undefinedSelector := by decide
theorem test_illegal_rdcfg_bit : decode ⟨0x0001010B, 0, 0⟩ = .error .reservedField := by decide

/-! ## The textual syntax (R113, R114) -/

theorem test_assemble_wrword :
    assemble "WRWORD 0, 24, 0x0000200000000000 ; a comment".toList = some (0, .wrword 0 24 0x0000200000000000) := by
  decide
theorem test_assemble_config : assemble "CONFIG SHARDED, 4, 2, 3".toList = some (0, .config 2 4 2 3) := by decide
theorem test_assemble_port : assemble "p1: POPCNT *".toList = some (1, .popcnt true 0) := by decide
theorem test_assemble_port_hex : assemble "p0x1f:NOP".toList = some (31, .nop) := by decide
theorem test_assemble_pseudo : assemble "CAP".toList = some (0, .rdcfg 0x04) := by decide
theorem test_assemble_needs_comma : assemble "WRCOUNT 1 2".toList = none := by decide
theorem test_assemble_needs_blank : assemble "ADD,5".toList = none := by decide
theorem test_assemble_too_wide : assemble "POPCNT 65536".toList = none := by decide

/-! ## Small states -/

/-- An idle engine with the parameters of 95_test_vectors.md and a filter of the given configuration, every word and
counter 0. -/
def filter (var : Variant) (k : BitVec 4) (b : Word) (log2n : BitVec 5) : State :=
  State.reset.writeCfg var k b log2n

/-- The filter of R153: k = 3, B = 4. -/
def small (var : Variant) : State := filter var 3 4 0

/-- The filter of V8: SHARDED, k = 4, B = 3, N = 4. -/
def sharded : State := filter .sharded 4 3 2

/-- The hash of the examples. -/
def h1 : Word := 0x0123456789ABCDEF

/-- A state with the words R185 gives and a count. -/
def addedOnce (s : State) (n : Word) : State :=
  (((s.putWord 24 0x0000200000000000).putWord 26 0x0400000000000000).putWord 30 0x0000100000000000).putCounter 0 n

/-- The state after a request is served on port 0. -/
def served (s : State) (cmd : BitVec 32) (opa opb : Word) : Option State :=
  match step { s with sched := [.command 0 ⟨cmd, opa, opb⟩] } with
  | .next t => some t
  | .fault _ => none
  | .refused _ => none

/-- The response to a request on port 0. -/
def answer (s : State) (cmd : BitVec 32) (opa opb : Word) : Option (Status × Word) :=
  (served s cmd opa opb).bind fun t => t.delivered.head?.map fun r => (r.status, r.data)

/-- The words and counter 0 after a request on port 0. -/
def stored (s : State) (cmd : BitVec 32) (opa opb : Word) (gs : List Nat) : Option (List Word × Word) :=
  (served s cmd opa opb).map fun t => (gs.map t.word, t.counter 0)

/-! ## The datapath (95 section 2.1) -/

theorem test_V1 : (List.range 3).map (fun i => (probeWord (small .atomic) h1 i, probeMask (small .atomic) h1 i)) =
    [(24, 0x0000200000000000), (26, 0x0400000000000000), (30, 0x0000100000000000)] := by decide +kernel
theorem test_V4_top_bit : (List.range 3).map (fun i => (probeWord (small .unsync) 0x00000005000000AC i,
    probeMask (small .unsync) 0x00000005000000AC i)) =
    [(8, 0x20), (10, 0x0000008000000000), (15, 0x8000000000000000)] := by decide +kernel
theorem test_V8_sharded : (List.range 4).map (fun i => (probeWord sharded h1 i, probeMask sharded h1 i)) =
    [(72, 0x8000000000000000), (73, 0x2000000000000000), (76, 0x400), (79, 0x0008000000000000)] := by decide +kernel
theorem test_V10_largest_k : (List.range 14).map (fun i => probePos (filter .atomic 14 1 0) 0xFFFFFFFF i) =
    [3, 10, 26, 36, 61, 76, 110, 177, 197, 266, 313, 375, 440, 477] := by decide +kernel

/-! ## Commands (95 sections 2.2 to 2.13) -/

theorem test_add : stored (small .atomic) 0x00000001 h1 0 [24, 26, 30, 25] =
    some ([0x0000200000000000, 0x0400000000000000, 0x0000100000000000, 0], 1) := by decide +kernel
theorem test_add_unsync_wraps : stored ((small .unsync).putCounter 0 0xFFFFFFFFFFFFFFFF) 0x00000001 0 0 [0, 2, 5] =
    some ([1, 0x0000008000000000, 0x80000], 0) := by decide +kernel
theorem test_test_present : answer (addedOnce (small .atomic) 1) 0x00000002 h1 0 = some (.ok, 1) := by decide +kernel
theorem test_test_absent : answer (addedOnce (small .atomic) 1) 0x00000002 0xFFFFFFFFFFFFFFFF 0 = some (.ok, 0) := by
  decide +kernel
theorem test_testadd_unsync_present : (answer (addedOnce (small .unsync) 1) 0x00000003 h1 0,
    stored (addedOnce (small .unsync) 1) 0x00000003 h1 0 [24]) =
    (some (.ok, 1), some ([0x0000200000000000], 1)) := by decide +kernel
theorem test_testadd_atomic_present : (answer (addedOnce (small .atomic) 1) 0x00000003 h1 0,
    stored (addedOnce (small .atomic) 1) 0x00000003 h1 0 [24]) =
    (some (.ok, 1), some ([0x0000200000000000], 2)) := by decide +kernel
theorem test_clear : stored ((addedOnce (small .atomic) 1).putWord 32 9) 0x00000004 0 0 [24, 26, 30, 32] =
    some ([0, 0, 0, 9], 0) := by decide +kernel
theorem test_popcnt_all : answer (addedOnce (small .atomic) 1) 0x00000105 0 0 = some (.ok, 3) := by decide +kernel
theorem test_popcnt_range : answer (addedOnce (small .atomic) 1) 0x00010005 0 0 = some (.range, 0) := by decide +kernel
theorem test_rdcount_sum_wraps : answer (((filter .sharded 4 3 1).putCounter 0 0xFFFFFFFFFFFFFFFF).putCounter 1 2)
    0x00000106 0 0 = some (.ok, 1) := by decide +kernel
theorem test_rdcount_range : answer (small .atomic) 0x00020006 0 0 = some (.range, 0) := by decide +kernel
theorem test_wrcount : stored (small .atomic) 0x00000007 0xFFFFFFFFFFFFFFFF 0 [] =
    some ([], 0xFFFFFFFFFFFFFFFF) := by decide +kernel
theorem test_wrcount_range : answer (small .atomic) 0x00010007 3 0 = some (.range, 0) := by decide +kernel
theorem test_rdword : answer ((sharded.putWord 73 0x2000000000000001).putWord 1 5) 0x00030008 1 0 =
    some (.ok, 0x2000000000000001) := by decide +kernel
theorem test_rdword_range : answer (addedOnce (small .atomic) 1) 0x00000008 32 0 = some (.range, 0) := by
  decide +kernel
theorem test_wrword : stored (small .atomic) 0x00000009 24 0x0000200000000000 [23, 24, 25] =
    some ([0, 0x0000200000000000, 0], 0) := by decide +kernel
theorem test_wrword_range : answer (small .atomic) 0x00000009 32 1 = some (.range, 0) := by decide +kernel
theorem test_nop_unconfigured : answer State.reset 0x00000000 0 0 = some (.ok, 0) := by decide +kernel
theorem test_nop_reserved : answer State.reset 0x80000000 0 0 = some (.illegal, 0) := by decide +kernel
theorem test_config_soft : (served State.reset 0x0001F00A 0 0).map (fun t => (t.cfg.k, t.cfg.b, t.cfg.valid)) =
    some (7, 1, true) := by decide +kernel
theorem test_config_over_capacity : answer State.reset 0x0042500A 5 0 = some (.config, 0) := by decide +kernel
theorem test_rdcfg_offset : answer sharded 0x0000220B 0 0 = some (.ok, 236) := by decide +kernel
theorem test_rdcfg_range : answer sharded 0x0000140B 0 0 = some (.range, 0) := by decide +kernel
theorem test_clear_unconfigured : answer State.reset 0x00000004 0 0 = some (.unconfigured, 0) := by decide +kernel

/-- I24: the increment and another word's load may fall between the halves of a UNSYNC read-modify-write. -/
theorem test_unsync_between_halves :
    pickTask [.rmwStore 24 1, .rmwLoad 26 1, .inc 0] 2 = some (.inc 0, [.rmwStore 24 1, .rmwLoad 26 1]) ∧
    pickTask [.rmwStore 24 1, .rmwLoad 26 1, .inc 0] 1 = some (.rmwLoad 26 1, [.rmwStore 24 1, .inc 0]) := by decide
/-- R183: a second load of the word waits for the store, so that no bit is lost. -/
theorem test_unsync_same_word : pickTask [.rmwStore 24 1, .rmwLoad 24 2, .inc 0] 1 = none := by decide

/-! ## Overlap (95 section 2.18) -/

/-- A state with a request in flight on port 1. -/
def withInFlight (s : State) (r : Request) : State := acceptMove 1 r s

/-- The faults recorded by presenting a request on port 0. -/
def faultsOf (s : State) (cmd : BitVec 32) (opa : Word) : Option FaultSet :=
  (served s cmd opa 0).map fun t => t.faults

theorem test_overlap_exclusive :
    faultsOf (withInFlight (small .atomic) ⟨0x00000004, 0, 0⟩) 0x00000001 h1 = some ⟨true, false⟩ := by decide +kernel
/-- R351 reads the OP byte of an illegal word too (D26). -/
theorem test_overlap_illegal_op_byte :
    faultsOf (withInFlight (small .atomic) ⟨0x00000104, 0, 0⟩) 0x00000002 h1 = some ⟨true, false⟩ := by decide +kernel
theorem test_overlap_unsync :
    faultsOf (withInFlight (small .unsync) ⟨0x00000001, h1, 0⟩) 0x00000002 h1 = some ⟨false, true⟩ := by decide +kernel
theorem test_overlap_nop_exempt :
    faultsOf (withInFlight (small .unsync) ⟨0x00000000, 0, 0⟩) 0x00000001 h1 = some ⟨false, false⟩ := by decide +kernel
theorem test_overlap_both :
    faultsOf (withInFlight (small .unsync) ⟨0x00000001, h1, 0⟩) 0x00000004 0 = some ⟨true, true⟩ := by decide +kernel

/-! ## The image (R316, 95 sections 2.15 and 2.16) -/

/-- A header of 21 bytes: version, k, block count 4, count 2. -/
def header (v k n : Byte) : List Byte := [v, k, 0, 0, 0, n, 0, 0, 0, 0, 0, 0, 0, 2, 0, 0, 0, 0, 0, 0, 0]

theorem test_image_header : imageHeader 3 4 2 = header 1 3 4 := by decide
theorem test_image_short : decodeImage (List.replicate 20 1) = .error .invalidData := by decide +kernel
theorem test_image_version : decodeImage (header 2 0 0) = .error .unsupportedVersion := by decide +kernel
theorem test_image_k : decodeImage (header 1 15 4 ++ List.replicate 256 0) = .error .invalidK := by decide +kernel
theorem test_image_no_blocks : decodeImage (header 1 3 0) = .error .invalidData := by decide +kernel
theorem test_image_length : decodeImage (header 1 3 4 ++ List.replicate 255 0) = .error .invalidData := by
  decide +kernel
/-- Word 8 of the image is bytes 85 to 92, least significant first. -/
theorem test_image_word : (encodeImage ((small .unsync).putWord 8 0x20)).map (fun b => (b.drop 85).take 8) =
    some [0x20, 0, 0, 0, 0, 0, 0, 0] := by decide +kernel
/-- N26: no image of the other variants. -/
theorem test_image_atomic : encodeImage (small .atomic) = none := by decide +kernel
/-- 95 section 2.16: 65 blocks pass every check, and CONFIG refuses them. -/
theorem test_image_too_large : loadImage (header 1 3 65 ++ List.replicate (65 * 64) 0) State.reset =
    .error (.configRefused (State.reset.deliver 0 .config 0)) := by decide +kernel
theorem test_nextPow2 : [0, 1, 3, 4, 5].map nextPow2 = [1, 1, 4, 4, 8] := by decide
/-- 95 section 2.15: N = 4 by default for a parallelism of 2. The word is R276's for CONFIG SHARDED, 7, 2, 5; section
2.15 prints 0x0021700A, which has VARREQ 1, and says that the rules win. -/
theorem test_construct_sharded : (constructSharded 7 none 2 5).map encode = some ⟨0x0022700A, 5, 0⟩ := by decide
/-- R304: the engine configures 7 for an explicit k outside 3..14, of 16 and above too. -/
theorem test_construct_k : ([3, 14, 15, 19].map fun k => correctK (requestedK k)) = [3, 14, 7, 7] := by decide

/-! ## States that meet the hypotheses of the statements

Below, `witness_<Name>` shows states and operands that meet the hypotheses of `Obligations.<Name>` together. -/

/-- An outcome is a next state. -/
def goesOn : Host.Outcome State Fault Refusal → Bool
  | .next _ => true
  | .fault _ => false
  | .refused _ => false

/-- The next state of an outcome. -/
def nextOf : Host.Outcome State Fault Refusal → State
  | .next t => t
  | .fault _ => State.reset
  | .refused _ => State.reset

theorem next_of_goesOn {o : Host.Outcome State Fault Refusal} (h : goesOn o = true) : o = .next (nextOf o) := by
  cases o with
  | next t => rfl
  | fault e => cases h
  | refused e => cases h

theorem storage_of {s : State} (h0 : s.params = Params.reference)
    (h1 : ConfigLegal s.params s.cfg.var s.cfg.k s.cfg.b s.cfg.log2n) (h2 : PartitionLoaded s)
    (h3 : Memory.wf s.arr = true ∧ cellsBelow (s.params.words * 8) s.arr = true ∧ cellsWf s.count = true ∧
      cellsBelow s.params.nmax s.count = true ∧ s.ports.length = s.params.nports) : StorageInv s :=
  ⟨h0 ▸ reference_legal, fun _ => ⟨h1, h2⟩, h3.1, h3.2.1, h3.2.2.1, h3.2.2.2.1, h3.2.2.2.2⟩

theorem small_storage (var : Variant) : StorageInv (small var) := by
  refine storage_of rfl ⟨by cases var <;> decide, by cases var <;> decide, by cases var <;> decide,
    by cases var <;> decide, by cases var <;> decide, by cases var <;> decide, fun _ => rfl⟩ ?_ ?_
  · cases var <;> unfold PartitionLoaded <;> decide +kernel
  · cases var <;> decide +kernel

theorem sharded_storage : StorageInv sharded := by
  refine storage_of rfl ⟨by decide, by decide, by decide, by decide, by decide, by decide, fun h => absurd rfl h⟩ ?_ ?_
  · unfold PartitionLoaded; decide +kernel
  · decide +kernel

theorem flight_none_of_idle {s : State} (h : s.ports = List.replicate 2 .idle) (p : Nat) : s.flight p = none := by
  unfold State.flight
  rw [h, List.getElem?_replicate]
  by_cases hp : p < 2 <;> simp [hp]

theorem flightInv_of_idle {s : State} (h : s.ports = List.replicate 2 .idle) : FlightInv s :=
  ⟨fun p f hf => by simp [flight_none_of_idle h p] at hf, fun p q f g _ hf _ => by simp [flight_none_of_idle h p] at hf⟩

theorem ready_of_idle {i : Instr} {s : State} (h : s.ports = List.replicate 2 .idle) (hf : s.faults = ⟨false, false⟩)
    (hg : s.grant < 2) : Ready i s := by
  refine ⟨by simp [hf, FaultSet.stuck], ?_, ?_⟩
  · unfold State.canAccept
    rw [h, List.getElem?_replicate]
    simp [hg]
  · have : s.inFlight = [] := by simp [State.inFlight, h, Port.request]
    simp [overlapFaults, this, FaultSet.stuck]

theorem small_inv (var : Variant) : Inv (small var) :=
  ⟨small_storage var, fun _ => flightInv_of_idle rfl⟩

theorem sharded_inv : Inv sharded := ⟨sharded_storage, fun _ => flightInv_of_idle rfl⟩

theorem small_configured (i : Instr) (var : Variant) : Configured i (small var) :=
  ⟨ready_of_idle rfl rfl (by decide : (0 : Nat) < 2), small_storage var, rfl⟩

theorem sharded_configured (i : Instr) : Configured i sharded :=
  ⟨ready_of_idle rfl rfl (by decide : (0 : Nat) < 2), sharded_storage, rfl⟩

theorem reset_ready (i : Instr) : Ready i State.reset := ready_of_idle rfl rfl (by decide : (0 : Nat) < 2)

/-- The invariant does not read the schedule. -/
theorem inv_with_sched {s : State} (h : Inv s) (l : List Move) : Inv { s with sched := l } :=
  ⟨⟨h.storage.params, h.storage.configured, h.storage.arr_wf, h.storage.arr_below, h.storage.count_wf,
      h.storage.count_below, h.storage.ports_length⟩,
    fun hn => ⟨fun p f hf => ((h.inFlight hn).flights p f hf).congr rfl (fun _ => rfl) fun _ _ _ => rfl,
      (h.inFlight hn).no_overlap⟩⟩

theorem quiet_of {s : State} (h : (s.sched.all quietMove && s.ports.all fun x => (Port.request x).all fun r =>
    !clearsBits r) = true) : Quiet s := by
  simp only [Bool.and_eq_true, List.all_eq_true] at h
  refine ⟨h.1, fun p f hf => ?_⟩
  unfold State.flight at hf
  split at hf
  · rename_i g hg
    cases hf
    simpa [Port.request] using h.2 _ (List.mem_of_getElem? hg)
  · cases hf
  · cases hf

/-- A TEST of h1 presented. -/
def testRequest : Request := ⟨0x00000002, h1, 0⟩

/-- An ATOMIC filter with an ADD in flight on port 1. -/
def flying : State := acceptMove 1 ⟨0x00000001, h1, 0⟩ (small .atomic)

/-- The ADD in flight of `flying`. -/
def flyingAdd : Flight := startFlight ⟨0x00000001, h1, 0⟩ (addProgram h1 (small .atomic))

theorem flying_flight : flying.flight 1 = some flyingAdd := rfl

theorem flying_inv : Inv flying := by
  have hs : flying = (small .atomic).accepted 1 ⟨0x00000001, h1, 0⟩
      (requestProgram ⟨0x00000001, h1, 0⟩ (small .atomic)) := rfl
  have hst := (small_storage .atomic).setPort 1
    (.busy (startFlight ⟨0x00000001, h1, 0⟩ (requestProgram ⟨0x00000001, h1, 0⟩ (small .atomic))))
  rw [hs]
  exact ⟨⟨hst.params, hst.configured, hst.arr_wf, hst.arr_below, hst.count_wf, hst.count_below, hst.ports_length⟩,
    fun _ => flightInv_accept (flightInv_of_idle rfl) rfl rfl (requestProgram_owned (small_storage .atomic) _)⟩

/-- The ATOMIC filter after an ADD of h1. -/
def added : State := addedOnce (small .atomic) 1

theorem added_storage : StorageInv added := by
  refine storage_of rfl ⟨by decide, by decide, by decide, by decide, by decide, by decide, fun _ => rfl⟩ ?_ ?_
  · unfold PartitionLoaded; decide +kernel
  · decide +kernel

/-! ### Encoding -/

theorem witness_DecodeOfEncodeIsTheCommand :
    (Instr.config 2 15 31 0xFFFFFFFFFFFFFFFF).wellFormed = true ∧ (Instr.rdcfg 0x09).wellFormed = true ∧
    (Instr.rdcfg 0x10).wellFormed = true ∧ (Instr.rdcfg 0x1D).wellFormed = true ∧
    (Instr.rdcfg 0x20).wellFormed = true ∧ (Instr.rdcfg 0x2D).wellFormed = true ∧
    (Instr.rdcount true 0xFFFF).wellFormed = true := by decide
theorem witness_DecodedCommandKeepsItsWord : ∃ (r : Request) (i : Instr), decode r = .ok i :=
  ⟨⟨0x01F2E00A, 5, 6⟩, .config 2 14 31 5, by decide⟩
theorem witness_LegalWordsAreTheTableRows :
    (∃ i, decode ⟨0xABCD0106, 0, 0⟩ = .ok i) ∧ (∃ a ∈ opRows, a.selects 0xFFFF0105 = true) ∧
    (∃ row ∈ opRows, row.selects 0x0003300A = true ∧ row.mnemonic = "CONFIG") :=
  ⟨⟨_, rfl⟩, by decide, by decide⟩
theorem witness_IllegalWordsMeetOneOfFiveConditions :
    (∃ e, decode ⟨0x0000000C, 0, 0⟩ = .error e) ∧ (∃ e, decode ⟨0x00000104, 0, 0⟩ = .error e) ∧
    (∃ e, decode ⟨0x00000205, 0, 0⟩ = .error e) ∧ (∃ e, decode ⟨0x00000109, 0, 0⟩ = .error e) ∧
    (∃ e, decode ⟨0x0003300A, 0, 0⟩ = .error e) ∧ (∃ e, decode ⟨0x00001E0B, 0, 0⟩ = .error e) ∧
    (∃ i, decode ⟨0x00001D0B, 0, 0⟩ = .ok i) :=
  ⟨⟨_, rfl⟩, ⟨_, rfl⟩, ⟨_, rfl⟩, ⟨_, rfl⟩, ⟨_, rfl⟩, ⟨_, rfl⟩, ⟨_, rfl⟩⟩

/-! ### Steps, reset and faults -/

theorem witness_StepRunsTheDecodedCommand :
    (∃ (s : State) (p : Nat) (r : Request) (i : Instr) (rest : List Move),
      s.faults.stuck = none ∧ s.sched = .command p r :: rest ∧ decode r = .ok i) ∧
    ∃ (s : State) (nbits w : Nat) (i : Instr), s.faults.stuck = none ∧ decodeTableWord nbits w = some i :=
  ⟨⟨{ small .atomic with sched := [.command 1 testRequest] }, 1, testRequest, .test h1, [], rfl, rfl, by decide⟩,
    State.reset, 32, 0x00000004, .clear, rfl, by decide⟩
theorem witness_IllegalRequestOnlyResponds :
    ∃ (s : State) (p : Nat) (r : Request) (e : Illegal) (rest : List Move),
      s.faults.stuck = none ∧ s.sched = .command p r :: rest ∧ decode r = .error e ∧ s.canAccept p = true ∧
      (overlapFaults s r).stuck = none :=
  ⟨{ State.reset with sched := [.command 1 ⟨0x00000107, 5, 0⟩] }, 1, ⟨0x00000107, 5, 0⟩, .allNotAllowed, [],
    rfl, rfl, by decide, rfl, rfl⟩
theorem witness_ResetGivesTheResetState : 1 < Params.reference.nports := by decide
theorem witness_ResetWireAbandonsCommands :
    ∃ (s : State) (u : Residue) (rest : List Move) (f : Flight), s.faults.stuck = none ∧ s.sched = .reset u :: rest ∧
      s.flight 1 = some f :=
  ⟨{ flying with sched := [.reset Residue.zero] }, Residue.zero, [], _, rfl, rfl, flying_flight⟩
theorem witness_StepKeepsTheInvariant :
    ∃ s t : State, Inv s ∧ step s = .next t ∧ s.sched = [.event 1 3] ∧ ∃ f, s.flight 1 = some f :=
  ⟨{ flying with sched := [.event 1 3] }, _, inv_with_sched flying_inv _, next_of_goesOn (by decide +kernel), rfl, _,
    flying_flight⟩
theorem witness_UnfaultedLegalStateSteps :
    ∃ s : State, Inv s ∧ s.faults.stuck = none ∧ s.sched = [.command 0 testRequest] :=
  ⟨{ flying with sched := [.command 0 testRequest] }, inv_with_sched flying_inv _, rfl, rfl⟩
theorem witness_StepKeepsTheParameters : ∃ s t : State, step s = .next t ∧ s.sched ≠ [] :=
  ⟨{ small .unsync with sched := [.command 0 ⟨0x0001700A, 19, 0⟩] }, _, next_of_goesOn (by decide +kernel), by simp⟩
theorem witness_FaultedStateIsStuck :
    (∃ s : State, s.faults.excl = true) ∧ (∃ s : State, s.faults.unsync = true) ∧
    ∃ s t : State, step s = .next t ∧ t.faults.excl = true :=
  ⟨⟨{ State.reset with faults := ⟨true, false⟩ }, rfl⟩, ⟨{ State.reset with faults := ⟨true, true⟩ }, rfl⟩,
    { flying with sched := [.accept 0 ⟨0x00000004, 0, 0⟩] }, _, next_of_goesOn (by decide +kernel), by decide +kernel⟩
theorem witness_ExclusiveOverlapIsRecorded :
    (∃ (s t : State) (r : Request), s.faults.stuck = none ∧ s.canAccept 0 = true ∧ s.sched = [.accept 0 r] ∧
      step s = .next t ∧ t.faults.excl = true) ∧
    (∃ (s t : State) (r : Request), s.faults.stuck = none ∧ s.canAccept 0 = true ∧ s.sched = [.command 0 r] ∧
      step s = .next t ∧ t.faults.excl = true) ∧
    ∃ (s t : State) (r : Request), s.faults.stuck = none ∧ s.canAccept 0 = true ∧ s.sched = [.accept 0 r] ∧
      step s = .next t ∧ t.faults.excl = false ∧ s.flight 1 ≠ none :=
  ⟨⟨{ flying with sched := [.accept 0 ⟨0x00000004, 0, 0⟩] }, _, _, rfl, rfl, rfl, next_of_goesOn (by decide +kernel),
      by decide +kernel⟩,
    ⟨{ flying with sched := [.command 0 ⟨0x00000104, 0, 0⟩] }, _, _, rfl, rfl, rfl, next_of_goesOn (by decide +kernel),
      by decide +kernel⟩,
    { flying with sched := [.accept 0 testRequest] }, _, _, rfl, rfl, rfl, next_of_goesOn (by decide +kernel),
    by decide +kernel, by decide +kernel⟩
/-- Each kind of move that accepts no request; the second clause of UnsyncOverlapIsRecorded has the same hypotheses. -/
theorem witness_ExclusiveOverlapIsRecorded_no_acceptance :
    ∀ m ∈ ([.event 1 0, .shortCircuit 1, .respond 1, .reset Residue.zero, .accept 1 testRequest,
        .command 1 ⟨0x00000004, 0, 0⟩] : List Move),
      acceptsRequest flying m = false ∧ ∃ t, step { flying with sched := [m] } = .next t := by
  intro m hm
  have h : (acceptsRequest flying m = false) ∧ goesOn (step { flying with sched := [m] }) = true := by
    revert m
    decide +kernel
  exact ⟨h.1, _, next_of_goesOn h.2⟩
theorem witness_UnsyncOverlapIsRecorded :
    (∃ (s t : State) (r : Request), s.faults.stuck = none ∧ s.canAccept 0 = true ∧ s.sched = [.accept 0 r] ∧
      step s = .next t ∧ t.faults.unsync = true) ∧
    (∃ (s t : State) (r : Request), s.faults.stuck = none ∧ s.canAccept 0 = true ∧ s.sched = [.command 0 r] ∧
      step s = .next t ∧ t.faults.unsync = true) ∧
    ∃ (s t : State) (r : Request), s.faults.stuck = none ∧ s.canAccept 0 = true ∧ s.sched = [.accept 0 r] ∧
      step s = .next t ∧ t.faults.unsync = false ∧ s.flight 1 ≠ none ∧ s.cfg.var = .unsync :=
  ⟨⟨{ withInFlight (small .unsync) ⟨0x00000001, h1, 0⟩ with sched := [.accept 0 testRequest] }, _, _, rfl, rfl, rfl,
      next_of_goesOn (by decide +kernel), by decide +kernel⟩,
    ⟨{ withInFlight (small .unsync) ⟨0x00000001, h1, 0⟩ with sched := [.command 0 testRequest] }, _, _, rfl, rfl, rfl,
      next_of_goesOn (by decide +kernel), by decide +kernel⟩,
    { withInFlight (small .unsync) ⟨0x00000000, h1, 0⟩ with sched := [.accept 0 testRequest] }, _, _, rfl, rfl, rfl,
    next_of_goesOn (by decide +kernel), by decide +kernel, by decide +kernel, rfl⟩
theorem witness_BusyPortAcceptsNothing :
    (∃ (s : State) (p : Nat) (f : Flight) (r : Request) (rest : List Move),
      s.faults.stuck = none ∧ s.flight p = some f ∧ s.sched = .accept p r :: rest) ∧
    ∃ (s : State) (p : Nat) (f : Flight) (r : Request) (rest : List Move),
      s.faults.stuck = none ∧ s.flight p = some f ∧ s.sched = .command p r :: rest :=
  ⟨⟨{ flying with sched := [.accept 1 testRequest] }, 1, _, _, _, rfl, flying_flight, rfl⟩,
    { flying with sched := [.command 1 ⟨0x00000004, 0, 0⟩] }, 1, _, _, _, rfl, flying_flight, rfl⟩
theorem witness_OnlyConfigChangesTheConfiguration :
    ∃ (s t : State) (m : Move) (rest : List Move), Inv s ∧ s.sched = m :: rest ∧ step s = .next t ∧
      (∀ u, m ≠ .reset u) ∧ s.cfg.valid = true ∧ (∀ p r, m = .command p r → opByte r ≠ 0x0A) ∧
      ∀ p n f, m = .event p n → s.flight p = some f → opByte f.req ≠ 0x0A :=
  ⟨{ flying with sched := [.event 1 0] }, _, .event 1 0, [], inv_with_sched flying_inv _, rfl,
    next_of_goesOn (by decide +kernel), by simp, rfl, by simp, by
      intro p n f h hf
      cases h
      cases (show some flyingAdd = some f from hf)
      decide⟩

/-! ### The datapath -/

theorem witness_PlainFieldSplit : ∃ c c' : Cfg, c.var = .unsync ∧ 1 ≤ c.b.toNat ∧ c'.var = .atomic ∧ c'.b.toNat = 1 :=
  ⟨(small .unsync).cfg, (filter .atomic 14 1 0).cfg, rfl, by decide, rfl, rfl⟩
theorem witness_ShardedFieldSplit : ∃ c c' : Cfg, c.var = .sharded ∧ 1 ≤ c.b.toNat ∧ c.log2n = 2 ∧
    c'.var = .sharded ∧ c'.b.toNat = 1 ∧ c'.log2n = 0 :=
  ⟨sharded.cfg, (filter .sharded 3 1 0).cfg, rfl, by decide, rfl, rfl, rfl, rfl⟩
theorem witness_ProbeLiesInItsPartition :
    ∃ s : State, StorageInv s ∧ s.cfg.valid = true ∧ (2 < s.cfg.k.toNat ∧ ¬ 3 < s.cfg.k.toNat) :=
  ⟨small .atomic, small_storage _, rfl, by decide⟩
theorem witness_ProbesAreDistinct :
    ∃ (s : State) (i j : Nat), StorageInv s ∧ s.cfg.valid = true ∧ i < s.cfg.k.toNat ∧ j < s.cfg.k.toNat ∧ i ≠ j :=
  ⟨sharded, 0, 3, sharded_storage, rfl, by decide, by decide, by decide⟩
theorem witness_ProbesStayInTheSelectedBlock :
    ∃ (s : State) (i : Nat), StorageInv s ∧ s.cfg.valid = true ∧ i < s.cfg.k.toNat :=
  ⟨sharded, 3, sharded_storage, rfl, by decide⟩
theorem witness_ImageByteViewOfWords :
    ∃ (s : State) (g j i p : Nat), j < 8 ∧ i < 8 ∧ p < 512 ∧ (s.byte (g * 8 + j)).getLsbD i = true :=
  ⟨(small .unsync).putWord 15 0x8000000000000000, 15, 7, 7, 511, by decide, by decide, by decide, by decide +kernel⟩

/-! ### Per-key commands -/

theorem witness_AddSetsProbeBitsAndCounts :
    Configured (.add h1) (small .unsync) ∧ Configured (.add h1) (small .atomic) ∧ Configured (.add h1) sharded :=
  ⟨small_configured _ _, small_configured _ _, sharded_configured _⟩

theorem added_configured (i : Instr) : Configured i added :=
  ⟨ready_of_idle rfl rfl (by decide : (0 : Nat) < 2), added_storage, rfl⟩

theorem added_probesSet : ProbesSet added h1 := by unfold ProbesSet; decide +kernel
theorem small_not_probesSet (var : Variant) : ¬ ProbesSet (small var) h1 := by
  unfold ProbesSet; cases var <;> decide +kernel

/-- The UNSYNC filter after an ADD of h1. -/
def addedUnsync : State := addedOnce (small .unsync) 1

theorem addedUnsync_storage : StorageInv addedUnsync := by
  refine storage_of rfl ⟨by decide, by decide, by decide, by decide, by decide, by decide, fun _ => rfl⟩ ?_ ?_
  · unfold PartitionLoaded; decide +kernel
  · decide +kernel

theorem addedUnsync_probesSet : ProbesSet addedUnsync h1 := by unfold ProbesSet; decide +kernel

theorem witness_TestReportsTheProbeBits :
    (∃ s, Configured (.test h1) s ∧ ProbesSet s h1) ∧ ∃ s, Configured (.test h1) s ∧ ¬ ProbesSet s h1 :=
  ⟨⟨added, added_configured _, added_probesSet⟩, small .atomic, small_configured _ _, small_not_probesSet _⟩
theorem witness_TestaddInUnsyncAddsIfAbsent :
    (∃ s, Configured (.testadd h1) s ∧ s.cfg.var = .unsync ∧ ProbesSet s h1) ∧
    ∃ s, Configured (.testadd h1) s ∧ s.cfg.var = .unsync ∧ ¬ ProbesSet s h1 :=
  ⟨⟨addedUnsync, ⟨ready_of_idle rfl rfl (by decide : (0 : Nat) < 2), addedUnsync_storage, rfl⟩, rfl,
    addedUnsync_probesSet⟩, small .unsync, small_configured _ _, rfl, small_not_probesSet _⟩
theorem witness_TestaddInAtomicAlwaysAdds :
    (∃ s, Configured (.testadd h1) s ∧ s.cfg.var ≠ .unsync ∧ ProbesSet s h1) ∧
    (∃ s, Configured (.testadd h1) s ∧ s.cfg.var ≠ .unsync ∧ ¬ ProbesSet s h1) ∧
    ∃ s, Configured (.testadd h1) s ∧ s.cfg.var = .sharded :=
  ⟨⟨added, added_configured _, by decide, added_probesSet⟩,
    ⟨small .atomic, small_configured _ _, by decide, small_not_probesSet _⟩, sharded, sharded_configured _, rfl⟩
theorem witness_AddChangesOnlyTheSelectedBlock :
    (∃ s t, Configured (.add h1) s ∧ exec (.add h1) s = .next t) ∧
    ∃ s t, Configured (.testadd h1) s ∧ exec (.testadd h1) s = .next t :=
  ⟨⟨sharded, _, sharded_configured _, next_of_goesOn (by decide +kernel)⟩,
    small .unsync, _, small_configured _ _, next_of_goesOn (by decide +kernel)⟩
theorem witness_PlainAddHasTheAtomicEffect :
    ∃ s t u : State, Configured (.add h1) s ∧ s.cfg.var = .unsync ∧ exec (.add h1) s = .next t ∧
      exec (.add h1) { s with cfg := { s.cfg with var := .atomic } } = .next u :=
  ⟨addedUnsync, _, _, ⟨ready_of_idle rfl rfl (by decide : (0 : Nat) < 2), addedUnsync_storage, rfl⟩, rfl,
    next_of_goesOn (by decide +kernel), next_of_goesOn (by decide +kernel)⟩
theorem witness_TestAfterAddIsPresent :
    ∃ s t : State, Configured (.add h1) s ∧ exec (.add h1) s = .next t :=
  ⟨small .unsync, _, small_configured _ _, next_of_goesOn (by decide +kernel)⟩
theorem witness_SecondAddChangesNoWord :
    ∃ s t u : State, Configured (.add h1) s ∧ exec (.add h1) s = .next t ∧ exec (.add h1) t = .next u :=
  ⟨small .atomic, _, _, small_configured _ _, next_of_goesOn (by decide +kernel), next_of_goesOn (by decide +kernel)⟩
/-- The colliding hashes of V5. -/
theorem witness_EqualFieldsTestAlike :
    ∃ (h h' : Word) (s : State), h ≠ h' ∧ hashFields s.cfg h = hashFields s.cfg h' ∧ Configured (.test h) s :=
  ⟨0, 0x0000000400000000, small .atomic, by decide, by decide, small_configured _ _⟩

/-! ### Whole-array, counter and image commands -/

theorem witness_ClearZeroesWhatIsInUse : Configured .clear added ∧ Configured .clear sharded :=
  ⟨added_configured _, sharded_configured _⟩
theorem witness_ClearedFilterIsEmpty : ∃ s t : State, Configured .clear s ∧ exec .clear s = .next t :=
  ⟨added, _, added_configured _, next_of_goesOn (by decide +kernel)⟩
theorem witness_PopcntCountsTheOnes :
    (∃ s, Configured (.popcnt true 0xFFFF) s) ∧
    ∃ s, Configured (.popcnt false 3) s ∧ (3 : BitVec 16).toNat < 2 ^ s.cfg.log2n.toNat :=
  ⟨⟨added, added_configured _⟩, sharded, sharded_configured _, by decide⟩
theorem witness_RdcountReadsTheCounters :
    (∃ s, Configured (.rdcount false 3) s ∧ (3 : BitVec 16).toNat < 2 ^ s.cfg.log2n.toNat) ∧
    ∃ s, Configured (.rdcount true 0) s :=
  ⟨⟨sharded, sharded_configured _, by decide⟩, added, added_configured _⟩
theorem witness_WrcountSetsOneCounter :
    ∃ s, Configured (.wrcount 3 7) s ∧ (3 : BitVec 16).toNat < 2 ^ s.cfg.log2n.toNat :=
  ⟨sharded, sharded_configured _, by decide⟩
theorem witness_RdwordReadsOneWord :
    ∃ s, Configured (.rdword 3 23) s ∧ (3 : BitVec 16).toNat < 2 ^ s.cfg.log2n.toNat ∧
      (23 : Word).toNat < s.cfg.b.toNat * 8 :=
  ⟨sharded, sharded_configured _, by decide, by decide⟩
theorem witness_WrwordWritesOneWord :
    ∃ s, Configured (.wrword 0 31 5) s ∧ (0 : BitVec 16).toNat < 2 ^ s.cfg.log2n.toNat ∧
      (31 : Word).toNat < s.cfg.b.toNat * 8 :=
  ⟨added, added_configured _, by decide, by decide⟩

/-! ### Configuration commands -/

theorem witness_NopOnlyResponds :
    (∃ s : State, s.faults.stuck = none ∧ s.canAccept s.grant = true ∧ s.cfg.valid = false) ∧
    (∃ s : State, s.faults.stuck = none ∧ s.canAccept s.grant = true ∧ s.flight 1 ≠ none) ∧ (0x800000 : BitVec 24) ≠ 0 :=
  ⟨⟨State.reset, rfl, rfl, rfl⟩, ⟨flying, rfl, rfl, by decide +kernel⟩, by decide⟩
/-- The largest configuration of 95 section 2.12: N * B = CAP_BLOCKS. -/
theorem witness_ConfigConstructsTheFilter :
    (∃ s : State, Ready (.config 2 5 4 4) s ∧ s.params.Legal ∧ ConfigAccepted s.params 2 4 4) ∧
    ∃ s : State, Ready (.config 1 15 0 0) s ∧ s.params.Legal ∧ ConfigAccepted s.params 1 0 1 :=
  ⟨⟨State.reset, reset_ready _, reference_legal, by unfold ConfigAccepted; decide⟩,
    added, (added_configured _).ready, reference_legal, by unfold ConfigAccepted; decide⟩
/-- One operand for each check of R344, and one CONFIG that passes them all. -/
theorem witness_ConfigErrorIsRaisedExactlyByItsChecks :
    (∃ s t : State, Ready (.config 1 3 1 4) s ∧ exec (.config 1 3 1 4) s = .next t) ∧
    (∃ s t : State, Ready (.config 2 3 5 4) s ∧ exec (.config 2 3 5 4) s = .next t) ∧
    (∃ s t : State, Ready (.config 1 3 0 0x0004000000000000) s ∧
      exec (.config 1 3 0 0x0004000000000000) s = .next t) ∧
    (∃ s t : State, Ready (.config 1 3 0 65) s ∧ exec (.config 1 3 0 65) s = .next t) ∧
    ∃ s t : State, Ready (.config 1 0 0 0) s ∧ exec (.config 1 0 0 0) s = .next t :=
  ⟨⟨State.reset, _, reset_ready _, next_of_goesOn (by decide +kernel)⟩,
    ⟨State.reset, _, reset_ready _, next_of_goesOn (by decide +kernel)⟩,
    ⟨State.reset, _, reset_ready _, next_of_goesOn (by decide +kernel)⟩,
    ⟨State.reset, _, reset_ready _, next_of_goesOn (by decide +kernel)⟩,
    State.reset, _, reset_ready _, next_of_goesOn (by decide +kernel)⟩
theorem witness_RdcfgReportsTheParameters :
    Ready (.rdcfg 0x06) State.reset ∧ Ready (.rdcfg 0x07) (small .atomic) ∧ Ready (.rdcfg 0x07) State.reset ∧
    Ready (.rdcfg 0x08) State.reset ∧ Ready (.rdcfg 0x09) State.reset ∧ State.reset.params.nports < 2 ^ 64 :=
  ⟨reset_ready _, (small_configured _ _).ready, reset_ready _, reset_ready _, reset_ready _, by decide⟩
/-- Selectors at the ends of each range: index 0, the last index below k = 4, k itself and 13. -/
theorem witness_RdcfgReportsTheConfiguration :
    (∀ sel : BitVec 8, Configured (.rdcfg sel) sharded) ∧ 0 < sharded.cfg.k.toNat ∧ 3 < sharded.cfg.k.toNat ∧
    sharded.cfg.k.toNat ≤ 4 ∧ sharded.cfg.k.toNat ≤ 13 :=
  ⟨fun _ => sharded_configured _, by decide, by decide, by decide, by decide⟩

/-! ### Statuses -/

theorem witness_UnconfiguredCommandsAreRefused :
    (∃ (i : Instr) (s : State), Ready i s ∧ s.cfg.valid = false ∧ i.wellFormed = true ∧ needsConfiguration i = true) ∧
    (∃ (i : Instr) (s t : State), Ready i s ∧ i.wellFormed = true ∧ needsConfiguration i = false ∧
      s.cfg.valid = false ∧ exec i s = .next t) ∧
    ∃ (i : Instr) (s t : State), Ready i s ∧ i.wellFormed = true ∧ s.cfg.valid = true ∧ exec i s = .next t :=
  ⟨⟨.rdcfg 0x2D, State.reset, reset_ready _, rfl, by decide, by decide⟩,
    ⟨.rdcfg 0x09, State.reset, _, reset_ready _, by decide, by decide, rfl, next_of_goesOn (by decide +kernel)⟩,
    .rdcfg 0x2D, sharded, _, (sharded_configured _).ready, by decide, rfl, next_of_goesOn (by decide +kernel)⟩
/-- A shard at N, a word at B * 8, a partition index at k. -/
theorem witness_RangeErrorsAreRaised :
    (∀ i : Instr, Configured i sharded) ∧ 2 ^ sharded.cfg.log2n.toNat ≤ (4 : BitVec 16).toNat ∧
    sharded.cfg.b.toNat * 8 ≤ (24 : Word).toNat ∧ (4 < 14 ∧ sharded.cfg.k.toNat ≤ 4) ∧
    ∃ t, exec (.test h1) sharded = .next t :=
  ⟨sharded_configured, by decide, by decide, by decide, _, next_of_goesOn (by decide +kernel)⟩
theorem witness_ErrorsChangeNothing :
    ∃ (i : Instr) (s t : State), Ready i s ∧ exec i s = .next t ∧ t.delivered = [⟨0, .range, 0⟩] :=
  ⟨.wrword 0 32 1, added, _, (added_configured _).ready, next_of_goesOn (by decide +kernel), by decide +kernel⟩
theorem witness_ReadingCommandsWriteNothing :
    (∃ t, Ready .nop added ∧ exec .nop added = .next t) ∧ (∃ t, exec (.test h1) added = .next t) ∧
    (∃ t, exec (.popcnt true 0) added = .next t) ∧ (∃ t, exec (.rdcount true 0) added = .next t) ∧
    (∃ t, exec (.rdword 0 31) added = .next t) ∧ ∃ t, exec (.rdcfg 0x12) added = .next t :=
  ⟨⟨_, (added_configured _).ready, next_of_goesOn (by decide +kernel)⟩, ⟨_, next_of_goesOn (by decide +kernel)⟩,
    ⟨_, next_of_goesOn (by decide +kernel)⟩, ⟨_, next_of_goesOn (by decide +kernel)⟩,
    ⟨_, next_of_goesOn (by decide +kernel)⟩, _, next_of_goesOn (by decide +kernel)⟩

/-! ### Interleaving -/

theorem witness_CommandEqualsItsAtomicSteps :
    ∃ (s t : State) (p : Nat) (r : Request) (rest : List Move), s.faults.stuck = none ∧ s.canAccept p = true ∧
      (overlapFaults s r).stuck = none ∧ step { s with sched := .command p r :: rest } = .next t ∧
      s.flight 1 ≠ none :=
  ⟨flying, _, 0, ⟨0x00000003, h1, 0⟩, [], rfl, rfl, rfl, next_of_goesOn (by decide +kernel), by decide +kernel⟩
theorem witness_BitsNeverFall :
    (∃ (s t : State) (m : Move) (rest : List Move), Inv s ∧ s.sched = m :: rest ∧ mayClear s m = false ∧
      step s = .next t ∧ m = .event 1 0) ∧
    ∃ (s t : State) (m : Move) (rest : List Move), Inv s ∧ s.sched = m :: rest ∧ mayClear s m = false ∧
      step s = .next t ∧ s.cfg.var = .unsync ∧ m = .command 0 ⟨0x00000001, h1, 0⟩ :=
  ⟨⟨{ flying with sched := [.event 1 0] }, _, _, [], inv_with_sched flying_inv _, rfl, by decide +kernel,
      next_of_goesOn (by decide +kernel), rfl⟩,
    { small .unsync with sched := [.command 0 ⟨0x00000001, h1, 0⟩] }, _, _, [], inv_with_sched (small_inv _) _, rfl,
    by decide +kernel, next_of_goesOn (by decide +kernel), rfl, rfl⟩

/-- The ATOMIC filter with an ADD of 0 to come on port 1. -/
def before : State := { small .atomic with sched := [.command 1 ⟨0x00000001, 0, 0⟩] }

theorem before_configured (i : Instr) : Configured i before :=
  ⟨ready_of_idle rfl rfl (by decide : (0 : Nat) < 2), (inv_with_sched (small_inv .atomic) _).storage, rfl⟩

/-- The six moves of port 0 that perform a command of four events, with a whole ADD of port 1 between them. -/
def interleaved (s : State) (r : Request) : State :=
  { s with sched := [.accept 0 r, .event 0 2, .command 1 ⟨0x00000001, 0, 0⟩, .event 0 0, .event 0 0, .event 0 0] }

/-- A port of a state holds a command whose response is due. -/
def due (s : State) (p : Nat) : Bool := (s.flight p).any Flight.complete

theorem performed_of {s : State} {p : Nat} {r : Request} {n : Nat} {rest : List Move} (hs : s.sched = .accept p r :: rest)
    (h1 : s.canAccept p = true) (h2 : ∀ m ∈ rest.take n, m ≠ .respond p ∧ ∀ u, m ≠ .reset u)
    (h3 : goesOn (Host.Core.run Sys2Proof.core (n + 1) s) = true)
    (h4 : (nextOf (Host.Core.run Sys2Proof.core (n + 1) s)).faults.stuck = none)
    (h5 : due (nextOf (Host.Core.run Sys2Proof.core (n + 1) s)) p = true) :
    ∃ f, Performed s p r n (nextOf (Host.Core.run Sys2Proof.core (n + 1) s)) f := by
  obtain ⟨hf, hc⟩ := (Option.any_eq_true_iff_get _ _).1 h5
  exact ⟨_, h1, ⟨rest, hs, h2⟩, next_of_goesOn h3, h4, (Option.some_get hf).symm, hc⟩

theorem other_moves {l : List Move} {p : Nat} (h : l.all (fun m => match m with
    | .command _ _ => true
    | .accept _ _ => true
    | .event _ _ => true
    | .shortCircuit _ => true
    | .respond q => q != p
    | .reset _ => false) = true) : ∀ m ∈ l, m ≠ .respond p ∧ ∀ u, m ≠ .reset u := by
  intro m hm
  have hm := List.all_eq_true.1 h m hm
  exact ⟨by rintro rfl; simp at hm, by rintro u rfl; cases hm⟩

/-- Each way of adding: ADD and TESTADD served whole, and both by their own moves, in a Quiet state at the end and with
a TEST that is ready then. -/
theorem witness_NoFalseNegatives :
    (∃ (s s1 t : State) (n q : Nat), Inv s ∧ AddPerformed h1 s s1 ∧ Quiet s1 ∧
      Host.Core.run Sys2Proof.core n s1 = .next t ∧ Ready (.test h1) { t with grant := q } ∧ n = 1 ∧ q = 1) ∧
    (∃ s s1 : State, Inv s ∧ AddPerformed h1 s s1 ∧ exec (.testadd h1) s = .next s1) ∧
    (∃ (s s1 t : State) (n q : Nat), Inv s ∧ AddPerformed h1 s s1 ∧ Quiet s1 ∧
      Host.Core.run Sys2Proof.core n s1 = .next t ∧ Ready (.test h1) { t with grant := q } ∧
      s.sched.head? = some (.accept 0 ⟨0x00000001, h1, 0⟩) ∧ q = 1) ∧
    ∃ s s1 : State, Inv s ∧ AddPerformed h1 s s1 ∧ s.sched.head? = some (.accept 0 ⟨0x00000003, h1, 0⟩) ∧
      s.cfg.var = .unsync := by
  refine ⟨?_, ?_, ?_, ?_⟩
  · exact ⟨before, nextOf (exec (.add h1) before),
      nextOf (Host.Core.run Sys2Proof.core 1 (nextOf (exec (.add h1) before))), 1, 1,
      inv_with_sched (small_inv .atomic) _, .add (before_configured _) (next_of_goesOn (by decide +kernel)),
      quiet_of (by decide +kernel), next_of_goesOn (by decide +kernel),
      ready_of_idle (by decide +kernel) (by decide +kernel) (by decide), rfl, rfl⟩
  · have h := next_of_goesOn (o := exec (.testadd h1) sharded) (by decide +kernel)
    exact ⟨sharded, _, sharded_inv, .testadd (sharded_configured _) h, h⟩
  · obtain ⟨f, hf⟩ := performed_of (s := interleaved (small .atomic) ⟨0x00000001, h1, 0⟩) (p := 0) (n := 5) rfl rfl
      (other_moves (by decide)) (by decide +kernel) (by decide +kernel) (by decide +kernel)
    exact ⟨_, _, _, 0, 1, inv_with_sched (small_inv .atomic) _, .moves rfl 0 _ 5 f (.inl (by decide)) hf,
      quiet_of (by decide +kernel), rfl, ⟨by decide +kernel, by decide +kernel, by decide +kernel⟩, rfl, rfl⟩
  · obtain ⟨f, hf⟩ := performed_of (s := { addedUnsync with sched := [.accept 0 ⟨0x00000003, h1, 0⟩, .event 0 1,
      .event 0 0, .event 0 0] }) (p := 0) (n := 3) rfl rfl (other_moves (by decide)) (by decide +kernel)
      (by decide +kernel) (by decide +kernel)
    exact ⟨_, _, inv_with_sched ⟨addedUnsync_storage, fun _ => flightInv_of_idle rfl⟩ _,
      .moves rfl 0 _ 3 f (.inr (by decide)) hf, rfl, rfl⟩

theorem witness_InterleavedTestSeesTheAdd :
    ∃ (s t : State) (n p : Nat) (r : Request) (f : Flight), Inv s ∧ s.cfg.valid = true ∧ ProbesSet s h1 ∧
      decode r = .ok (.test h1) ∧ Performed s p r n t f ∧ n = 4 := by
  obtain ⟨f, hf⟩ := performed_of (s := interleaved added testRequest) (p := 0) (n := 4) rfl rfl
    (other_moves (by decide)) (by decide +kernel) (by decide +kernel) (by decide +kernel)
  exact ⟨interleaved added testRequest, _, 4, 0, testRequest, f,
    inv_with_sched (s := added) ⟨added_storage, fun _ => flightInv_of_idle rfl⟩ _, rfl, added_probesSet,
    by decide, hf, rfl⟩

/-- The increment and the other probes' loads fall between the halves of a read-modify-write, and a NOP of port 1 too. -/
theorem witness_PlainAddInAnyOrderIsOneAdd :
    ∃ (s t : State) (n p : Nat) (r : Request) (f : Flight), Inv s ∧ s.cfg.valid = true ∧ s.cfg.var = .unsync ∧
      decode r = .ok (.add h1) ∧ Performed s p r n t f ∧ t.word 26 = 0x0400000000000000 := by
  obtain ⟨f, hf⟩ := performed_of (s := { small .unsync with sched := [.accept 0 ⟨0x00000001, h1, 0⟩, .event 0 1,
      .event 0 3, .command 1 ⟨0, 0, 0⟩, .event 0 1, .event 0 2, .event 0 1, .event 0 1, .event 0 0] }) (p := 0) (n := 8)
    rfl rfl (other_moves (by decide)) (by decide +kernel) (by decide +kernel) (by decide +kernel)
  exact ⟨_, _, 8, 0, _, f, inv_with_sched (small_inv .unsync) _, rfl, rfl, by decide, hf, by decide +kernel⟩

/-- A TEST in flight on port 1 that has read its first probe as 0. -/
def stopping : State := nextOf (eventMove 1 0 (acceptMove 1 testRequest (small .atomic)))

theorem witness_ShortCircuitAnswersAbsent :
    ∃ (s : State) (p : Nat) (f : Flight), s.faults.stuck = none ∧ s.flight p = some f ∧ f.mayStop = true := by
  have h : (stopping.flight 1).any Flight.mayStop = true := by decide +kernel
  obtain ⟨hs, hm⟩ := (Option.any_eq_true_iff_get _ _).1 h
  exact ⟨stopping, 1, _, by decide +kernel, (Option.some_get hs).symm, hm⟩
theorem witness_FlightsMakeProgress :
    (∃ (s : State) (p : Nat) (f : Flight), Inv s ∧ s.faults.stuck = none ∧ s.flight p = some f ∧ f.complete = false) ∧
    (∃ (s : State) (p : Nat) (f : Flight), s.faults.stuck = none ∧ s.flight p = some f ∧ f.complete = true) ∧
    ∃ (s t : State) (p q : Nat) (f : Flight) (m : Move), s.flight p = some f ∧ q ≠ p ∧ m = .command q testRequest ∧
      step { s with sched := m :: [] } = .next t :=
  ⟨⟨flying, 1, _, flying_inv, rfl, flying_flight, by decide +kernel⟩,
    ⟨acceptMove 1 ⟨0, 0, 0⟩ State.reset, 1, _, rfl, rfl, by decide +kernel⟩,
    flying, _, 1, 0, _, _, flying_flight, by decide, rfl, next_of_goesOn (by decide +kernel)⟩

/-! ### The host's side -/

theorem witness_ShardedConstructionRoundsTheShardCount :
    (2 ^ 31 : Nat) ≤ 2 ^ 31 ∧ max 2 4 ≤ 2 ^ 31 ∧ 15 < 16 ∧ 16 ≤ 16 := by decide
theorem witness_DecodeOfEncodedImage :
    (∃ s : State, StorageInv s ∧ s.cfg.valid = true ∧ s.cfg.var = .unsync ∧ s.word 24 ≠ 0) ∧
    ∃ s : State, StorageInv s ∧ s.cfg.valid = true ∧ s.cfg.var ≠ .unsync :=
  ⟨⟨addedUnsync, addedUnsync_storage, rfl, rfl, by decide +kernel⟩, sharded, sharded_storage, rfl, by decide⟩
/-- A word and a counter of the saved filter are not 0, and the engine loaded holds another filter. -/
theorem witness_RestoredFilterIsTheSavedOne :
    ∃ (s t : State) (bytes : List Byte), StorageInv s ∧ encodeImage s = some bytes ∧ t.params = s.params ∧
      t.faults.stuck = none ∧ Quiescent t ∧ t.canAccept t.grant = true :=
  ⟨addedUnsync, sharded, _, addedUnsync_storage, rfl, rfl, rfl,
    fun x hx => List.eq_of_mem_replicate (show x ∈ List.replicate 2 Port.idle from hx), rfl⟩
theorem witness_RefusedImageLoadsNothing :
    (∃ bytes e, decodeImage bytes = .error e) ∧
    ∃ (bytes : List Byte) (img : Image) (t : State), decodeImage bytes = .ok img ∧ t.faults.stuck = none ∧
      Quiescent t ∧ t.canAccept t.grant = true ∧ t.params.capBlocks < img.blockCount := by
  refine ⟨⟨header 2 0 0, _, test_image_version⟩, ?_⟩
  have h : (match decodeImage (header 1 3 65 ++ List.replicate (65 * 64) 0) with
    | .ok img => decide (64 < img.blockCount)
    | .error _ => false) = true := by decide +kernel
  rcases hd : decodeImage (header 1 3 65 ++ List.replicate (65 * 64) 0) with e | img
  · rw [hd] at h; cases h
  · rw [hd] at h
    exact ⟨_, img, sharded, hd, rfl,
      fun x hx => List.eq_of_mem_replicate (show x ∈ List.replicate 2 Port.idle from hx), rfl, of_decide_eq_true h⟩

end Sys2Proof.Tests
end

section
/-! PROOFS. The parameters under every move: what serving a request, an event and each other move do to them, and that no step changes them (R9, R30). -/

namespace Sys2Proof.Machine

/-! ## What a step answers -/

/-- Every step that answers a next state idles or makes the next move of its schedule. -/
theorem step_next_cases {s t : State} (h : step s = .next t) :
    s.faults.stuck = none ∧
      ((s.sched = [] ∧ t = s) ∨
        ∃ m rest, s.sched = m :: rest ∧ runMove m { s with sched := rest } = .next t) := by
  rcases hn : s.faults.stuck with _ | e
  · rcases hs : s.sched with _ | ⟨m, rest⟩
    · rw [step_of_nil hn hs] at h
      injection h with h
      exact ⟨rfl, .inl ⟨rfl, h.symm⟩⟩
    · exact ⟨rfl, .inr ⟨m, rest, rfl, (step_of_sched hn hs).symm.trans h⟩⟩
  · rw [step_of_stuck hn] at h
    cases h

/-- A whole command, legal or not, serves a request with a program on its port. -/
theorem commandMove_serves (p : Nat) (r : Request) (s : State) :
    ∃ r' prog, commandMove p r s = serve p r' prog { s with grant := p } := by
  unfold commandMove
  split
  · exact ⟨_, _, exec_eq _ _⟩
  · exact ⟨_, _, rfl⟩

/-! ## The parameters under each move -/

/-- The two parts of a command's events and its response keep the parameters. -/
theorem runCommand_params {p : Nat} {prog : Program} {s t : State} (h : runCommand p prog s = .next t) :
    t.params = s.params := by
  obtain ⟨s1, d1, s2, d2, hfirst, hsecond, rfl⟩ := runCommand_next h
  calc (s2.deliver p prog.status (prog.data d2)).params
    _ = s2.params := State.deliver_params ..
    _ = s1.params := (runTasks_kept hsecond).1
    _ = s.params := (runTasks_kept hfirst).1

/-- Serving a request keeps the parameters, whether it waits, records faults or runs. -/
theorem serve_params {p : Nat} {r : Request} {prog : Program} {s t : State} (h : serve p r prog s = .next t) :
    t.params = s.params := by
  rcases serve_cases p r prog s with ⟨e, -, hstop⟩ | ⟨-, -, hwait⟩ | ⟨-, -, -, hfault⟩ | ⟨-, -, -, hrun⟩
  · rw [hstop] at h
    cases h
  · rw [hwait] at h
    cases h
    rfl
  · rw [hfault] at h
    cases h
    exact State.accepted_params ..
  · exact runCommand_params (hrun.symm.trans h)

theorem commandMove_params {p : Nat} {r : Request} {s t : State} (h : commandMove p r s = .next t) :
    t.params = s.params := by
  obtain ⟨r', prog, hserve⟩ := commandMove_serves p r s
  exact serve_params (s := { s with grant := p }) (hserve.symm.trans h)

@[simp] theorem acceptMove_params (p : Nat) (r : Request) (s : State) : (acceptMove p r s).params = s.params := by
  unfold acceptMove
  split
  · exact State.accepted_params ..
  · rfl

theorem eventMove_params {p n : Nat} {s t : State} (h : eventMove p n s = .next t) : t.params = s.params := by
  rcases eventMove_cases p n s with hidle | ⟨_, _, _, _, -, -, -, hstop⟩ | ⟨_, _, _, _, _, -, -, hperform, hnext⟩
  · rw [hidle] at h
    cases h
    rfl
  · rw [hstop] at h
    cases h
  · rw [hnext] at h
    cases h
    exact (perform_kept hperform).1

@[simp] theorem shortCircuitMove_params (p : Nat) (s : State) : (shortCircuitMove p s).params = s.params := by
  unfold shortCircuitMove
  split
  · rfl
  · split
    · exact State.setPort_params ..
    · rfl

@[simp] theorem respondMove_params (p : Nat) (s : State) : (respondMove p s).params = s.params := by
  unfold respondMove
  split
  · rfl
  · split
    · rw [State.deliver_params, State.setPort_params]
    · rfl

@[simp] theorem resetMove_params (u : Residue) (s : State) : (resetMove u s).params = s.params := rfl

/-- No move changes the parameters, from any state. -/
theorem runMove_params {m : Move} {s t : State} (h : runMove m s = .next t) : t.params = s.params := by
  cases m with
  | command p r => exact commandMove_params h
  | accept p r => cases h; exact acceptMove_params ..
  | event p n => exact eventMove_params h
  | shortCircuit p => cases h; exact shortCircuitMove_params ..
  | respond p => cases h; exact respondMove_params ..
  | reset u => cases h; exact resetMove_params ..

/-- Settles O13: an idle step changes nothing, and every move a step can make keeps the parameters. -/
theorem stepKeepsTheParameters : Obligations.StepKeepsTheParameters := by
  unfold Obligations.StepKeepsTheParameters
  intro s t h
  obtain ⟨-, ⟨-, rfl⟩ | ⟨m, rest, -, hmove⟩⟩ := step_next_cases h
  · rfl
  · exact runMove_params (s := { s with sched := rest }) hmove

end Sys2Proof.Machine
end

section
/-! PROOFS. States that differ in the commands in flight, faults, schedule, granted port and responses only, and what such a difference keeps of the invariant. -/

namespace Sys2Proof.Machine

/-- `t` has the parameters, registers, array, counters and number of ports of `s`. -/
structure SameStorage (s t : State) : Prop where
  params : t.params = s.params
  cfg : t.cfg = s.cfg
  pw : t.pw = s.pw
  po : t.po = s.po
  count : t.count = s.count
  arr : t.arr = s.arr
  ports_length : t.ports.length = s.ports.length

namespace SameStorage

theorem refl (s : State) : SameStorage s s := ⟨rfl, rfl, rfl, rfl, rfl, rfl, rfl⟩

theorem word {s t : State} (h : SameStorage s t) (g : Nat) : t.word g = s.word g := by
  unfold State.word
  rw [h.arr]

theorem setPort (s : State) (p : Nat) (x : Port) : SameStorage s (s.setPort p x) :=
  ⟨rfl, rfl, rfl, rfl, rfl, rfl, by simp⟩

theorem accepted (s : State) (p : Nat) (r : Request) (prog : Program) : SameStorage s (s.accepted p r prog) :=
  ⟨rfl, rfl, rfl, rfl, rfl, rfl, by simp⟩

theorem with_sched (s : State) (rest : List Move) : SameStorage s { s with sched := rest } :=
  ⟨rfl, rfl, rfl, rfl, rfl, rfl, rfl⟩

theorem with_grant (s : State) (p : Nat) : SameStorage s { s with grant := p } := ⟨rfl, rfl, rfl, rfl, rfl, rfl, rfl⟩

theorem storageInv {s t : State} (h : SameStorage s t) (hs : StorageInv s) : StorageInv t := by
  obtain ⟨hparams, hcfg, hpw, hpo, hcount, harr, hports⟩ := h
  obtain ⟨hlegal, hconfigured, harr_wf, harr_below, hcount_wf, hcount_below, hlength⟩ := hs
  have hconfigured' : ConfiguredLegal t := by
    unfold ConfiguredLegal PartitionLoaded State.width State.offset at hconfigured ⊢
    rwa [hparams, hcfg, hpw, hpo]
  exact ⟨hparams ▸ hlegal, hconfigured', harr ▸ harr_wf, by rwa [hparams, harr], hcount ▸ hcount_wf,
    by rwa [hparams, hcount], by rwa [hparams, hports]⟩

/-- Commands in flight stay legal as the others end. -/
theorem flightInv {s t : State} (h : SameStorage s t) (hf : FlightInv s)
    (hsub : ∀ q g, t.flight q = some g → s.flight q = some g) : FlightInv t where
  flights q g hg := (hf.flights q g (hsub q g hg)).congr h.params (fun _ => h.cfg) fun _ _ => h.word
  no_overlap := hf.no_overlap.congr (fun q g hg => ⟨g, hsub q g hg, rfl⟩) fun _ _ _ _ _ _ _ _ _ => h.cfg

end SameStorage

/-- The schedule is no part of the invariant. -/
theorem Inv.with_sched {s : State} (h : Inv s) (rest : List Move) : Inv { s with sched := rest } :=
  have same := SameStorage.with_sched s rest
  ⟨same.storageInv h.storage, fun hn => same.flightInv (h.inFlight hn) fun _ _ hg => hg⟩

/-- The granted port changes nothing of what tasks do. -/
theorem tasksEffect_with_grant (s : State) (p : Nat) (l : List Task) :
    tasksEffect { s with grant := p } l = { tasksEffect s l with grant := p } := by
  induction l generalizing s with
  | nil => rfl
  | cons x l ih =>
    rw [tasksEffect_cons, tasksEffect_cons, ← ih]
    cases x <;> rfl

end Sys2Proof.Machine
end

section
/-! PROOFS. What each move can do from a legal state: inversion lemmas for serving a request and for the moves of a command in flight, and the effect of a move on the storage (R71 to R74). -/

namespace Sys2Proof.Machine

/-! ## One lemma per move -/

/-- A request whose program is its own, served to a next state, has waited, recorded faults at its acceptance, or run
tasks of its own and responded. -/
theorem serve_next_cases {p : Nat} {r : Request} {prog : Program} {s t : State} (hown : prog.Owned s (opByte r))
    (h : serve p r prog s = .next t) :
    t = s ∨ ((overlapFaults s r).stuck ≠ none ∧ t = s.accepted p r prog) ∨
      ((overlapFaults s r).stuck = none ∧ ∃ l st d, (∀ x ∈ l, x.Fits s (opByte r)) ∧
        t = (tasksEffect s l).deliver p st d) := by
  rcases serve_cases p r prog s with ⟨e, -, hstop⟩ | ⟨-, -, hwait⟩ | ⟨-, -, hover, hfault⟩ | ⟨-, -, halone, hrun⟩
  · rw [hstop] at h
    cases h
  · rw [hwait] at h
    cases h
    exact .inl rfl
  · rw [hfault] at h
    cases h
    exact .inr (.inl ⟨hover, rfl⟩)
  · rw [hrun, runCommand_eq _ (fun x hx => (hown.first x hx).legal) (fun x hx => (hown.second x hx).legal),
      ← tasksEffect_append] at h
    cases h
    refine .inr (.inr ⟨halone, _, _, _, fun x hx => ?_, rfl⟩)
    rcases List.mem_append.1 hx with hfirst | hrest
    · exact hown.first x hfirst
    · exact hown.second x (mem_rest hrest)

/-- A whole command serves its request, or the one that encodes the same command, with the request's program. -/
theorem commandMove_eq_serve (p : Nat) (r : Request) (s : State) :
    ∃ r', opByte r' = opByte r ∧
      commandMove p r s = serve p r' (requestProgram r { s with grant := p }) { s with grant := p } := by
  unfold commandMove requestProgram
  split
  · rename_i i hi
    exact ⟨encode i, (opByte_encode i).trans (decode_opByte hi).symm, exec_eq _ _⟩
  · exact ⟨r, rfl, rfl⟩

/-- A whole command has waited, recorded faults at its acceptance, or run tasks of its own and responded. -/
theorem commandMove_next_cases {p : Nat} {r : Request} {s t : State} (hs : StorageInv s)
    (h : commandMove p r s = .next t) :
    t = { s with grant := p } ∨
      (∃ r' prog, (overlapFaults s r').stuck ≠ none ∧ t = State.accepted { s with grant := p } p r' prog) ∨
      ∃ r' l st d, opByte r' = opByte r ∧ (overlapFaults s r').stuck = none ∧ (∀ x ∈ l, x.Fits s (opByte r)) ∧
        t = State.deliver { tasksEffect s l with grant := p } p st d := by
  obtain ⟨r', hop, hserve⟩ := commandMove_eq_serve p r s
  have hown := requestProgram_owned ((SameStorage.with_grant s p).storageInv hs) r
  rw [← hop] at hown
  rcases serve_next_cases hown (hserve.symm.trans h) with hwait | ⟨hover, hfault⟩ | ⟨halone, l, st, d, hl, hrun⟩
  · exact .inl hwait
  · exact .inr (.inl ⟨r', _, hover, hfault⟩)
  · rw [tasksEffect_with_grant] at hrun
    refine .inr (.inr ⟨r', l, st, d, hop, halone, fun x hx => ?_, hrun⟩)
    obtain ⟨hlegal, howner, hplain, hatomic, hwhole⟩ := hl x hx
    exact ⟨hlegal, hop ▸ howner, hplain, hatomic, hwhole⟩

theorem acceptMove_cases (p : Nat) (r : Request) (s : State) :
    acceptMove p r s = s ∨
      (s.canAccept p = true ∧ acceptMove p r s = s.accepted p r (requestProgram r s)) := by
  unfold acceptMove
  split
  · exact .inr ⟨‹_›, rfl⟩
  · exact .inl rfl

theorem shortCircuitMove_cases (p : Nat) (s : State) :
    shortCircuitMove p s = s ∨
      ∃ f, s.flight p = some f ∧
        shortCircuitMove p s = s.setPort p (.busy (Flight.settle { f with todo := [] })) := by
  unfold shortCircuitMove
  split
  · exact .inl rfl
  · split
    · exact .inr ⟨_, ‹_›, rfl⟩
    · exact .inl rfl

theorem respondMove_cases (p : Nat) (s : State) :
    respondMove p s = s ∨ ∃ st d, respondMove p s = (s.setPort p .idle).deliver p st d := by
  unfold respondMove
  split
  · exact .inl rfl
  · split
    · exact .inr ⟨_, _, rfl⟩
    · exact .inl rfl

/-! ## The effect of a move on the storage -/

/-- What a move other than the reset wire can do to the storage of `s`: nothing; the effect of the tasks of the command
it serves whole; or that of one task of the command in flight it advances. -/
inductive StorageEffect (s : State) : Move → State → Prop
  | kept {m : Move} {t : State} (same : SameStorage s t) : StorageEffect s m t
  | served {p : Nat} {r : Request} {l : List Task} {t : State} (fits : ∀ x ∈ l, x.Fits s (opByte r))
      (same : SameStorage (tasksEffect s l) t) : StorageEffect s (.command p r) t
  | advanced {p n : Nat} {f : Flight} {x : Task} {t : State} (inFlight : s.flight p = some f) (mem : x ∈ f.todo)
      (same : SameStorage (x.effect s) t) : StorageEffect s (.event p n) t

/-- One event of a task has the task's effect, but for the load half of a read-modify-write, which has none (R183). -/
theorem perform_effect {s s1 : State} {x : Task} {v : Word} (h : perform s x.event = .ok (s1, v)) :
    s1 = s ∨ s1 = x.effect s := by
  cases x with
  | probe | rmwLoad | countOnes | readWord => exact .inl (perform_atomicLoad h).1
  | setBit | rmwStore | inc | addCount | storeWord | storeCount =>
    simp only [Task.event, perform] at h
    split at h
    · cases h
      exact .inr rfl
    · cases h
  | writeCfg =>
    cases h
    exact .inr rfl

theorem commandMove_storageEffect {p : Nat} {r : Request} {s t : State} (hs : StorageInv s)
    (h : commandMove p r s = .next t) : StorageEffect s (.command p r) t := by
  rcases commandMove_next_cases hs h with rfl | ⟨_, _, -, rfl⟩ | ⟨_, l, _, _, -, -, hfits, rfl⟩
  · exact .kept (.with_grant s p)
  · exact .kept ⟨rfl, rfl, rfl, rfl, rfl, rfl, by simp⟩
  · exact .served hfits ⟨rfl, rfl, rfl, rfl, rfl, rfl, rfl⟩

theorem acceptMove_same (p : Nat) (r : Request) (s : State) : SameStorage s (acceptMove p r s) := by
  rcases acceptMove_cases p r s with h | ⟨-, h⟩ <;> rw [h]
  · exact .refl s
  · exact .accepted ..

theorem eventMove_storageEffect {p n : Nat} {s t : State} (h : eventMove p n s = .next t) :
    StorageEffect s (.event p n) t := by
  rcases eventMove_cases p n s with hidle | ⟨_, _, _, _, -, -, -, hstop⟩ |
    ⟨f, x, rest, s1, v, hf, hpick, hperform, hnext⟩
  · rw [hidle] at h
    cases h
    exact .kept (.refl s)
  · rw [hstop] at h
    cases h
  · rw [hnext] at h
    cases h
    rcases perform_effect hperform with rfl | rfl
    · exact .kept (.setPort ..)
    · exact .advanced hf (pickTask_mem hpick).1 (.setPort ..)

theorem shortCircuitMove_same (p : Nat) (s : State) : SameStorage s (shortCircuitMove p s) := by
  rcases shortCircuitMove_cases p s with h | ⟨f, -, h⟩ <;> rw [h]
  · exact .refl s
  · exact .setPort ..

theorem respondMove_same (p : Nat) (s : State) : SameStorage s (respondMove p s) := by
  rcases respondMove_cases p s with h | ⟨st, d, h⟩ <;> rw [h]
  · exact .refl s
  · exact ⟨rfl, rfl, rfl, rfl, rfl, rfl, by simp⟩

/-- Every move but the reset wire has one of the three effects on the storage. -/
theorem runMove_storageEffect {m : Move} {s t : State} (hs : StorageInv s) (hm : ∀ u, m ≠ .reset u)
    (h : runMove m s = .next t) : StorageEffect s m t := by
  cases m with
  | command p r => exact commandMove_storageEffect hs h
  | accept p r => cases h; exact .kept (acceptMove_same p r s)
  | event p n => exact eventMove_storageEffect h
  | shortCircuit p => cases h; exact .kept (shortCircuitMove_same p s)
  | respond p => cases h; exact .kept (respondMove_same p s)
  | reset u => exact absurd rfl (hm u)

/-- A step with a move to make, other than the reset wire, has one of the three effects on the storage. -/
theorem step_storageEffect {m : Move} {rest : List Move} {s t : State} (hinv : Inv s) (hsched : s.sched = m :: rest)
    (hm : ∀ u, m ≠ .reset u) (h : step s = .next t) : StorageEffect { s with sched := rest } m t := by
  obtain ⟨hn, -⟩ := step_next_cases h
  rw [step_of_sched hn hsched] at h
  exact runMove_storageEffect (hinv.with_sched rest).storage hm h

end Sys2Proof.Machine
end

section
/-! PROOFS. Every step keeps the invariant (O11): the storage by the effect of each move on it, the commands in flight move by move. -/

namespace Sys2Proof.Machine

/-- Storage stays legal under every effect a move has on it. -/
theorem StorageEffect.storageInv {m : Move} {s t : State} (h : StorageEffect s m t) (hs : StorageInv s)
    (hf : FlightInv s) : StorageInv t := by
  cases h with
  | kept same => exact same.storageInv hs
  | served fits same => exact same.storageInv (tasksEffect_storage hs fun x hx => (fits x hx).legal)
  | advanced inFlight mem same =>
    exact same.storageInv (Task.effect_storage hs ((hf.flights _ _ inFlight).todo _ mem).legal)

/-- The reset wire leaves storage that is legal, whatever it held, and nothing in flight (R381). -/
theorem resetMove_inv {s : State} (hs : StorageInv s) (u : Residue) : Inv (resetMove u s) := by
  have same : SameStorage (State.resetWith s.params (Residue.normal s.params u)) (resetMove u s) :=
    ⟨rfl, rfl, rfl, rfl, rfl, rfl, rfl⟩
  have idle : ∀ q, (resetMove u s).flight q = none := fun q =>
    (flight_congr rfl q).trans (resetWith_flight s.params (Residue.normal s.params u) q)
  refine ⟨same.storageInv (resetWith_storage hs.params u), fun _ => ⟨fun q g hg => ?_, fun p q f g _ hf => ?_⟩⟩
  · rw [idle] at hg
    cases hg
  · rw [idle] at hf
    cases hf

/-! ## The commands in flight under each move -/

/-- Accepted from an unfaulted state, a request leaves the faults of its overlap and no other (R350). -/
theorem accepted_stuck {s : State} {r : Request} (hn : s.faults.stuck = none) (p : Nat) (prog : Program) :
    (s.accepted p r prog).faults.stuck = (overlapFaults s r).stuck := by
  rw [State.accepted_faults, union_of_stuck_none hn]

theorem commandMove_flightInv {p : Nat} {r : Request} {s t : State} (hs : StorageInv s) (hf : FlightInv s)
    (hn : s.faults.stuck = none) (h : commandMove p r s = .next t) (ht : t.faults.stuck = none) : FlightInv t := by
  rcases commandMove_next_cases hs h with rfl | ⟨r', prog, hover, rfl⟩ | ⟨r', l, st, d, hop, halone, hfits, rfl⟩
  · exact (SameStorage.with_grant s p).flightInv hf fun _ _ hg => hg
  · exact absurd ((accepted_stuck (s := { s with grant := p }) hn p prog).symm.trans ht) hover
  · exact flightInv_tasks hf halone hop (fun x hx => (hfits x hx).owner) (tasksEffect_params s l)
      (tasksEffect_ports s l) rfl fun _ => rfl

theorem acceptMove_flightInv {p : Nat} {r : Request} {s : State} (hs : StorageInv s) (hf : FlightInv s)
    (hn : s.faults.stuck = none) (ht : (acceptMove p r s).faults.stuck = none) : FlightInv (acceptMove p r s) := by
  rcases acceptMove_cases p r s with h | ⟨hidle, h⟩ <;> rw [h] at ht ⊢
  · exact hf
  · rw [accepted_stuck hn] at ht
    exact flightInv_accept hf hidle ht (requestProgram_owned hs r)

theorem eventMove_flightInv {p n : Nat} {s t : State} (hf : FlightInv s) (h : eventMove p n s = .next t) :
    FlightInv t := by
  rcases eventMove_cases p n s with hidle | ⟨_, _, _, _, -, -, -, hstop⟩ |
    ⟨f, x, rest, s1, v, hflight, hpick, hperform, hnext⟩
  · rw [hidle] at h
    cases h
    exact hf
  · rw [hstop] at h
    cases h
  · rw [hnext] at h
    cases h
    exact flightInv_event hf hflight hpick hperform

/-- A command in flight may be replaced by a legal rest of itself. -/
theorem FlightInv.setPort_busy {s : State} {p : Nat} {f f' : Flight} (h : FlightInv s) (hf : s.flight p = some f)
    (hreq : f'.req = f.req) (hlegal : FlightLegal s f') : FlightInv (s.setPort p (.busy f')) := by
  have flight_eq : ∀ q g, (s.setPort p (.busy f')).flight q = some g → (q = p ∧ g = f') ∨ s.flight q = some g := by
    intro q g hg
    by_cases hq : q = p
    · subst hq
      rw [flight_setPort_busy s f' (flight_lt hf)] at hg
      exact .inl ⟨rfl, (Option.some.inj hg).symm⟩
    · rw [flight_setPort_ne s _ hq] at hg
      exact .inr hg
  refine ⟨fun q g hg => ?_, h.no_overlap.congr (fun q g hg => ?_) fun _ _ _ _ _ _ _ _ _ => rfl⟩
  · have hlegal' : FlightLegal s g := by
      rcases flight_eq q g hg with ⟨-, rfl⟩ | hother
      · exact hlegal
      · exact h.flights q g hother
    exact hlegal'.congr rfl (fun _ => rfl) fun _ _ _ => rfl
  · rcases flight_eq q g hg with ⟨rfl, rfl⟩ | hother
    · exact ⟨f, hf, hreq⟩
    · exact ⟨g, hother, rfl⟩

theorem shortCircuitMove_flightInv (p : Nat) {s : State} (hf : FlightInv s) : FlightInv (shortCircuitMove p s) := by
  rcases shortCircuitMove_cases p s with h | ⟨f, hflight, h⟩ <;> rw [h]
  · exact hf
  · have hlegal := hf.flights p f hflight
    exact hf.setPort_busy hflight (settle_req _)
      (FlightLegal.settle nofun hlegal.second .nil hlegal.second_whole nofun)

theorem respondMove_flightInv (p : Nat) {s : State} (hf : FlightInv s) : FlightInv (respondMove p s) := by
  refine (respondMove_same p s).flightInv hf fun q g hg => ?_
  rcases respondMove_cases p s with h | ⟨st, d, h⟩ <;> rw [h] at hg
  · exact hg
  · have hg : (s.setPort p .idle).flight q = some g := hg
    by_cases hq : q = p
    · subst hq
      rw [flight_setPort_idle] at hg
      cases hg
    · rwa [flight_setPort_ne s _ hq] at hg

/-! ## The invariant -/

/-- The commands in flight stay legal under every move that records no fault. -/
theorem runMove_flightInv {m : Move} {s t : State} (hs : StorageInv s) (hf : FlightInv s) (hn : s.faults.stuck = none)
    (h : runMove m s = .next t) (ht : t.faults.stuck = none) : FlightInv t := by
  cases m with
  | command p r => exact commandMove_flightInv hs hf hn h ht
  | accept p r => cases h; exact acceptMove_flightInv hs hf hn ht
  | event p n => exact eventMove_flightInv hf h
  | shortCircuit p => cases h; exact shortCircuitMove_flightInv p hf
  | respond p => cases h; exact respondMove_flightInv p hf
  | reset u => cases h; exact (resetMove_inv hs u).inFlight ht

/-- Every move from an unfaulted state keeps the invariant. -/
theorem runMove_inv {m : Move} {s t : State} (hinv : Inv s) (hn : s.faults.stuck = none)
    (h : runMove m s = .next t) : Inv t := by
  have hf := hinv.inFlight hn
  refine ⟨?_, runMove_flightInv hinv.storage hf hn h⟩
  by_cases hm : ∃ u, m = .reset u
  · obtain ⟨u, rfl⟩ := hm
    cases h
    exact (resetMove_inv hinv.storage u).storage
  · exact (runMove_storageEffect hinv.storage (not_exists.1 hm) h).storageInv hinv.storage hf

/-- Settles O11: an idle step changes nothing, and every move keeps the storage and the commands in flight legal. -/
theorem stepKeepsTheInvariant : Obligations.StepKeepsTheInvariant := by
  unfold Obligations.StepKeepsTheInvariant
  intro s t hinv h
  obtain ⟨hn, ⟨-, rfl⟩ | ⟨m, rest, -, hmove⟩⟩ := step_next_cases h
  · exact hinv
  · exact runMove_inv (hinv.with_sched rest) hn hmove

end Sys2Proof.Machine
end

section
/-! PROOFS. What a step leaves of the configuration and partition registers (O18) and of the array's bits (O51), read off its effect on the storage. -/

namespace Sys2Proof.Machine

/-! ## The configuration (R32, R38) -/

/-- No task clears `CFG.VALID`: the only one that writes it sets it (R276). -/
theorem Task.effect_valid {s : State} (h : s.cfg.valid = true) (x : Task) : (x.effect s).cfg.valid = true := by
  cases x with
  | writeCfg => rfl
  | probe | setBit | rmwLoad | rmwStore | inc | countOnes | addCount | readWord | storeWord | storeCount => exact h

theorem tasksEffect_valid {s : State} (h : s.cfg.valid = true) (l : List Task) :
    (tasksEffect s l).cfg.valid = true := by
  induction l generalizing s with
  | nil => exact h
  | cons x l ih => exact ih (Task.effect_valid h x)

theorem StorageEffect.valid {m : Move} {s t : State} (h : StorageEffect s m t) (hv : s.cfg.valid = true) :
    t.cfg.valid = true := by
  cases h with
  | kept same => rwa [same.cfg]
  | served fits same => rw [same.cfg]; exact tasksEffect_valid hv _
  | advanced inFlight mem same => rw [same.cfg]; exact Task.effect_valid hv _

/-- The configuration changes under the tasks of a CONFIG only. -/
theorem StorageEffect.registers_kept {m : Move} {s t : State} (h : StorageEffect s m t) (hf : FlightInv s)
    (hserved : ∀ p r, m = .command p r → opByte r ≠ 0x0A)
    (hadvanced : ∀ p n f, m = .event p n → s.flight p = some f → opByte f.req ≠ 0x0A) :
    t.cfg = s.cfg ∧ t.pw = s.pw ∧ t.po = s.po := by
  cases h with
  | kept same => exact ⟨same.cfg, same.pw, same.po⟩
  | served fits same =>
    rw [same.cfg, same.pw, same.po]
    exact (tasksEffect_cfg_of_op fun x hx => (fits x hx).owner).resolve_right (hserved _ _ rfl)
  | @advanced p n f x _ inFlight mem same =>
    rw [same.cfg, same.pw, same.po]
    refine (tasksEffect_cfg_of_op (op := opByte f.req) (l := [x]) fun y hy => ?_).resolve_right
      (hadvanced p n f rfl inFlight)
    rw [List.mem_singleton.1 hy]
    exact ((hf.flights p f inFlight).todo x mem).owner

/-- Settles O18: of all tasks only CONFIG's write the configuration, and none clears `CFG.VALID`. -/
theorem onlyConfigChangesTheConfiguration : Obligations.OnlyConfigChangesTheConfiguration := by
  unfold Obligations.OnlyConfigChangesTheConfiguration
  intro s t m rest hinv hsched h hm
  obtain ⟨hn, -⟩ := step_next_cases h
  have heffect := step_storageEffect hinv hsched hm h
  exact ⟨heffect.valid, heffect.registers_kept ((hinv.with_sched rest).inFlight hn)⟩

/-! ## The array's bits (R42) -/

theorem BitsKept.trans {s t u : State} (h : BitsKept s t) (h' : BitsKept t u) : BitsKept s u :=
  fun g j hj => h' g j (h g j hj)

theorem SameStorage.bitsKept {s t : State} (h : SameStorage s t) : BitsKept s t := fun g j hj => by rwa [h.word]

/-- A word that keeps the bits of another under a mask has them (R183). -/
theorem getLsbD_of_and_eq {a b : Word} (h : a &&& b = a) {j : Nat} (hj : a.getLsbD j = true) : b.getLsbD j = true := by
  rw [← h, BitVec.getLsbD_and, Bool.and_eq_true] at hj
  exact hj.2

/-- A task clears no bit, if it is no plain store and, where it is the store half of a read-modify-write, the value to
store has every bit the word holds. -/
theorem Task.effect_bitsKept {s : State} {x : Task} (hplain : ∀ g v, x ≠ .storeWord g v)
    (hhalf : ∀ g v, x = .rmwStore g v → s.word g &&& v = s.word g) : BitsKept s (x.effect s) := by
  intro g j hj
  rw [Task.effect_word]
  cases x with
  | setBit h m | rmwLoad h m =>
    dsimp only
    split
    · rename_i hg
      rw [BitVec.getLsbD_or, ← hg, hj, Bool.true_or]
    · exact hj
  | rmwStore h v =>
    dsimp only
    split
    · rename_i hg
      subst hg
      exact getLsbD_of_and_eq (hhalf g v rfl) hj
    · exact hj
  | storeWord h v => exact absurd rfl (hplain h v)
  | probe | inc | countOnes | addCount | readWord | storeCount | writeCfg => exact hj

/-- Only CLEAR, WRWORD and CONFIG have plain stores. -/
theorem ne_storeWord_of_owner {r : Request} {x : Task} (hr : clearsBits r = false) (ho : opByte r ∈ x.owners)
    (g : Nat) (v : Word) : x ≠ .storeWord g v := by
  rintro rfl
  have hclears : clearsBits r = true := List.contains_iff_mem.2 ho
  rw [hr] at hclears
  cases hclears

/-- Tasks of a command that clears no bits, none of them a pending store half, clear none. -/
theorem tasksEffect_bitsKept {s : State} {r : Request} {l : List Task} (hr : clearsBits r = false)
    (ho : ∀ x ∈ l, opByte r ∈ x.owners) (hwhole : ∀ x ∈ l, x.pendingStore = none) : BitsKept s (tasksEffect s l) := by
  induction l generalizing s with
  | nil => exact fun _ _ hj => hj
  | cons x l ih =>
    have hhalf : ∀ g v, x = .rmwStore g v → s.word g &&& v = s.word g := fun g v hx => by
      have := hwhole x (by simp)
      rw [hx] at this
      cases this
    exact (Task.effect_bitsKept (ne_storeWord_of_owner hr (ho x (by simp))) hhalf).trans
      (ih (fun y hy => ho y (by simp [hy])) fun y hy => hwhole y (by simp [hy]))

/-- A move that may not clear bits clears none. -/
theorem StorageEffect.bitsKept {m : Move} {s t : State} (h : StorageEffect s m t) (hf : FlightInv s)
    (hm : mayClear s m = false) : BitsKept s t := by
  cases h with
  | kept same => exact same.bitsKept
  | served fits same =>
    exact (tasksEffect_bitsKept hm (fun x hx => (fits x hx).owner) fun x hx => (fits x hx).whole).trans same.bitsKept
  | @advanced p n f x _ inFlight mem same =>
    have hr : clearsBits f.req = false := by simpa [mayClear, inFlight] using hm
    have hlegal := hf.flights p f inFlight
    refine (Task.effect_bitsKept (ne_storeWord_of_owner hr (hlegal.todo x mem).owner) fun g v hx => ?_).trans
      same.bitsKept
    exact hlegal.store_keeps g v (hx ▸ mem)

/-- Settles O51: a command other than CLEAR, WRWORD and CONFIG stores to the array by ORs and by store halves that keep
the bits of their word. -/
theorem bitsNeverFall : Obligations.BitsNeverFall := by
  unfold Obligations.BitsNeverFall
  intro s t m rest hinv hsched hm h
  obtain ⟨hn, -⟩ := step_next_cases h
  have hreset : ∀ u, m ≠ .reset u := by
    rintro u rfl
    cases hm
  exact (step_storageEffect hinv hsched hreset h).bitsKept ((hinv.with_sched rest).inFlight hn) hm

end Sys2Proof.Machine
end

section
/-! PROOFS. The image byte view (O24), a step that serves a whole command (O6), and that no legal state stops (O12). -/

namespace Sys2Proof.Machine

/-! ## The image byte view (R63) -/

/-- A byte of the image view is a byte of its word. -/
theorem State.byte_eq_byteOfWord (s : State) (g : Nat) {j : Nat} (hj : j < 8) :
    s.byte (g * 8 + j) = byteOfWord (s.word g) j :=
  (byteOfWord_loadWord s.arr g j hj).symm

/-- Bit `i` of byte `j` of a word is bit `8j + i` of the word. -/
theorem State.getLsbD_byte (s : State) (g : Nat) {j i : Nat} (hj : j < 8) (hi : i < 8) :
    (s.byte (g * 8 + j)).getLsbD i = (s.word g).getLsbD (8 * j + i) := by
  rw [s.byte_eq_byteOfWord g hj, getLsbD_byteOfWord, decide_eq_true hi, Bool.true_and]

/-- Settles O24: the second clause is the first at byte `p / 8 % 8` of word `gb * 8 + p / 64`. -/
theorem imageByteViewOfWords : Obligations.ImageByteViewOfWords := by
  unfold Obligations.ImageByteViewOfWords
  refine ⟨fun s g j i hj hi => s.getLsbD_byte g hj hi, fun s gb p _ => ?_⟩
  have hbyte : gb * 64 + p / 8 = (gb * 8 + p / 64) * 8 + p / 8 % 8 := by omega
  have hbit : p % 64 = 8 * (p / 8 % 8) + p % 8 := by omega
  rw [hbyte, hbit, s.getLsbD_byte _ (Nat.mod_lt _ (by decide)) (Nat.mod_lt _ (by decide))]

/-! ## A step that serves a whole command (R71, R73) -/

/-- A whole command whose request is legal is `exec` of what it decodes to, on its port. -/
theorem commandMove_of_decode {r : Request} {i : Instr} (h : decode r = .ok i) (p : Nat) (s : State) :
    commandMove p r s = exec i { s with grant := p } := by
  unfold commandMove
  rw [h]

/-- A table word that decodes is a legal request. -/
theorem decode_of_decodeTableWord {nbits w : Nat} {i : Instr} (h : decodeTableWord nbits w = some i) :
    decode (Request.ofTableWord nbits w) = .ok i := by
  unfold decodeTableWord at h
  split at h
  · cases h
    assumption
  · cases h

/-- Settles O6: a step makes the next move, and a whole command is `exec` of what its request decodes to; the
schedule, the granted port and a table word's numbering are the model's (log entries 2, 3 and 16). -/
theorem stepRunsTheDecodedCommand : Obligations.StepRunsTheDecodedCommand := by
  unfold Obligations.StepRunsTheDecodedCommand
  have hcommand : ∀ (s : State) (p : Nat) (r : Request) (i : Instr) (rest : List Move), s.faults.stuck = none →
      s.sched = .command p r :: rest → decode r = .ok i → step s = exec i { s with sched := rest, grant := p } :=
    fun s p r i rest hn hsched hi => (step_of_sched hn hsched).trans (commandMove_of_decode hi p _)
  exact ⟨hcommand, fun s nbits w i hn hi =>
    hcommand (s.withFetchWord nbits w) 0 _ i s.sched hn rfl (decode_of_decodeTableWord hi)⟩

/-! ## No legal state stops (R40, R62) -/

/-- A command whose tasks are legal is served to a next state. -/
theorem serve_of_owned {p : Nat} {r : Request} {prog : Program} {op : BitVec 8} {s : State}
    (hn : s.faults.stuck = none) (hown : prog.Owned s op) : ∃ t, serve p r prog s = .next t := by
  rcases serve_cases p r prog s with ⟨e, hstuck, -⟩ | ⟨-, -, h⟩ | ⟨-, -, -, h⟩ | ⟨-, -, -, h⟩
  · rw [hn] at hstuck
    cases hstuck
  · exact ⟨_, h⟩
  · exact ⟨_, h⟩
  · exact ⟨_, h.trans (runCommand_eq p (fun x hx => (hown.first x hx).legal) fun x hx => (hown.second x hx).legal)⟩

/-- A legal command in flight performs its event. -/
theorem eventMove_of_flightInv {s : State} (hf : FlightInv s) (p n : Nat) : ∃ t, eventMove p n s = .next t := by
  rcases eventMove_cases p n s with h | ⟨f, x, rest, e, hflight, hpick, hperform, -⟩ | ⟨_, _, _, _, _, -, -, -, h⟩
  · exact ⟨_, h⟩
  · obtain ⟨s', v, hok⟩ := perform_of_legal ((hf.flights p f hflight).todo x (pickTask_mem hpick).1).legal
    rw [hok] at hperform
    cases hperform
  · exact ⟨_, h⟩

/-- Every move answers a next state from an unfaulted state that meets the invariant. -/
theorem runMove_of_inv {s : State} (hinv : Inv s) (hn : s.faults.stuck = none) (m : Move) :
    ∃ t, runMove m s = .next t := by
  cases m with
  | command p r =>
    obtain ⟨r', -, hserve⟩ := commandMove_eq_serve p r s
    obtain ⟨t, ht⟩ := serve_of_owned (p := p) (r := r') (s := { s with grant := p }) hn
      (requestProgram_owned ((SameStorage.with_grant s p).storageInv hinv.storage) r)
    exact ⟨t, hserve.trans ht⟩
  | event p n => exact eventMove_of_flightInv (hinv.inFlight hn) p n
  | accept p r => exact ⟨_, rfl⟩
  | shortCircuit p => exact ⟨_, rfl⟩
  | respond p => exact ⟨_, rfl⟩
  | reset u => exact ⟨_, rfl⟩

/-- Settles O12: the invariant keeps every event on words and counters that exist. -/
theorem unfaultedLegalStateSteps : Obligations.UnfaultedLegalStateSteps := by
  unfold Obligations.UnfaultedLegalStateSteps
  intro s hinv hn
  rcases hsched : s.sched with _ | ⟨m, rest⟩
  · exact ⟨s, step_of_nil hn hsched⟩
  · obtain ⟨t, ht⟩ := runMove_of_inv (hinv.with_sched rest) hn m
    exact ⟨t, (step_of_sched hn hsched).trans ht⟩

end Sys2Proof.Machine
end

section
/-! PROOFS. The running of tasks, taken apart into its events: a task's own and, after the load half of a read-modify-write, its store half (R183). -/

namespace Sys2Proof.Machine

/-- Only the load half of a read-modify-write leaves something to perform: its store half (R183). -/
theorem Task.followUp_eq_some {x y : Task} {v : Word} (h : x.followUp v = some y) :
    ∃ g m, x = .rmwLoad g m ∧ y = .rmwStore g (v ||| m) := by
  cases x with
  | rmwLoad g m =>
    cases h
    exact ⟨g, m, rfl, rfl⟩
  | probe | setBit | rmwStore | inc | countOnes | addCount | readWord | storeWord | storeCount | writeCfg => cases h

/-- A task performed is its event. -/
theorem runTask_ok {s s1 : State} {x : Task} {d : Done} (h : runTask s x = .ok (s1, d)) :
    ∃ v, perform s x.event = .ok (s1, v) ∧ d = ⟨x, v⟩ := by
  unfold runTask at h
  split at h
  · cases h
  · cases h
    exact ⟨_, ‹_›, rfl⟩

/-- A task performed with what it leaves is one event, or two. -/
theorem runWithFollowUp_ok {s s1 : State} {x : Task} {d d1 : List Done} (h : runWithFollowUp s x d = .ok (s1, d1)) :
    ∃ s' v, perform s x.event = .ok (s', v) ∧
      ((x.followUp v = none ∧ s1 = s' ∧ d1 = ⟨x, v⟩ :: d) ∨
        ∃ y w, x.followUp v = some y ∧ perform s' y.event = .ok (s1, w) ∧ d1 = ⟨y, w⟩ :: ⟨x, v⟩ :: d) := by
  unfold runWithFollowUp at h
  split at h
  · cases h
  · rename_i hx
    obtain ⟨v, hperform, rfl⟩ := runTask_ok hx
    refine ⟨_, v, hperform, ?_⟩
    split at h
    · cases h
      exact .inl ⟨‹_›, rfl, rfl⟩
    · split at h
      · cases h
      · cases h
        rename_i hy
        obtain ⟨w, hperform', rfl⟩ := runTask_ok hy
        exact .inr ⟨_, w, ‹_›, hperform', rfl⟩

/-- Tasks performed are the first with what it leaves, and then the others. -/
theorem runTasks_cons_ok {s s2 : State} {x : Task} {l : List Task} {d d2 : List Done}
    (h : runTasks s (x :: l) d = .ok (s2, d2)) :
    ∃ s1 d1, runWithFollowUp s x d = .ok (s1, d1) ∧ runTasks s1 l d1 = .ok (s2, d2) := by
  unfold runTasks at h
  split at h
  · cases h
  · exact ⟨_, _, ‹_›, h⟩

end Sys2Proof.Machine
end

section
/-! PROOFS. What commands leave unchanged: that the reading commands only respond (O49), and that ADD and TESTADD change no byte outside the selected block (O29). -/

namespace Sys2Proof.Machine

/-! ## Reading commands (R69) -/

/-- Every task of the program only reads. -/
def Program.Reads (prog : Program) : Prop := ∀ x ∈ prog.first ++ prog.second, x.reads = true

theorem raise_reads (st : Status) : (Program.raise st).Reads := nofun

theorem answer_reads (v : Word) : (Program.answer v).Reads := nofun

theorem perform_reads {l : List Task} {r : Result} (h : ∀ x ∈ l, x.reads = true) : (Program.perform l r).Reads := by
  simpa [Program.Reads, Program.perform] using h

theorem gate_reads {s : State} {p : Program} (h : p.Reads) : (gate s p).Reads :=
  gate_induction Program.Reads (fun _ => h) fun _ => raise_reads _

theorem unlessThen_reads {b : Bool} {st : Status} {p : Program} (h : p.Reads) : (unlessThen b st p).Reads :=
  unlessThen_induction Program.Reads (fun _ => h) fun _ => raise_reads _

theorem probes_reads (s : State) (h : Word) : ∀ x ∈ forEachProbe s h .probe, x.reads = true := by
  intro x hx
  obtain ⟨i, -, rfl⟩ := mem_forEachProbe.1 hx
  rfl

theorem map_reads {l : List Nat} {task : Nat → Task} (h : ∀ n, (task n).reads = true) :
    ∀ x ∈ l.map task, x.reads = true := by
  intro x hx
  obtain ⟨n, -, rfl⟩ := List.mem_map.1 hx
  exact h n

theorem rdcfgProgram_reads (sel : BitVec 8) (s : State) : (rdcfgProgram sel s).Reads := by
  unfold rdcfgProgram
  split
  · split
    iterate 4 exact answer_reads _
    refine gate_reads ?_
    unfold configuredProgram
    split
    iterate 6 exact answer_reads _
    split <;> exact unlessThen_reads (answer_reads _)
  · exact raise_reads _

/-- A reading task with what follows it leaves the state as it is. -/
theorem runWithFollowUp_of_reads {s s1 : State} {x : Task} {d d1 : List Done} (hx : x.reads = true)
    (h : runWithFollowUp s x d = .ok (s1, d1)) : s1 = s := by
  obtain ⟨s', v, hperform, ⟨-, rfl, -⟩ | ⟨y, -, hfollow, -⟩⟩ := runWithFollowUp_ok h
  · rcases perform_effect hperform with rfl | rfl
    · rfl
    · exact Task.effect_of_reads hx s
  · obtain ⟨g, m, rfl, -⟩ := Task.followUp_eq_some hfollow
    cases hx

theorem runTasks_of_reads {s s1 : State} {l : List Task} {d d1 : List Done} (hl : ∀ x ∈ l, x.reads = true)
    (h : runTasks s l d = .ok (s1, d1)) : s1 = s := by
  induction l generalizing s d with
  | nil =>
    cases h
    rfl
  | cons x l ih =>
    obtain ⟨s', d', hx, hrest⟩ := runTasks_cons_ok h
    obtain rfl := runWithFollowUp_of_reads (hl x (by simp)) hx
    exact ih (fun y hy => hl y (by simp [hy])) hrest

/-- A command all of whose tasks read only responds. -/
theorem exec_of_reads {i : Instr} {s t : State} (hready : Ready i s) (hreads : (program i s).Reads)
    (h : exec i s = .next t) : ∃ st d, t = s.deliver s.grant st d := by
  obtain ⟨s1, d1, s2, d2, hfirst, hrest, rfl⟩ := exec_next_of_ready hready h
  obtain rfl := runTasks_of_reads (fun x hx => hreads x (List.mem_append_left _ hx)) hfirst
  obtain rfl := runTasks_of_reads (fun x hx => hreads x (List.mem_append_right _ (mem_rest hx))) hrest
  exact ⟨_, _, rfl⟩

/-- Settles O49: the programs of the six commands have reading tasks only. -/
theorem readingCommandsWriteNothing : Obligations.ReadingCommandsWriteNothing := by
  unfold Obligations.ReadingCommandsWriteNothing
  intro i s t hready h hi
  refine exec_of_reads hready ?_ h
  rcases hi with rfl | ⟨h, rfl⟩ | ⟨all, shard, rfl⟩ | ⟨all, shard, rfl⟩ | ⟨shard, widx, rfl⟩ | ⟨sel, rfl⟩
  · exact answer_reads _
  · exact gate_reads (perform_reads (probes_reads s _))
  · exact gate_reads (unlessThen_reads (perform_reads (map_reads fun _ => rfl)))
  · exact gate_reads (unlessThen_reads (perform_reads (map_reads fun _ => rfl)))
  · exact gate_reads (unlessThen_reads (perform_reads (map_reads (l := [_]) fun _ => rfl)))
  · exact rdcfgProgram_reads sel s

/-! ## The selected block (R61) -/

/-- The global block a hash selects. -/
def hashBlock (s : State) (h : Word) : Nat :=
  (hashFields s.cfg h).shardIndex * s.cfg.b.toNat + (hashFields s.cfg h).blockIndex

/-- Every probe's word is one of the eight words of the selected block. -/
theorem probeWord_div {s : State} (hs : StorageInv s) (hv : s.cfg.valid = true) (h : Word) {i : Nat}
    (hi : i < s.cfg.k.toNat) : probeWord s h i / 8 = hashBlock s h := by
  have hpos := probePos_lt hs hv (hashFields s.cfg h).intraHash hi
  unfold probeWord gword hashBlock
  dsimp only
  omega

/-- Tasks none of which changes a word keep it. -/
theorem tasksEffect_word_kept {g : Nat} {l : List Task} (hl : ∀ x ∈ l, ∀ s : State, (x.effect s).word g = s.word g)
    (s : State) : (tasksEffect s l).word g = s.word g := by
  induction l generalizing s with
  | nil => rfl
  | cons x l ih =>
    rw [tasksEffect_cons, ih (fun y hy => hl y (by simp [hy])), hl x (by simp)]

/-- The add part of a hash has an OR of each probe and the increment of its shard's counter. -/
theorem mem_addTasks_cases {s : State} {h : Word} {x : Task} (hx : x ∈ addTasks s h) :
    (∃ i < s.cfg.k.toNat, x.orMask = some (probeWord s h i, probeMask s h i)) ∨ x = .inc (hashShard s h) := by
  unfold addTasks at hx
  split at hx
  all_goals
    rcases List.mem_append.1 hx with hor | hinc
    · obtain ⟨i, hi, rfl⟩ := mem_forEachProbe.1 hor
      exact .inl ⟨i, hi, rfl⟩
    · exact .inr (List.mem_singleton.1 hinc)

/-- The tasks of the test part and the add part of a hash change no word outside the selected block. -/
theorem probeTask_word_kept {s : State} (hs : StorageInv s) (hv : s.cfg.valid = true) {h : Word} {g : Nat}
    (hg : g / 8 ≠ hashBlock s h) {x : Task} (hx : x ∈ forEachProbe s h .probe ++ addTasks s h) (u : State) :
    (x.effect u).word g = u.word g := by
  rcases List.mem_append.1 hx with htest | hadd
  · rw [Task.effect_of_reads (probes_reads s h x htest)]
  · rcases mem_addTasks_cases hadd with ⟨i, hi, hor⟩ | rfl
    · rw [Task.effect_word_or hor, if_neg fun he : g = probeWord s h i => hg (he ▸ probeWord_div hs hv h hi)]
    · exact State.word_putCounter ..

/-! ## The programs of a configured engine (R180) -/

theorem program_add {s : State} (hv : s.cfg.valid = true) (h : Word) :
    program (.add h) s = .perform (addTasks s h) (.value 0) := gate_of_valid hv _

theorem program_test {s : State} (hv : s.cfg.valid = true) (h : Word) :
    program (.test h) s = .perform (forEachProbe s h .probe) .present := gate_of_valid hv _

theorem program_testadd {s : State} (hv : s.cfg.valid = true) (h : Word) :
    program (.testadd h) s =
      { status := .ok, first := forEachProbe s h .probe, second := addTasks s h,
        onlyIfAbsent := s.cfg.var == .unsync, result := .present } := gate_of_valid hv _

/-! ## What ADD and TESTADD leave unchanged (R184) -/

/-- ADD and TESTADD have tasks of the test part and the add part only. -/
theorem mem_probeTasks {s : State} (hv : s.cfg.valid = true) {h : Word} {i : Instr} (hi : i = .add h ∨ i = .testadd h)
    {x : Task} (hx : x ∈ (program i s).first ∨ x ∈ (program i s).second) :
    x ∈ forEachProbe s h .probe ++ addTasks s h := by
  rcases hi with rfl | rfl
  · rw [program_add hv] at hx
    exact List.mem_append_right _ (hx.resolve_right List.not_mem_nil)
  · rw [program_testadd hv] at hx
    exact List.mem_append.2 hx

/-- ADD and TESTADD change no word outside the selected block. -/
theorem exec_word_kept {s t : State} {h : Word} {i : Instr} (hi : i = .add h ∨ i = .testadd h) (hc : Configured i s)
    (he : exec i s = .next t) {g : Nat} (hg : g / 8 ≠ hashBlock s h) : t.word g = s.word g := by
  obtain ⟨hready, hs, hv⟩ := hc
  rw [exec_of_ready hready hs, ← tasksEffect_append] at he
  cases he
  refine tasksEffect_word_kept (fun x hx => probeTask_word_kept hs hv hg (mem_probeTasks hv hi ?_)) s
  exact (List.mem_append.1 hx).imp_right mem_rest

/-- Settles O29: a byte outside the selected block is a byte of a word outside it. -/
theorem addChangesOnlyTheSelectedBlock : Obligations.AddChangesOnlyTheSelectedBlock := by
  unfold Obligations.AddChangesOnlyTheSelectedBlock
  intro h s t hexec gb a ha
  have hg : a / 8 / 8 ≠ hashBlock s h := fun he => ha (by change _ = gb at he; omega)
  have hword : t.word (a / 8) = s.word (a / 8) := by
    rcases hexec with ⟨hc, he⟩ | ⟨hc, he⟩
    · exact exec_word_kept (.inl rfl) hc he hg
    · exact exec_word_kept (.inr rfl) hc he hg
  have hlt : a % 8 < 8 := Nat.mod_lt _ (by decide)
  rw [← Nat.div_add_mod' a 8, t.byte_eq_byteOfWord _ hlt, hword, s.byte_eq_byteOfWord _ hlt]

end Sys2Proof.Machine
end

section
/-! PROOFS. What a filter keeps while nothing clears a bit: the configuration and every 1 bit, under one move and along a run with no CLEAR, WRWORD, CONFIG or reset (R42, R77). -/

namespace Sys2Proof.Machine

/-- `t` has the configuration and partition registers of `s`, and every bit that is 1 in `s`. -/
structure FilterKept (s t : State) : Prop where
  bits : BitsKept s t
  cfg : t.cfg = s.cfg
  pw : t.pw = s.pw
  po : t.po = s.po

namespace FilterKept

theorem refl (s : State) : FilterKept s s := ⟨fun _ _ h => h, rfl, rfl, rfl⟩

theorem trans {s t u : State} (h : FilterKept s t) (h' : FilterKept t u) : FilterKept s u :=
  ⟨h.bits.trans h'.bits, h'.cfg.trans h.cfg, h'.pw.trans h.pw, h'.po.trans h.po⟩

theorem probePos {s t : State} (h : FilterKept s t) (x i : Nat) : probePos t x i = probePos s x i := by
  unfold Machine.probePos State.offset State.width
  rw [h.pw, h.po]

theorem probeWord {s t : State} (h : FilterKept s t) (k : Word) (i : Nat) : probeWord t k i = probeWord s k i := by
  unfold Machine.probeWord
  dsimp only
  rw [h.cfg, h.probePos]

theorem probeMask {s t : State} (h : FilterKept s t) (k : Word) (i : Nat) : probeMask t k i = probeMask s k i := by
  unfold Machine.probeMask
  rw [h.cfg, h.probePos]

end FilterKept

theorem SameStorage.filterKept {s t : State} (h : SameStorage s t) : FilterKept s t := ⟨h.bitsKept, h.cfg, h.pw, h.po⟩

/-- A mask met by a word is met by every word that has its bits. -/
theorem and_ne_zero_of_bits {a b m : Word} (h : ∀ j, a.getLsbD j = true → b.getLsbD j = true) (ha : a &&& m ≠ 0) :
    b &&& m ≠ 0 := by
  obtain ⟨j, hj⟩ : ∃ j, (a &&& m).getLsbD j = true := by
    by_contra hn
    exact ha (BitVec.eq_of_getLsbD_eq fun j _ => by simpa using not_exists.1 hn j)
  rw [BitVec.getLsbD_and, Bool.and_eq_true] at hj
  intro hb
  have hbit : (b &&& m).getLsbD j = true := by rw [BitVec.getLsbD_and, h j hj.1, hj.2, Bool.true_and]
  rw [hb] at hbit
  simp at hbit

theorem FilterKept.and_ne_zero {s t : State} (h : FilterKept s t) {g : Nat} {m : Word} (hs : s.word g &&& m ≠ 0) :
    t.word g &&& m ≠ 0 := and_ne_zero_of_bits (h.bits g) hs

/-- A key present stays present. -/
theorem FilterKept.probesSet {s t : State} (h : FilterKept s t) {k : Word} (hs : ProbesSet s k) : ProbesSet t k := by
  intro i hi
  rw [h.cfg] at hi
  rw [h.probeWord, h.probeMask]
  exact h.and_ne_zero (hs i hi)

/-! ## Moves that may not clear bits -/

/-- The commands that may clear bits are all exclusive (R351). -/
theorem isExclusive_of_clearsBits {r : Request} (h : clearsBits r = true) : isExclusive r = true := by
  have hmem : opByte r ∈ ([0x04, 0x09, 0x0A] : List (BitVec 8)) := List.contains_iff_mem.1 h
  rw [isExclusive_eq, List.contains_iff_mem]
  simp only [List.mem_cons, List.not_mem_nil, or_false] at hmem ⊢
  tauto

theorem isNop_eq_false_of_clearsBits {r : Request} (h : clearsBits r = true) : isNop r = false :=
  isNop_eq_false fun h0 => by
    rw [clearsBits, h0] at h
    cases h

/-- CONFIG may clear bits. -/
theorem opByte_ne_config {r : Request} (h : clearsBits r = false) : opByte r ≠ 0x0A := by
  intro h0
  rw [clearsBits, h0] at h
  cases h

/-- A move that may not clear bits keeps the filter. -/
theorem StorageEffect.filterKept {m : Move} {s t : State} (h : StorageEffect s m t) (hf : FlightInv s)
    (hm : mayClear s m = false) : FilterKept s t := by
  obtain ⟨hcfg, hpw, hpo⟩ := h.registers_kept hf
    (fun p r he => opByte_ne_config (by subst he; exact hm))
    (fun p n f he hflight => opByte_ne_config (by subst he; simpa [mayClear, hflight] using hm))
  exact ⟨h.bitsKept hf hm, hcfg, hpw, hpo⟩

/-- A step whose move, if it makes one, may not clear bits keeps the filter. -/
theorem step_filterKept {s t : State} (hinv : Inv s) (hm : ∀ m ∈ s.sched.head?, mayClear s m = false)
    (h : step s = .next t) : FilterKept s t := by
  obtain ⟨hn, ⟨-, rfl⟩ | ⟨m, rest, hsched, -⟩⟩ := step_next_cases h
  · exact .refl t
  · have hm := hm m (by simp [hsched])
    have hreset : ∀ u, m ≠ .reset u := by
      rintro u rfl
      cases hm
    exact (SameStorage.with_sched s rest).filterKept.trans
      ((step_storageEffect hinv hsched hreset h).filterKept ((hinv.with_sched rest).inFlight hn) hm)

end Sys2Proof.Machine
end

section
/-! PROOFS. The effect of a move on the ports: one inversion lemma, and what it says of one command in flight (R73, R101). -/

namespace Sys2Proof.Machine

/-- What a move of its own makes of a command in flight, `f`: one event of a task left to it, or the short-circuit. -/
inductive FlightMoved (s : State) (f : Flight) (t : State) : Flight → Prop
  | event {n : Nat} {x : Task} {rest : List Task} {s1 : State} {v : Word} (pick : pickTask f.todo n = some (x, rest))
      (performed : perform s x.event = .ok (s1, v)) (same : SameStorage s1 t) : FlightMoved s f t (f.advance x v rest)
  | stopped (may : f.mayStop = true) : FlightMoved s f t (Flight.settle { f with todo := [] })

@[simp] theorem advance_req (f : Flight) (x : Task) (v : Word) (rest : List Task) : (f.advance x v rest).req = f.req :=
  settle_req _

@[simp] theorem startFlight_req (r : Request) (prog : Program) : (startFlight r prog).req = r := settle_req _

theorem FlightMoved.req {s t : State} {f f' : Flight} (h : FlightMoved s f t f') : f'.req = f.req := by
  cases h with
  | event => exact advance_req ..
  | stopped => exact settle_req _

/-- What a move other than the reset wire can do to the ports of `s`: nothing; the acceptance of a request on an idle
port; a move of a command in flight; or its response. -/
inductive PortEffect (s : State) : Move → State → Prop
  | kept {m : Move} {t : State} (same : t.ports = s.ports) : PortEffect s m t
  | started {m : Move} {t : State} {q : Nat} {r r' : Request} {prog : Program}
      (presents : m = .command q r ∨ m = .accept q r) (idle : s.canAccept q = true) (op : opByte r' = opByte r)
      (ports : t.ports = (s.setPort q (.busy (startFlight r' prog))).ports) : PortEffect s m t
  | moved {m : Move} {t : State} {q : Nat} {f f' : Flight} (inFlight : s.flight q = some f)
      (own : FlightMoved s f t f') (ports : t.ports = (s.setPort q (.busy f')).ports) : PortEffect s m t
  | responded {q : Nat} {t : State} (ports : t.ports = (s.setPort q .idle).ports) : PortEffect s (.respond q) t

theorem commandMove_portEffect {p : Nat} {r : Request} {s t : State} (h : commandMove p r s = .next t) :
    t.sched = s.sched ∧ PortEffect s (.command p r) t := by
  obtain ⟨r', hop, hserve⟩ := commandMove_eq_serve p r s
  rw [hserve] at h
  rcases serve_cases p r' (requestProgram r { s with grant := p }) { s with grant := p } with
    ⟨e, -, hstop⟩ | ⟨-, -, hwait⟩ | ⟨-, hidle, -, hfault⟩ | ⟨-, -, -, hrun⟩
  · rw [hstop] at h
    cases h
  · rw [hwait] at h
    cases h
    exact ⟨rfl, .kept rfl⟩
  · rw [hfault] at h
    cases h
    exact ⟨rfl, .started (.inl rfl) hidle hop rfl⟩
  · obtain ⟨s1, d1, s2, d2, hfirst, hrest, rfl⟩ := runCommand_next (hrun.symm.trans h)
    obtain ⟨-, hports, -, hsched, -⟩ := runTasks_kept hfirst
    obtain ⟨-, hports', -, hsched', -⟩ := runTasks_kept hrest
    exact ⟨hsched'.trans hsched, .kept (hports'.trans hports)⟩

theorem eventMove_portEffect {p n : Nat} {s t : State} (h : eventMove p n s = .next t) :
    t.sched = s.sched ∧ PortEffect s (.event p n) t := by
  rcases eventMove_cases p n s with hidle | ⟨_, _, _, _, -, -, -, hstop⟩ |
    ⟨f, x, rest, s1, v, hflight, hpick, hperform, hnext⟩
  · rw [hidle] at h
    cases h
    exact ⟨rfl, .kept rfl⟩
  · rw [hstop] at h
    cases h
  · rw [hnext] at h
    cases h
    obtain ⟨-, hports, -, hsched, -⟩ := perform_kept hperform
    refine ⟨hsched, .moved hflight (.event hpick hperform (.setPort ..)) ?_⟩
    rw [State.setPort_ports, State.setPort_ports, hports]

theorem shortCircuitMove_portEffect (p : Nat) (s : State) :
    (shortCircuitMove p s).sched = s.sched ∧ PortEffect s (.shortCircuit p) (shortCircuitMove p s) := by
  unfold shortCircuitMove
  split
  · exact ⟨rfl, .kept rfl⟩
  · split
    · exact ⟨rfl, .moved ‹_› (.stopped ‹_›) rfl⟩
    · exact ⟨rfl, .kept rfl⟩

/-- Every move but the reset wire keeps the schedule after it and has one of the four effects on the ports. -/
theorem runMove_portEffect {m : Move} {s t : State} (hm : ∀ u, m ≠ .reset u) (h : runMove m s = .next t) :
    t.sched = s.sched ∧ PortEffect s m t := by
  cases m with
  | command p r => exact commandMove_portEffect h
  | accept p r =>
    cases h
    rcases acceptMove_cases p r s with h | ⟨hidle, h⟩ <;> rw [h]
    · exact ⟨rfl, .kept rfl⟩
    · exact ⟨rfl, .started (.inr rfl) hidle rfl rfl⟩
  | event p n => exact eventMove_portEffect h
  | shortCircuit p => cases h; exact shortCircuitMove_portEffect p s
  | respond p =>
    cases h
    rcases respondMove_cases p s with h | ⟨st, d, h⟩ <;> rw [h]
    · exact ⟨rfl, .kept rfl⟩
    · exact ⟨rfl, .responded rfl⟩
  | reset u => exact absurd rfl (hm u)

/-- Where a flight stands after port `q` has been set. -/
theorem flight_setPort_cases {s : State} {q p : Nat} {x : Port} {g : Flight} (h : (s.setPort q x).flight p = some g) :
    (p = q ∧ x = .busy g) ∨ s.flight p = some g := by
  by_cases hp : p = q
  · subst hp
    cases x with
    | idle =>
      rw [flight_setPort_idle] at h
      cases h
    | busy f =>
      have hlt : p < s.ports.length := by simpa using flight_lt h
      rw [flight_setPort_busy s f hlt] at h
      exact .inl ⟨rfl, congrArg _ (Option.some.inj h)⟩
  · exact .inr ((flight_setPort_ne s x hp).symm.trans h)

/-- A command in flight after a move was in flight before it, or the move presents its request. -/
theorem PortEffect.flight_cases {m : Move} {s t : State} {p : Nat} {g : Flight} (h : PortEffect s m t)
    (hg : t.flight p = some g) :
    (∃ f, s.flight p = some f ∧ g.req = f.req) ∨
      ∃ r, (m = .command p r ∨ m = .accept p r) ∧ opByte g.req = opByte r := by
  cases h with
  | kept same => exact .inl ⟨g, (flight_congr same p).symm.trans hg, rfl⟩
  | started presents idle op ports =>
    rcases flight_setPort_cases ((flight_congr ports p).symm.trans hg) with ⟨rfl, hbusy⟩ | hother
    · cases hbusy
      exact .inr ⟨_, presents, by rw [startFlight_req, op]⟩
    · exact .inl ⟨g, hother, rfl⟩
  | moved inFlight own ports =>
    rcases flight_setPort_cases ((flight_congr ports p).symm.trans hg) with ⟨rfl, hbusy⟩ | hother
    · cases hbusy
      exact .inl ⟨_, inFlight, own.req⟩
    · exact .inl ⟨g, hother, rfl⟩
  | responded ports =>
    rcases flight_setPort_cases ((flight_congr ports p).symm.trans hg) with ⟨-, hidle⟩ | hother
    · cases hidle
    · exact .inl ⟨g, hother, rfl⟩

/-- A move other than its response leaves a command in flight, as it is or after a move of its own. -/
theorem PortEffect.flight_kept_or_moved {m : Move} {s t : State} {p : Nat} {f : Flight} (h : PortEffect s m t)
    (hf : s.flight p = some f) (hm : m ≠ .respond p) :
    t.flight p = some f ∨ ∃ f', t.flight p = some f' ∧ FlightMoved s f t f' := by
  have other : ∀ {q : Nat} {x : Port}, t.ports = (s.setPort q x).ports → p ≠ q → t.flight p = some f :=
    fun ports hp => (flight_congr ports p).trans ((flight_setPort_ne s _ hp).trans hf)
  cases h with
  | kept same => exact .inl ((flight_congr same p).trans hf)
  | @started _ _ q _ _ _ presents idle op ports =>
    refine .inl (other ports fun hp => ?_)
    rw [← hp] at idle
    rw [flight_of_canAccept idle] at hf
    cases hf
  | @moved _ _ q g g' inFlight own ports =>
    by_cases hp : p = q
    · subst hp
      obtain rfl := Option.some.inj (hf.symm.trans inFlight)
      exact .inr ⟨g', (flight_congr ports p).trans (flight_setPort_busy s g' (flight_lt hf)), own⟩
    · exact .inl (other ports hp)
  | responded ports => exact .inl (other ports fun hp => hm (by rw [hp]))

end Sys2Proof.Machine
end

section
/-! PROOFS. Runs that keep the filter: quiet runs, and runs beside a command in flight, with the induction over the moves that a command in flight goes through (R73, R77). -/

namespace Sys2Proof.Machine

/-! ## Runs -/

/-- A run of one move more is a step and a run. -/
theorem run_succ_cases {n : Nat} {s t : State} (h : Host.Core.run Sys2Proof.core (n + 1) s = .next t) :
    ∃ s', step s = .next s' ∧ Host.Core.run Sys2Proof.core n s' = .next t := by
  rcases hs : step s with s' | e | e
  · exact ⟨s', rfl, (run_succ n hs).symm.trans h⟩
  all_goals
    have hs : Sys2Proof.core.step s = _ := hs
    simp only [Host.Core.run, hs] at h
    cases h

/-- A run to an unfaulted state starts in one: a faulted state is stuck (R350). -/
theorem run_unfaulted {n : Nat} {s t : State} (h : Host.Core.run Sys2Proof.core n s = .next t)
    (ht : t.faults.stuck = none) : s.faults.stuck = none := by
  cases n with
  | zero =>
    cases h
    exact ht
  | succ n =>
    obtain ⟨s', hstep, -⟩ := run_succ_cases h
    exact (step_next_cases hstep).1

/-! ## Quiet runs -/

/-- In a quiet state the next move may not clear bits. -/
theorem Quiet.mayClear {s : State} (h : Quiet s) : ∀ m ∈ s.sched.head?, mayClear s m = false := by
  obtain ⟨hsched, hflight⟩ := h
  intro m hm
  have hq := hsched m (List.mem_of_mem_head? hm)
  cases m with
  | command p r => simpa [quietMove, Machine.mayClear] using hq
  | event p n =>
    rcases hf : s.flight p with _ | f
    · simp [Machine.mayClear, hf]
    · simpa [Machine.mayClear, hf] using hflight p f hf
  | accept p r | shortCircuit p | respond p => rfl
  | reset u => cases hq

/-- A step keeps a quiet state quiet. -/
theorem Quiet.step {s t : State} (h : Quiet s) (hstep : step s = .next t) : Quiet t := by
  obtain ⟨hmoves, hflight⟩ := h
  obtain ⟨-, ⟨-, rfl⟩ | ⟨m, rest, hsched, hmove⟩⟩ := step_next_cases hstep
  · exact ⟨hmoves, hflight⟩
  · have hquiet : quietMove m = true := hmoves m (by simp [hsched])
    have hreset : ∀ u, m ≠ .reset u := by
      rintro u rfl
      cases hquiet
    obtain ⟨hkept, heffect⟩ := runMove_portEffect hreset hmove
    refine ⟨fun x hx => hmoves x ?_, fun p g hg => ?_⟩
    · rw [hkept] at hx
      rw [hsched]
      exact List.mem_cons_of_mem m hx
    · rcases heffect.flight_cases hg with ⟨f, hf, hreq⟩ | ⟨r, hm, hop⟩
      · rw [hreq]
        exact hflight p f hf
      · rw [clearsBits, hop, ← clearsBits]
        rcases hm with rfl | rfl <;> simpa [quietMove] using hquiet

/-- A quiet run keeps the invariant and the filter. -/
theorem run_quiet {n : Nat} {s t : State} (hinv : Inv s) (hq : Quiet s)
    (h : Host.Core.run Sys2Proof.core n s = .next t) : Inv t ∧ FilterKept s t := by
  induction n generalizing s with
  | zero =>
    cases h
    exact ⟨hinv, .refl _⟩
  | succ n ih =>
    obtain ⟨s', hstep, hrun⟩ := run_succ_cases h
    obtain ⟨hinv', hkept⟩ := ih (stepKeepsTheInvariant s s' hinv hstep) (hq.step hstep) hrun
    exact ⟨hinv', (step_filterKept hinv hq.mayClear hstep).trans hkept⟩

/-! ## Runs beside a command in flight -/

/-- Beside a command in flight that is no NOP and clears no bits, no other move may clear bits without a fault, unless
it waits (R351). -/
theorem mayClear_eq_false_or_same {m : Move} {s t : State} {p : Nat} {f : Flight} (hinv : Inv s)
    (hn : s.faults.stuck = none) (hf : s.flight p = some f) (hnop : isNop f.req = false)
    (hclears : clearsBits f.req = false) (hm : ∀ u, m ≠ .reset u) (h : runMove m s = .next t)
    (ht : t.faults.stuck = none) : SameStorage s t ∨ mayClear s m = false := by
  cases m with
  | command q r =>
    rcases commandMove_next_cases hinv.storage h with rfl | ⟨r', prog, hover, rfl⟩ | ⟨r', -, -, -, hop, halone, -, -⟩
    · exact .inl (.with_grant s q)
    · exact absurd ((accepted_stuck (s := { s with grant := q }) hn q prog).symm.trans ht) hover
    · refine .inr (Bool.eq_false_iff.2 fun hr => ?_)
      have hr : clearsBits r' = true := by rwa [clearsBits, hop]
      have halone := (overlapFaults_none halone hf (isNop_eq_false_of_clearsBits hr) hnop).1
      rw [isExclusive_of_clearsBits hr] at halone
      cases halone
  | event q n =>
    refine .inr (Bool.eq_false_iff.2 fun hany => ?_)
    obtain ⟨g, hg, hr⟩ := (Option.any_eq_true _ _).1 hany
    by_cases hq : p = q
    · subst hq
      obtain rfl := Option.some.inj (hf.symm.trans hg)
      rw [hclears] at hr
      cases hr
    · have halone := ((hinv.inFlight hn).no_overlap p q f g hq hf hg hnop (isNop_eq_false_of_clearsBits hr)).2.1
      rw [isExclusive_of_clearsBits hr] at halone
      cases halone
  | accept q r | shortCircuit q | respond q => exact .inr rfl
  | reset u => exact absurd rfl (hm u)

/-- A move without a fault beside a command in flight that is no NOP and clears no bits keeps the filter. -/
theorem runMove_filterKept {m : Move} {s t : State} {p : Nat} {f : Flight} (hinv : Inv s)
    (hn : s.faults.stuck = none) (hf : s.flight p = some f) (hnop : isNop f.req = false)
    (hclears : clearsBits f.req = false) (hm : ∀ u, m ≠ .reset u) (h : runMove m s = .next t)
    (ht : t.faults.stuck = none) : FilterKept s t := by
  rcases mayClear_eq_false_or_same hinv hn hf hnop hclears hm h ht with hsame | hmay
  · exact hsame.filterKept
  · exact (runMove_storageEffect hinv.storage hm h).filterKept (hinv.inFlight hn) hmay

/-- What holds of the array and a command in flight, and is kept by other commands' moves and by its own, holds after
every run in which the command is neither answered nor reset. -/
theorem run_flight_induction {P : (Nat → Word) → Flight → Prop} {p : Nat} {r : Request} (hnop : isNop r = false)
    (hclears : clearsBits r = false)
    (hother : ∀ {s t : State} {f : Flight}, FilterKept s t → P s.word f → P t.word f)
    (hown : ∀ {s t : State} {f f' : Flight}, FilterKept s t → FlightMoved s f t f' → P s.word f → P t.word f')
    {n : Nat} {s t : State} {f g : Flight} (hinv : Inv s) (hf : s.flight p = some f) (hreq : f.req = r)
    (hP : P s.word f) (hmoves : ∀ m ∈ s.sched.take n, m ≠ .respond p ∧ ∀ u, m ≠ .reset u)
    (h : Host.Core.run Sys2Proof.core n s = .next t) (ht : t.faults.stuck = none) (hg : t.flight p = some g) :
    Inv t ∧ FilterKept s t ∧ P t.word g := by
  induction n generalizing s f with
  | zero =>
    cases h
    obtain rfl := Option.some.inj (hf.symm.trans hg)
    exact ⟨hinv, .refl _, hP⟩
  | succ n ih =>
    obtain ⟨s', hstep, hrun⟩ := run_succ_cases h
    have hinv' := stepKeepsTheInvariant s s' hinv hstep
    obtain ⟨hn, ⟨hnil, rfl⟩ | ⟨m, rest, hsched, hmove⟩⟩ := step_next_cases hstep
    · exact ih hinv hf hreq hP (by simp [hnil]) hrun
    · rw [hsched, List.take_succ_cons, List.forall_mem_cons] at hmoves
      obtain ⟨⟨hrespond, hreset⟩, hmoves⟩ := hmoves
      obtain ⟨hrest, heffect⟩ := runMove_portEffect hreset hmove
      have hkept : FilterKept { s with sched := rest } s' :=
        runMove_filterKept (hinv.with_sched rest) hn hf (hreq ▸ hnop) (hreq ▸ hclears) hreset hmove
          (run_unfaulted hrun ht)
      have hmoves' : ∀ m ∈ s'.sched.take n, m ≠ .respond p ∧ ∀ u, m ≠ .reset u := by rwa [hrest]
      obtain ⟨hinvt, hkept', hPt⟩ : Inv t ∧ FilterKept s' t ∧ P t.word g := by
        rcases heffect.flight_kept_or_moved hf hrespond with hf' | ⟨f', hf', hmoved⟩
        · exact ih hinv' hf' hreq (hother hkept hP) hmoves' hrun
        · exact ih hinv' hf' (hmoved.req.trans hreq) (hown hkept hmoved hP) hmoves' hrun
      exact ⟨hinvt, ((SameStorage.with_sched s rest).filterKept.trans hkept).trans hkept', hPt⟩

end Sys2Proof.Machine
end

section
/-! PROOFS. The bits a command in flight has set or has still to set, under its own moves and those of other ports (R182, R183, R190). -/

namespace Sys2Proof.Machine

/-- The task sets mask `m` of word `g`: an OR, or the store half of one with the value to store (R182, R183). -/
def Task.Sets (g : Nat) (m : Word) (x : Task) : Prop :=
  x.orMask = some (g, m) ∨ ∃ v, x = .rmwStore g v ∧ v &&& m ≠ 0

/-- In the array `a` mask `m` of word `g` is met, or the command in flight has still to set it: by a task that a
short-circuit does not skip, or in its second part, which follows once a probe has read 0 (R187, R191). -/
inductive SetsBit (a : Nat → Word) (f : Flight) (g : Nat) (m : Word) : Prop
  | set (met : a g &&& m ≠ 0)
  | pending (x : Task) (mem : x ∈ f.todo) (sets : x.Sets g m) (adds : f.part = .first → f.prog.result ≠ .present)
  | testing (first : f.part = .first) (second : ∃ x ∈ f.prog.second, x.orMask = some (g, m))
      (absent : Task.probe g m ∈ f.todo ∨ allPresent f.done = false)

theorem or_and_ne_zero {m : Word} (hm : m ≠ 0) (a : Word) : (a ||| m) &&& m ≠ 0 := by
  rwa [BitVec.or_comm, BitVec.and_comm, and_or_self]

/-- A task that sets a mask has set it once performed, or leaves one that does. -/
theorem Task.Sets.performed {s s1 : State} {x : Task} {g : Nat} {m v : Word} (hm : m ≠ 0) (h : x.Sets g m)
    (hp : perform s x.event = .ok (s1, v)) :
    s1.word g &&& m ≠ 0 ∨ ∃ y, x.followUp v = some y ∧ y.Sets g m := by
  rcases h with hor | ⟨w, rfl, hw⟩
  · cases x with
    | setBit g' m' =>
      cases hor
      rw [perform_word hp]
      exact .inl (by simpa [Task.event] using or_and_ne_zero hm (s.word g))
    | rmwLoad g' m' =>
      cases hor
      exact .inr ⟨_, rfl, .inr ⟨_, rfl, or_and_ne_zero hm v⟩⟩
    | probe | rmwStore | inc | countOnes | addCount | readWord | storeWord | storeCount | writeCfg => cases hor
  · rw [perform_word hp]
    exact .inl (by simpa [Task.event] using hw)

@[simp] theorem allPresent_cons (d : Done) (l : List Done) : allPresent (d :: l) = (!d.absent && allPresent l) := rfl

namespace SetsBit

/-- A part that ends goes on to the second part, which a test that has read a 0 does not skip. -/
theorem settle {a : Nat → Word} {f : Flight} {g : Nat} {m : Word} (h : SetsBit a f g m) : SetsBit a f.settle g m := by
  unfold Flight.settle
  split
  · rename_i hpart htodo
    cases h with
    | set met => exact .set met
    | pending x mem =>
      rw [htodo] at mem
      cases mem
    | testing first second absent =>
      obtain ⟨x, hx, hor⟩ := second
      have habsent : allPresent f.done = false := absent.resolve_left (by simp [htodo])
      exact .pending x (by simpa [Program.rest, habsent] using hx) (.inl hor) nofun
  · exact h
  · exact h

/-- Other commands' moves clear no bit, and leave the command in flight alone. -/
theorem other {s t : State} {f : Flight} {g : Nat} {m : Word} (hkept : FilterKept s t) (h : SetsBit s.word f g m) :
    SetsBit t.word f g m := by
  cases h with
  | set met => exact .set (hkept.and_ne_zero met)
  | pending x mem sets adds => exact .pending x mem sets adds
  | testing first second absent => exact .testing first second absent

theorem event {s s1 t : State} {f : Flight} {n g : Nat} {m v : Word} {x : Task} {rest : List Task} (hm : m ≠ 0)
    (hkept : FilterKept s t) (pick : pickTask f.todo n = some (x, rest)) (performed : perform s x.event = .ok (s1, v))
    (same : SameStorage s1 t) (h : SetsBit s.word f g m) : SetsBit t.word (f.advance x v rest) g m := by
  have hmem : ∀ y, y ∈ f.todo → y = x ∨ y ∈ rest := fun y hy => List.mem_cons.1 ((pickTask_perm pick).mem_iff.1 hy)
  have hlater : ∀ y, y ∈ rest → y ∈ (x.followUp v).toList ++ rest := fun y hy => List.mem_append_right _ hy
  refine SetsBit.settle ?_
  cases h with
  | set met => exact .set (hkept.and_ne_zero met)
  | pending y mem sets adds =>
    rcases hmem y mem with rfl | hy
    · rcases sets.performed hm performed with hset | ⟨z, hfollow, hz⟩
      · exact .set (by rwa [same.word])
      · exact .pending z (by simp [hfollow]) hz adds
    · exact .pending y (hlater y hy) sets adds
  | testing first second absent =>
    rcases absent with hprobe | habsent
    · rcases hmem _ hprobe with rfl | hy
      · obtain ⟨-, rfl⟩ := perform_atomicLoad performed
        by_cases hmet : s.word g &&& m = 0
        · exact .testing first second (.inr (by simp [Done.absent, hmet]))
        · exact .set (hkept.and_ne_zero hmet)
      · exact .testing first second (.inl (hlater _ hy))
    · exact .testing first second (.inr (by simp [habsent]))

/-- The command's own moves perform what it has to set or keep it to be done. -/
theorem moved {s t : State} {f f' : Flight} {g : Nat} {m : Word} (hm : m ≠ 0) (hkept : FilterKept s t)
    (hmoved : FlightMoved s f t f') (h : SetsBit s.word f g m) : SetsBit t.word f' g m := by
  cases hmoved with
  | event pick performed same => exact h.event hm hkept pick performed same
  | stopped may =>
    simp only [Flight.mayStop, Bool.and_eq_true, beq_iff_eq, Bool.not_eq_true'] at may
    obtain ⟨⟨hpart, hresult⟩, habsent⟩ := may
    refine SetsBit.settle ?_
    cases h with
    | set met => exact .set (hkept.and_ne_zero met)
    | pending x mem sets adds => exact absurd hresult (adds hpart)
    | testing first second absent => exact .testing first second (.inr habsent)

/-- A command that has performed every event has set what it had to. -/
theorem of_complete {a : Nat → Word} {f : Flight} {g : Nat} {m : Word} (hf : f.complete = true)
    (h : SetsBit a f g m) : a g &&& m ≠ 0 := by
  simp only [Flight.complete, Bool.and_eq_true, beq_iff_eq, List.isEmpty_iff] at hf
  obtain ⟨hpart, htodo⟩ := hf
  cases h with
  | set met => exact met
  | pending x mem =>
    rw [htodo] at mem
    cases mem
  | testing first =>
    rw [hpart] at first
    cases first

end SetsBit

/-! ## The start of ADD and TESTADD -/

theorem probeMask_ne_zero (s : State) (h : Word) (i : Nat) : probeMask s h i ≠ 0 := by
  intro h0
  have hbit := congrArg (BitVec.getLsbD · (probePos s (hashFields s.cfg h).intraHash i % 64)) h0
  simp [probeMask, gmask, Nat.mod_lt] at hbit

/-- The add part of a hash has an OR for each of its probes. -/
theorem exists_mem_addTasks (s : State) (h : Word) {i : Nat} (hi : i < s.cfg.k.toNat) :
    ∃ x ∈ addTasks s h, x.orMask = some (probeWord s h i, probeMask s h i) := by
  unfold addTasks
  split <;> exact ⟨_, List.mem_append_left _ (mem_forEachProbe.2 ⟨i, hi, rfl⟩), rfl⟩

theorem requestProgram_of_decode {r : Request} {i : Instr} (h : decode r = .ok i) (s : State) :
    requestProgram r s = program i s := by
  unfold requestProgram
  rw [h]

/-- An ADD or TESTADD just accepted has every probe bit to set. -/
theorem startFlight_setsBit {s : State} (hv : s.cfg.valid = true) {r : Request} {h : Word}
    (hr : decode r = .ok (.add h) ∨ decode r = .ok (.testadd h)) {i : Nat} (hi : i < s.cfg.k.toNat) :
    SetsBit s.word (startFlight r (requestProgram r s)) (probeWord s h i) (probeMask s h i) := by
  obtain ⟨x, hx, hor⟩ := exists_mem_addTasks s h hi
  refine SetsBit.settle ?_
  rcases hr with hr | hr
  · rw [requestProgram_of_decode hr, program_add hv]
    exact .pending x hx (.inl hor) nofun
  · rw [requestProgram_of_decode hr, program_testadd hv]
    exact .testing rfl ⟨x, hx, hor⟩ (.inl (mem_forEachProbe.2 ⟨i, hi, rfl⟩))

end Sys2Proof.Machine
end

section
/-! PROOFS. No false negatives: what an ADD or TESTADD has set when its response is due, served whole or by its own moves (O52), and the TEST that sees it (O52, O53). -/

namespace Sys2Proof.Machine

/-! ## The test part (R186) -/

theorem allPresent_iff {l : List Done} : allPresent l = true ↔ ∀ d ∈ l, d.absent = false := by
  simp [allPresent]

/-- A probe part performed at once finds the key present exactly if every probe bit is 1. -/
theorem allPresent_probes (s : State) (h : Word) :
    allPresent (tasksRecords s (forEachProbe s h .probe) []) = true ↔ ProbesSet s h := by
  rw [tasksRecords_of_reads (probes_reads s h), List.append_nil, allPresent_iff]
  simp only [List.mem_reverse, List.mem_flatMap, mem_forEachProbe]
  constructor
  · intro hall i hi
    simpa [Done.absent] using hall ⟨.probe (probeWord s h i) (probeMask s h i), s.word (probeWord s h i)⟩
      ⟨_, ⟨i, hi, rfl⟩, List.mem_singleton.2 rfl⟩
  · rintro hset d ⟨x, ⟨i, hi, rfl⟩, hd⟩
    obtain rfl := List.mem_singleton.1 hd
    simpa [Done.absent] using hset i hi

/-- TEST of a key that is present responds 1 and writes nothing. -/
theorem exec_test_of_probesSet {s : State} {h : Word} (hready : Ready (.test h) s) (hs : StorageInv s)
    (hv : s.cfg.valid = true) (hset : ProbesSet s h) : exec (.test h) s = .next (s.deliver s.grant .ok 1) := by
  have hpresent := (allPresent_probes s h).2 hset
  have hrest : ∀ d, (program (.test h) s).rest d = [] := fun d => by
    simp [program_test hv, Program.rest, Program.perform]
  rw [exec_of_ready hready hs]
  simp only [hrest, tasksEffect_nil, tasksRecords_nil]
  simp [program_test hv, Program.perform, tasksEffect_of_reads (probes_reads s h), Program.data, Result.data, hpresent,
    dataOfBool]

/-! ## Commands served whole -/

theorem decode_encode_add (h : Word) : decode (encode (.add h)) = .ok (.add h) := by
  simp [decode, encode, cmdNP_fields, decodeNP]

theorem decode_encode_testadd (h : Word) : decode (encode (.testadd h)) = .ok (.testadd h) := by
  simp [decode, encode, cmdNP_fields, decodeNP]

/-- A command that clears no bits, served whole, keeps the invariant and the filter. -/
theorem exec_filterKept {i : Instr} {s t : State} (hinv : Inv s) (hn : s.faults.stuck = none)
    (hi : decode (encode i) = .ok i) (hclears : clearsBits (encode i) = false) (h : exec i s = .next t) :
    Inv t ∧ FilterKept s t := by
  have hmove : runMove (.command s.grant (encode i)) s = .next t := (commandMove_of_decode hi s.grant s).trans h
  exact ⟨runMove_inv hinv hn hmove,
    (runMove_storageEffect hinv.storage (fun _ hm => by cases hm) hmove).filterKept (hinv.inFlight hn) hclears⟩

/-- An OR among tasks that clear no bits sets its mask. -/
theorem tasksEffect_sets {s : State} {r : Request} {l : List Task} (hclears : clearsBits r = false)
    (hfits : ∀ y ∈ l, y.Fits s (opByte r)) {x : Task} (hx : x ∈ l) {g : Nat} {m : Word} (hm : m ≠ 0)
    (hor : x.orMask = some (g, m)) : (tasksEffect s l).word g &&& m ≠ 0 := by
  obtain ⟨l1, l2, rfl⟩ := List.append_of_mem hx
  rw [tasksEffect_append, tasksEffect_cons]
  have hlater : ∀ y ∈ l2, y ∈ l1 ++ x :: l2 := fun y hy => by simp [hy]
  refine and_ne_zero_of_bits (tasksEffect_bitsKept hclears (fun y hy => (hfits y (hlater y hy)).owner)
    (fun y hy => (hfits y (hlater y hy)).whole) g) ?_
  rw [Task.effect_word_or hor, if_pos rfl]
  exact or_and_ne_zero hm _

/-- An add part performed whole has set every probe bit. -/
theorem tasksEffect_addTasks {s : State} (hs : StorageInv s) (hv : s.cfg.valid = true) (h : Word) {i : Nat}
    (hi : i < s.cfg.k.toNat) :
    (tasksEffect s (addTasks s h)).word (probeWord s h i) &&& probeMask s h i ≠ 0 := by
  obtain ⟨x, hx, hor⟩ := exists_mem_addTasks s h hi
  exact tasksEffect_sets (r := encode (.add h)) rfl
    (fun y hy => addTasks_owned hs hv h (.inl (opByte_encode _)) hy) hx (probeMask_ne_zero s h i) hor

/-- Probe bits set in an array whose filter is kept are set there. -/
theorem FilterKept.probesSet_of_words {s t : State} (hkept : FilterKept s t) {h : Word}
    (hset : ∀ i < s.cfg.k.toNat, t.word (Machine.probeWord s h i) &&& Machine.probeMask s h i ≠ 0) :
    ProbesSet t h := by
  intro i hi
  rw [hkept.cfg] at hi
  rw [hkept.probeWord, hkept.probeMask]
  exact hset i hi

theorem exec_add_probesSet {h : Word} {s t : State} (hinv : Inv s) (hc : Configured (.add h) s)
    (he : exec (.add h) s = .next t) : Inv t ∧ FilterKept s t ∧ ProbesSet t h := by
  obtain ⟨hready, hs, hv⟩ := hc
  obtain ⟨hinvt, hkept⟩ := exec_filterKept hinv hready.unfaulted (decode_encode_add h) rfl he
  refine ⟨hinvt, hkept, hkept.probesSet_of_words fun i hi => ?_⟩
  rw [exec_of_ready hready hs, program_add hv] at he
  cases he
  exact tasksEffect_addTasks hs hv h hi

theorem exec_testadd_probesSet {h : Word} {s t : State} (hinv : Inv s) (hc : Configured (.testadd h) s)
    (he : exec (.testadd h) s = .next t) : Inv t ∧ FilterKept s t ∧ ProbesSet t h := by
  obtain ⟨hready, hs, hv⟩ := hc
  obtain ⟨hinvt, hkept⟩ := exec_filterKept hinv hready.unfaulted (decode_encode_testadd h) rfl he
  refine ⟨hinvt, hkept, ?_⟩
  by_cases hset : ProbesSet s h
  · exact hkept.probesSet hset
  · have habsent : allPresent (tasksRecords s (forEachProbe s h .probe) []) = false :=
      Bool.eq_false_iff.2 fun hpresent => hset ((allPresent_probes s h).1 hpresent)
    refine hkept.probesSet_of_words fun i hi => ?_
    rw [exec_of_ready hready hs, program_testadd hv] at he
    simp only [Program.rest, habsent, Bool.and_false, Bool.false_eq_true, if_false,
      tasksEffect_of_reads (probes_reads s h)] at he
    cases he
    exact tasksEffect_addTasks hs hv h hi

/-! ## Commands performed by their own moves -/

/-- What holds of a command just accepted, and is kept by other commands' moves and by its own, holds once it has been
performed; and the invariant and the filter are kept until then. -/
theorem Performed.induction {P : (Nat → Word) → Flight → Prop} {s t : State} {p n : Nat} {r : Request} {f : Flight}
    (hinv : Inv s) (h : Performed s p r n t f) (hnop : isNop r = false) (hclears : clearsBits r = false)
    (hother : ∀ {s t : State} {f : Flight}, FilterKept s t → P s.word f → P t.word f)
    (hown : ∀ {s t : State} {f f' : Flight}, FilterKept s t → FlightMoved s f t f' → P s.word f → P t.word f')
    (hstart : P s.word (startFlight r (requestProgram r s))) : Inv t ∧ FilterKept s t ∧ P t.word f := by
  obtain ⟨hidle, ⟨rest, hsched, hmoves⟩, hrun, hn, hflight, -⟩ := h
  obtain ⟨u, hstep, hrun⟩ := run_succ_cases hrun
  have hinvu := stepKeepsTheInvariant s u hinv hstep
  rw [step_of_sched (step_next_cases hstep).1 hsched] at hstep
  have hu : u = ({ s with sched := rest } : State).accepted p r (requestProgram r s) := by
    cases hstep
    exact if_pos hidle
  subst hu
  have hsame := (SameStorage.with_sched s rest).filterKept.trans
    (SameStorage.accepted { s with sched := rest } p r (requestProgram r s)).filterKept
  obtain ⟨hinvt, hkept, hP⟩ := run_flight_induction hnop hclears hother hown hinvu
    ((flight_congr rfl p).trans (flight_setPort_busy s _ (canAccept_lt hidle))) (startFlight_req r _)
    (hother hsame hstart) hmoves hrun hn hflight
  exact ⟨hinvt, hsame.trans hkept, hP⟩

/-- An ADD or TESTADD performed by its own moves has set every probe bit. -/
theorem Performed.probesSet {s t : State} {p n : Nat} {r : Request} {f : Flight} {h : Word} (hinv : Inv s)
    (hv : s.cfg.valid = true) (hr : decode r = .ok (.add h) ∨ decode r = .ok (.testadd h))
    (hp : Performed s p r n t f) : Inv t ∧ FilterKept s t ∧ ProbesSet t h := by
  have hop : opByte r = 0x01 ∨ opByte r = 0x03 := hr.imp decode_opByte decode_opByte
  have hnop : isNop r = false := isNop_eq_false (by rcases hop with hop | hop <;> rw [hop] <;> decide)
  have hclears : clearsBits r = false := by rcases hop with hop | hop <;> rw [clearsBits, hop] <;> rfl
  obtain ⟨hinvt, hkept, hset⟩ := hp.induction hinv hnop hclears
    (P := fun a f => ∀ i < s.cfg.k.toNat, SetsBit a f (probeWord s h i) (probeMask s h i))
    (fun hkept hset i hi => (hset i hi).other hkept)
    (fun hkept hmoved hset i hi => (hset i hi).moved (probeMask_ne_zero s h i) hkept hmoved)
    fun i hi => startFlight_setsBit hv hr hi
  exact ⟨hinvt, hkept, hkept.probesSet_of_words fun i hi => (hset i hi).of_complete hp.complete⟩

/-- An ADD or TESTADD performed has set every probe bit, in a state that is legal and configured. -/
theorem AddPerformed.probesSet {h : Word} {s t : State} (hinv : Inv s) (hadd : AddPerformed h s t) :
    Inv t ∧ t.cfg.valid = true ∧ ProbesSet t h := by
  obtain ⟨hv, hinvt, hkept, hset⟩ : s.cfg.valid = true ∧ Inv t ∧ FilterKept s t ∧ ProbesSet t h := by
    cases hadd with
    | add ready served => exact ⟨ready.valid, exec_add_probesSet hinv ready served⟩
    | testadd ready served => exact ⟨ready.valid, exec_testadd_probesSet hinv ready served⟩
    | moves valid p r n f command performed => exact ⟨valid, performed.probesSet hinv valid command⟩
  exact ⟨hinvt, hkept.cfg ▸ hv, hset⟩

/-- Settles O52: an add performed has set the probe bits, a quiet run keeps them, and TEST finds them. -/
theorem noFalseNegatives : Obligations.NoFalseNegatives := by
  unfold Obligations.NoFalseNegatives
  intro h s s1 hinv hadd
  obtain ⟨hinv1, hv, hset⟩ := hadd.probesSet hinv
  refine ⟨hset, fun t n q hquiet hrun hready => ?_⟩
  obtain ⟨hinvt, hkept⟩ := run_quiet hinv1 hquiet hrun
  have hkept' : FilterKept s1 { t with grant := q } := hkept.trans (SameStorage.with_grant t q).filterKept
  exact exec_test_of_probesSet hready ((SameStorage.with_grant t q).storageInv hinvt.storage) (hkept'.cfg ▸ hv)
    (hkept'.probesSet hset)

/-! ## A TEST performed by its own moves (R75) -/

/-- The test in flight reads set bits only, in the array `a`: those it has read and those it has still to read. -/
structure SeesBits (a : Nat → Word) (f : Flight) : Prop where
  status : f.prog.status = .ok
  result : f.prog.result = .present
  second : f.prog.second = []
  todo : ∀ x ∈ f.todo, ∃ g m, x = .probe g m ∧ a g &&& m ≠ 0
  done : allPresent f.done = true

namespace SeesBits

theorem settle {a : Nat → Word} {f : Flight} (h : SeesBits a f) : SeesBits a f.settle := by
  obtain ⟨hstatus, hresult, hsecond, htodo, hdone⟩ := h
  refine ⟨by rwa [settle_prog], by rwa [settle_prog], by rwa [settle_prog], ?_, by rwa [settle_done]⟩
  rcases settle_todo f with he | ⟨-, he⟩ <;> rw [he]
  · exact htodo
  · intro x hx
    have := mem_rest hx
    rw [hsecond] at this
    cases this

theorem other {s t : State} {f : Flight} (hkept : FilterKept s t) (h : SeesBits s.word f) : SeesBits t.word f := by
  obtain ⟨hstatus, hresult, hsecond, htodo, hdone⟩ := h
  refine ⟨hstatus, hresult, hsecond, fun x hx => ?_, hdone⟩
  obtain ⟨g, m, rfl, hset⟩ := htodo x hx
  exact ⟨g, m, rfl, hkept.and_ne_zero hset⟩

/-- A load of the test reads a set bit, and the test never stops short. -/
theorem moved {s t : State} {f f' : Flight} (hkept : FilterKept s t) (hmoved : FlightMoved s f t f')
    (h : SeesBits s.word f) : SeesBits t.word f' := by
  cases hmoved with
  | event pick performed same =>
    obtain ⟨hmem, hsub⟩ := pickTask_mem pick
    obtain ⟨g, m, rfl, hset⟩ := h.todo _ hmem
    obtain ⟨-, rfl⟩ := perform_atomicLoad performed
    obtain ⟨hstatus, hresult, hsecond, htodo, hdone⟩ := h.other hkept
    refine SeesBits.settle ⟨hstatus, hresult, hsecond, fun x hx => htodo x (hsub.subset hx), ?_⟩
    simpa [Done.absent, hdone] using hset
  | stopped may => simp [Flight.mayStop, h.done] at may

theorem start {s : State} {r : Request} {h : Word} (hv : s.cfg.valid = true) (hset : ProbesSet s h)
    (hr : decode r = .ok (.test h)) : SeesBits s.word (startFlight r (requestProgram r s)) := by
  rw [requestProgram_of_decode hr, program_test hv]
  refine SeesBits.settle ⟨rfl, rfl, rfl, fun x hx => ?_, rfl⟩
  obtain ⟨i, hi, rfl⟩ := mem_forEachProbe.1 hx
  exact ⟨_, _, rfl, hset i hi⟩

end SeesBits

/-- Settles O53: no bit falls while the TEST is in flight, so every load of it reads a set bit. -/
theorem interleavedTestSeesTheAdd : Obligations.InterleavedTestSeesTheAdd := by
  unfold Obligations.InterleavedTestSeesTheAdd
  intro h s t n p r f hinv hv hset hr hp
  have hop : opByte r = 0x02 := decode_opByte hr
  obtain ⟨-, -, hsees⟩ := hp.induction hinv (P := SeesBits) (isNop_eq_false (by rw [hop]; decide))
    (by rw [clearsBits, hop]; rfl) SeesBits.other SeesBits.moved (SeesBits.start hv hset hr)
  refine ⟨hsees.status, ?_⟩
  simp [Program.data, hsees.status, hsees.result, Result.data, hsees.done, dataOfBool]

end Sys2Proof.Machine
end

section
/-! PROOFS. A whole command is the run of its own atomic steps (O50): the acceptance, an event for each event of its tasks in their order, and the response (R71, R73). -/

namespace Sys2Proof.Machine

/-- `s` with the command `f` in flight on port `p`, granted port `g`, and the moves `l` to come. -/
def State.withFlight (s : State) (p : Nat) (f : Flight) (g : Nat) (l : List Move) : State :=
  { s.setPort p (.busy f) with sched := l, grant := g }

/-- Events do not read the commands in flight, the granted port or the schedule. -/
theorem perform_withFlight {s s1 : State} {e : Event} {v : Word} (h : perform s e = .ok (s1, v)) (p : Nat) (f : Flight)
    (g : Nat) (l : List Move) : perform (s.withFlight p f g l) e = .ok (s1.withFlight p f g l, v) := by
  cases e with
  | cfgWrite =>
    cases h
    rfl
  | atomicLoad | atomicOr | store | countLoad | atomicInc | countStore =>
    simp only [perform] at h ⊢
    split at h
    · rename_i hlt
      cases h
      exact if_pos hlt
    · cases h

/-! ## One move of the command -/

/-- An event move performs the first task left, where that one may be performed. -/
theorem step_event_withFlight {s s1 : State} {p g : Nat} {f : Flight} {x : Task} {v : Word} {todo : List Task}
    (hn : s.faults.stuck = none) (hp : p < s.ports.length) (hpick : pickTask f.todo 0 = some (x, todo))
    (hperform : perform s x.event = .ok (s1, v)) (l : List Move) :
    step (s.withFlight p f g (.event p 0 :: l)) = .next (s1.withFlight p (f.advance x v todo) g l) := by
  have hflight : (s.withFlight p f g l).flight p = some f := (flight_congr rfl p).trans (flight_setPort_busy s f hp)
  have hmove : eventMove p 0 (s.withFlight p f g l) =
      .next ((s1.withFlight p f g l).setPort p (.busy (f.advance x v todo))) := by
    unfold eventMove
    rw [hflight]
    dsimp only
    rw [hpick]
    dsimp only
    rw [perform_withFlight hperform]
  refine (step_of_sched (s := s.withFlight p f g (.event p 0 :: l)) hn rfl).trans (hmove.trans ?_)
  simp only [State.withFlight, State.setPort, List.set_set]

/-- The response of a command that has performed every event leaves its port idle, as it was. -/
theorem step_respond_withFlight {s : State} {p g : Nat} {f : Flight} (hn : s.faults.stuck = none)
    (hidle : s.canAccept p = true) (hf : f.complete = true) (l : List Move) :
    step (s.withFlight p f g (.respond p :: l)) =
      .next { s.deliver p f.prog.status (f.prog.data f.done) with sched := l, grant := g } := by
  have hflight : (s.withFlight p f g l).flight p = some f :=
    (flight_congr rfl p).trans (flight_setPort_busy s f (canAccept_lt hidle))
  have hports : s.ports.set p .idle = s.ports := by
    rw [State.canAccept, beq_iff_eq] at hidle
    obtain ⟨hlt, hget⟩ := List.getElem?_eq_some_iff.1 hidle
    rw [← hget, List.set_getElem_self]
  have hmove : respondMove p (s.withFlight p f g l) =
      ((s.withFlight p f g l).setPort p .idle).deliver p f.prog.status (f.prog.data f.done) := by
    unfold respondMove
    rw [hflight]
    exact if_pos hf
  refine (step_of_sched (s := s.withFlight p f g (.respond p :: l)) hn rfl).trans (congrArg _ (hmove.trans ?_))
  simp only [State.withFlight, State.setPort, State.deliver, List.set_set, hports]

/-- The acceptance of a request without a fault puts its command in flight. -/
theorem step_accept_withFlight {s : State} {p : Nat} {r : Request} (hn : s.faults.stuck = none)
    (hidle : s.canAccept p = true) (halone : (overlapFaults s r).stuck = none) (l : List Move) :
    step { s with sched := .accept p r :: l } =
      .next (s.withFlight p (startFlight r (requestProgram r s)) s.grant l) := by
  have hfaults : s.faults.union (overlapFaults s r) = s.faults := by
    rw [union_of_stuck_none hn]
    obtain ⟨hexcl, hunsync⟩ := stuck_eq_none.1 hn
    obtain ⟨hexcl', hunsync'⟩ := stuck_eq_none.1 halone
    cases hs : s.faults; cases ho : overlapFaults s r
    simp_all
  have hmove : acceptMove p r { s with sched := l } =
      State.accepted { s with sched := l } p r (requestProgram r { s with sched := l }) := if_pos hidle
  refine (step_with_sched hn).trans (congrArg _ (hmove.trans ?_))
  rw [requestProgram_congr r (s := s) (t := { s with sched := l }) rfl rfl rfl rfl]
  show ({ s.setPort p _ with sched := l, faults := s.faults.union (overlapFaults s r) } : State) = _
  rw [hfaults]
  rfl

/-! ## The events of a part -/

/-- The moves that perform the next `n` events of port `p`, each the first of those left. -/
def eventMoves (p n : Nat) : List Move := List.replicate n (.event p 0)

theorem settle_of_todo_cons {f : Flight} {x : Task} {l : List Task} (h : f.todo = x :: l) : f.settle = f := by
  unfold Flight.settle
  split
  · simp_all
  · rfl
  · rfl

section

variable {p g : Nat}

/-- A task with what it leaves is one or two event moves of the command in flight (R183). -/
theorem run_task_withFlight {s s1 : State} {x : Task} {d d1 : List Done} (h : runWithFollowUp s x d = .ok (s1, d1))
    (hn : s.faults.stuck = none) (hp : p < s.ports.length) (f : Flight) {todo : List Task}
    (hwhole : ∀ y ∈ x :: todo, y.pendingStore = none) :
    ∃ n, ∀ l, Host.Core.run Sys2Proof.core n
        (s.withFlight p { f with todo := x :: todo, done := d } g (eventMoves p n ++ l)) =
      .next (s1.withFlight p (Flight.settle { f with todo := todo, done := d1 }) g l) := by
  obtain ⟨s', v, hperform, hrest⟩ := runWithFollowUp_ok h
  have hpick : pickTask (x :: todo) 0 = some (x, todo) := pickTask_zero (stores_lead_of_none hwhole)
  have hfirst := step_event_withFlight (g := g) (f := { f with todo := x :: todo, done := d }) hn hp hpick hperform
  rcases hrest with ⟨hfollow, rfl, rfl⟩ | ⟨y, w, hfollow, hperform', rfl⟩
  · refine ⟨1, fun l => (run_succ 0 (hfirst l)).trans ?_⟩
    simp only [Flight.advance, hfollow]
    rfl
  · obtain ⟨g', m, rfl, rfl⟩ := Task.followUp_eq_some hfollow
    obtain ⟨-, hports, hfaults, -⟩ := perform_kept hperform
    have hsecond := step_event_withFlight (g := g) (x := .rmwStore g' (v ||| m)) (todo := todo) (s := s') (p := p)
      (f := { f with todo := .rmwStore g' (v ||| m) :: todo, done := ⟨.rmwLoad g' m, v⟩ :: d })
      (by rwa [hfaults]) (by rwa [hports]) rfl hperform'
    refine ⟨2, fun l => (run_succ 1 (hfirst _)).trans ?_⟩
    refine Eq.trans ?_ (run_succ 0 (hsecond l))
    rw [Flight.advance, settle_of_todo_cons rfl]
    rfl

/-- Tasks performed one after the other are as many event moves as they have events. -/
theorem run_tasks_withFlight {s s1 : State} {todo : List Task} {d d1 : List Done}
    (h : runTasks s todo d = .ok (s1, d1)) (hn : s.faults.stuck = none) (hp : p < s.ports.length) (f : Flight)
    (hwhole : ∀ y ∈ todo, y.pendingStore = none) :
    ∃ n, ∀ l, Host.Core.run Sys2Proof.core n
        (s.withFlight p (Flight.settle { f with todo := todo, done := d }) g (eventMoves p n ++ l)) =
      .next (s1.withFlight p (Flight.settle { f with todo := [], done := d1 }) g l) := by
  induction todo generalizing s d with
  | nil =>
    cases h
    exact ⟨0, fun l => rfl⟩
  | cons x todo ih =>
    obtain ⟨s', d', hx, hrest⟩ := runTasks_cons_ok h
    have hone : runTasks s [x] d = .ok (s', d') := by
      rw [runTasks, hx]
      rfl
    obtain ⟨-, hports, hfaults, -⟩ := runTasks_kept hone
    obtain ⟨a, ha⟩ := run_task_withFlight (g := g) hx hn hp f hwhole
    obtain ⟨b, hb⟩ := ih hrest (by rwa [hfaults]) (by rwa [hports]) fun y hy => hwhole y (by simp [hy])
    refine ⟨a + b, fun l => ?_⟩
    rw [settle_of_todo_cons rfl, eventMoves, List.replicate_add, List.append_assoc]
    exact (run_add a b _ _ (ha _)).trans (hb l)

end

/-! ## The whole command -/

/-- The word that is NOP's decodes to NOP. -/
theorem decode_of_isNop {r : Request} (h : isNop r = true) : decode r = .ok .nop := by
  have hcmd : r.cmd = 0 := by simpa [isNop] using h
  simp [decode, decodeNP, hcmd]

/-- A request that encodes the same command overlaps with no fault where the one presented does. -/
theorem overlapFaults_encode {s : State} {r : Request} {i : Instr} (hi : decode r = .ok i)
    (h : (overlapFaults s r).stuck = none) : (overlapFaults s (encode i)).stuck = none := by
  have hexcl : isExclusive (encode i) = isExclusive r := by
    rw [isExclusive_eq, isExclusive_eq, opByte_encode, decode_opByte hi]
  rcases hnop' : isNop (encode i) with _ | _
  · have hnop : isNop r = false := by
      refine Bool.eq_false_iff.2 fun hnop => ?_
      obtain rfl := Except.ok.inj (hi.symm.trans (decode_of_isNop hnop))
      cases hnop'
    have heq : overlapFaults s (encode i) = overlapFaults s r := by simp [overlapFaults, hexcl, hnop, hnop']
    rwa [heq]
  · rw [stuck_eq_none]
    simp [overlapFaults, hnop']

/-- A whole command on an idle port, with no fault, runs its request's program. -/
theorem commandMove_of_idle {s : State} {p : Nat} {r : Request} (hn : s.faults.stuck = none)
    (hidle : s.canAccept p = true) (halone : (overlapFaults s r).stuck = none) :
    commandMove p r s = runCommand p (requestProgram r s) { s with grant := p } := by
  unfold commandMove requestProgram
  rcases hi : decode r with e | i
  · exact serve_of_ready (s := { s with grant := p }) _ hn hidle halone
  · exact (exec_eq i _).trans
      (serve_of_ready (s := { s with grant := p }) _ hn hidle (overlapFaults_encode hi halone))

/-- A program run whole is a run of its own moves, from the acceptance of its request to its response, but for the
granted port, which only a whole command sets (log entry 3). -/
theorem run_command_moves {s t : State} {p : Nat} {r : Request} {rest : List Move} (hn : s.faults.stuck = none)
    (hidle : s.canAccept p = true) (halone : (overlapFaults s r).stuck = none)
    (h : runCommand p (requestProgram r s) { s with sched := rest, grant := p } = .next t) :
    ∃ n, Host.Core.run Sys2Proof.core (n + 2)
      { s with sched := .accept p r :: (eventMoves p n ++ .respond p :: rest) } = .next { t with grant := s.grant } := by
  obtain ⟨s1, d1, s2, d2, hfirst, hsecond, rfl⟩ := runCommand_next h
  obtain ⟨-, hports1, hfaults1, hsched1, -⟩ := runTasks_kept hfirst
  obtain ⟨-, hports2, hfaults2, hsched2, -⟩ := runTasks_kept hsecond
  obtain rfl : s2.sched = rest := hsched2.trans hsched1
  have hwhole := requestProgram_whole r s
  obtain ⟨a, ha⟩ := run_tasks_withFlight (g := s.grant) hfirst hn (canAccept_lt hidle)
    { req := r, prog := requestProgram r s, part := .first, todo := [], done := [] }
    fun y hy => hwhole y (List.mem_append_left _ hy)
  obtain ⟨b, hb⟩ := run_tasks_withFlight (p := p) (g := s.grant) hsecond (by rwa [hfaults1])
    (by rw [hports1]; exact canAccept_lt hidle)
    { req := r, prog := requestProgram r s, part := .second, todo := [], done := [] }
    fun y hy => hwhole y (List.mem_append_right _ (mem_rest hy))
  have hrespond := step_respond_withFlight (s := s2) (p := p) (g := s.grant)
    (f := { req := r, prog := requestProgram r s, part := .second, todo := [], done := d2 })
    (by rwa [hfaults2, hfaults1]) (by rwa [State.canAccept, hports2, hports1]) rfl s2.sched
  refine ⟨a + b, ?_⟩
  rw [eventMoves, List.replicate_add, List.append_assoc]
  calc Host.Core.run Sys2Proof.core (a + b + 2) _
    _ = Host.Core.run Sys2Proof.core (a + (b + 1)) _ := run_succ _ (step_accept_withFlight hn hidle halone _)
    _ = Host.Core.run Sys2Proof.core (b + 1) _ := run_add a (b + 1) _ _ (ha _)
    _ = Host.Core.run Sys2Proof.core 1 _ := run_add b 1 _ _ (hb _)
    _ = _ := run_succ 0 hrespond

/-- Settles O50: a whole command runs its request's program, and so do its own moves. -/
theorem commandEqualsItsAtomicSteps : Obligations.CommandEqualsItsAtomicSteps := by
  unfold Obligations.CommandEqualsItsAtomicSteps
  intro s t p r rest hn hidle halone h
  rw [step_with_sched hn] at h
  have hrun := (commandMove_of_idle (s := { s with sched := rest }) hn hidle halone).symm.trans h
  rw [requestProgram_congr r (s := s) (t := { s with sched := rest }) rfl rfl rfl rfl] at hrun
  exact run_command_moves hn hidle halone hrun

end Sys2Proof.Machine
end

section
/-! PROOFS. The encoding (30_encoding.md): a command's word decodes to the command (O1), a legal word is the word of its command (O2), the illegal words (O4), the rows of R110 (O3), and words of the spec's tables (O5). -/

namespace Sys2Proof

/-! ## Each format's decoder on the words of its format -/

@[simp] theorem decodeNP_cmdNP (op : BitVec 8) (i : Instr) : decodeNP (cmdNP op) i = .ok i := by
  simp [decodeNP, cmdNP_fields]

@[simp] theorem decodeAggregate_cmdS (op : BitVec 8) (all : Bool) (shard : BitVec 16)
    (mk : Bool → BitVec 16 → Instr) : decodeAggregate (cmdS op all shard) mk = .ok (mk all shard) := by
  obtain ⟨-, hres, hall, hshard⟩ := cmdS_fields op all shard
  rw [decodeAggregate, if_pos hres, hall, hshard]

@[simp] theorem decodeShard_cmdS (op : BitVec 8) (shard : BitVec 16) (mk : BitVec 16 → Instr) :
    decodeShard (cmdS op false shard) mk = .ok (mk shard) := by
  obtain ⟨-, hres, hall, hshard⟩ := cmdS_fields op false shard
  rw [decodeShard, if_neg (not_not.2 hres), hall, hshard]
  rfl

theorem decodeConfig_cmdC {v : BitVec 2} (hv : v ≠ 3) (k : BitVec 4) (l : BitVec 5) (b : Word) :
    decodeConfig (cmdC v k l) b = .ok (.config v k l b) := by
  simpa [decodeConfig, cmdC_fields] using hv

theorem decodeSelector_cmdR {sel : BitVec 8} (h : validSel sel = true) :
    decodeSelector (cmdR sel) = .ok (.rdcfg sel) := by
  simp [decodeSelector, cmdR_fields, h]

/-- Settles O1: the OP byte of a command's word picks the decoder of its format, which reads every field back. -/
theorem decodeOfEncodeIsTheCommand : Obligations.DecodeOfEncodeIsTheCommand := by
  unfold Obligations.DecodeOfEncodeIsTheCommand
  intro i hwf
  cases i with
  | nop | add | test | testadd | clear => simp [decode, encode, cmdNP_fields]
  | popcnt | rdcount | wrcount | rdword | wrword => simp [decode, encode, cmdS_fields]
  | config v k l b =>
    have hv : v ≠ 3 := by simpa [Instr.wellFormed] using hwf
    simp [decode, encode, cmdC_fields, decodeConfig_cmdC hv]
  | rdcfg sel => simp [decode, encode, cmdR_fields, decodeSelector_cmdR ((validSel_eq sel).trans hwf)]

/-! ## A word is put together from its fields -/

theorem cmdNP_eq_of_fields {c : BitVec 32} {op : BitVec 8} (hop : c.extractLsb 7 0 = op)
    (hres : c.extractLsb 31 8 = 0) : cmdNP op = c := by
  have hres := congrArg BitVec.toNat hres
  subst hop
  apply BitVec.eq_of_toNat_eq
  simp only [cmdNP, toNat_append, toNat_extractLsb, BitVec.ofNat_eq_ofNat, BitVec.toNat_ofNat] at hres ⊢
  omega

theorem cmdS_eq_of_fields {c : BitVec 32} {op : BitVec 8} (hop : c.extractLsb 7 0 = op)
    (hres : c.extractLsb 15 9 = 0) : cmdS op (c.getLsbD 8) (c.extractLsb 31 16) = c := by
  have hall : (c.getLsbD 8).toNat = c.toNat / 256 % 2 := by
    rw [BitVec.getLsbD, Nat.toNat_testBit]
  have hres := congrArg BitVec.toNat hres
  subst hop
  apply BitVec.eq_of_toNat_eq
  rw [cmdS_toNat, hall]
  simp only [toNat_extractLsb, BitVec.ofNat_eq_ofNat, BitVec.toNat_ofNat] at hres ⊢
  omega

theorem cmdC_eq_of_fields {c : BitVec 32} (hop : c.extractLsb 7 0 = 0x0A) (hlow : c.extractLsb 11 8 = 0)
    (hmid : c.extractLsb 19 18 = 0) (hhigh : c.extractLsb 31 25 = 0) :
    cmdC (c.extractLsb 17 16) (c.extractLsb 15 12) (c.extractLsb 24 20) = c := by
  have hop := congrArg BitVec.toNat hop
  have hlow := congrArg BitVec.toNat hlow
  have hmid := congrArg BitVec.toNat hmid
  have hhigh := congrArg BitVec.toNat hhigh
  apply BitVec.eq_of_toNat_eq
  simp only [cmdC, toNat_append, toNat_extractLsb, BitVec.ofNat_eq_ofNat, BitVec.toNat_ofNat] at hop hlow hmid hhigh ⊢
  omega

theorem cmdR_eq_of_fields {c : BitVec 32} (hop : c.extractLsb 7 0 = 0x0B) (hres : c.extractLsb 31 16 = 0) :
    cmdR (c.extractLsb 15 8) = c := by
  have hop := congrArg BitVec.toNat hop
  have hres := congrArg BitVec.toNat hres
  apply BitVec.eq_of_toNat_eq
  simp only [cmdR, toNat_append, toNat_extractLsb, BitVec.ofNat_eq_ofNat, BitVec.toNat_ofNat] at hop hres ⊢
  omega

/-- Settles O2: the fields a decoder reads and the reserved ones, which are 0, are all the bits of the word. -/
theorem decodedCommandKeepsItsWord : Obligations.DecodedCommandKeepsItsWord := by
  unfold Obligations.DecodedCommandKeepsItsWord
  intro r i h
  have hop := Machine.decode_opByte h
  unfold decode at h
  split at h
  case h_1 | h_2 | h_3 | h_4 | h_5 =>
    obtain ⟨rfl, hres⟩ := decodeNP_ok h
    exact ⟨rfl, cmdNP_eq_of_fields hop hres⟩
  case h_6 | h_7 =>
    obtain ⟨rfl, hres⟩ := decodeAggregate_ok h
    exact ⟨rfl, cmdS_eq_of_fields hop hres⟩
  case h_8 | h_9 | h_10 =>
    obtain ⟨rfl, hres, hall⟩ := decodeShard_ok h
    have hword := cmdS_eq_of_fields hop hres
    rw [hall] at hword
    exact ⟨rfl, hword⟩
  case h_11 =>
    obtain ⟨rfl, hlow, hmid, hhigh, hv⟩ := decodeConfig_ok h
    exact ⟨bne_iff_ne.2 hv, cmdC_eq_of_fields hop hlow hmid hhigh⟩
  case h_12 =>
    obtain ⟨rfl, hres, hsel⟩ := decodeSelector_ok h
    exact ⟨(validSel_eq _).symm.trans hsel, cmdR_eq_of_fields hop hres⟩
  case h_13 => cases h

/-! ## What the decoder of a format refuses (R111) -/

theorem decodeNP_error_iff {c : BitVec 32} {i : Instr} :
    (∃ e, decodeNP c i = .error e) ↔ c.extractLsb 31 8 ≠ 0 := by
  unfold decodeNP
  split <;> simp_all

theorem decodeAggregate_error_iff {c : BitVec 32} {mk : Bool → BitVec 16 → Instr} :
    (∃ e, decodeAggregate c mk = .error e) ↔ c.extractLsb 15 9 ≠ 0 := by
  unfold decodeAggregate
  split <;> simp_all

theorem decodeShard_error_iff {c : BitVec 32} {mk : BitVec 16 → Instr} :
    (∃ e, decodeShard c mk = .error e) ↔ c.extractLsb 15 9 ≠ 0 ∨ c.getLsbD 8 = true := by
  unfold decodeShard
  split
  · simp_all
  · split <;> simp_all

theorem decodeConfig_error_iff {c : BitVec 32} {b : Word} :
    (∃ e, decodeConfig c b = .error e) ↔ c.extractLsb 11 8 ≠ 0 ∨ c.extractLsb 19 18 ≠ 0 ∨ c.extractLsb 31 25 ≠ 0 ∨
      c.extractLsb 17 16 = 3 := by
  unfold decodeConfig
  split
  · exact ⟨fun _ => by tauto, fun _ => ⟨_, rfl⟩⟩
  · split <;> simp_all

theorem decodeSelector_error_iff {c : BitVec 32} :
    (∃ e, decodeSelector c = .error e) ↔ c.extractLsb 31 16 ≠ 0 ∨ ¬ validSel (c.extractLsb 15 8) = true := by
  unfold decodeSelector
  split
  · simp_all
  · split <;> simp_all

/-- The selectors of R282 are three ranges. -/
theorem validSel_iff (sel : BitVec 8) : validSel sel = true ↔
    sel.toNat ≤ 0x09 ∨ (0x10 ≤ sel.toNat ∧ sel.toNat ≤ 0x1D) ∨ (0x20 ≤ sel.toNat ∧ sel.toNat ≤ 0x2D) := by
  simp [validSel_eq, Instr.wellFormed, or_assoc]

/-- Settles O4: the OP byte picks the format, and each format refuses for its own conditions of R111. -/
theorem illegalWordsMeetOneOfFiveConditions : Obligations.IllegalWordsMeetOneOfFiveConditions := by
  unfold Obligations.IllegalWordsMeetOneOfFiveConditions
  intro r
  dsimp only
  unfold decode
  split
  case h_1 hop | h_2 hop | h_3 hop | h_4 hop | h_5 hop => rw [hop, decodeNP_error_iff]; simp
  case h_6 hop | h_7 hop => rw [hop, decodeAggregate_error_iff]; simp
  case h_8 hop | h_9 hop | h_10 hop => rw [hop, decodeShard_error_iff]; simp
  case h_11 hop => rw [hop, decodeConfig_error_iff]; simp
  case h_12 hop => rw [hop, decodeSelector_error_iff, validSel_iff]; simp
  case h_13 =>
    have hlarge : 0x0C ≤ (r.cmd.extractLsb 7 0).toNat := by grind
    exact ⟨fun _ => .inl hlarge, fun _ => ⟨_, rfl⟩⟩

/-! ## The rows of R110 -/

/-- A row fixes every field that its mask covers. -/
theorem OpRow.field_of_selects {row : OpRow} {c : BitVec 32} (h : row.selects c = true) {hi lo : Nat}
    (hm : row.mask.extractLsb hi lo = BitVec.allOnes _) : c.extractLsb hi lo = row.matchBits.extractLsb hi lo := by
  rw [← eq_of_beq h, BitVec.extractLsb_and, hm, BitVec.and_allOnes]

/-- Field `hi..lo` is reserved in the row's format: the row's words have 0 there. -/
def OpRow.reserves (row : OpRow) (hi lo : Nat) : Bool :=
  row.mask.extractLsb hi lo == BitVec.allOnes _ && row.matchBits.extractLsb hi lo == 0

theorem OpRow.reserved_of_selects {row : OpRow} {c : BitVec 32} (h : row.selects c = true) {hi lo : Nat}
    (hr : row.reserves hi lo = true) : c.extractLsb hi lo = 0 := by
  obtain ⟨hmask, hmatch⟩ := Bool.and_eq_true_iff.1 hr
  rw [OpRow.field_of_selects h (eq_of_beq hmask), eq_of_beq hmatch]

/-- Every row fixes the OP byte, and no two rows fix it alike. -/
theorem opRows_op : ∀ a ∈ opRows, a.mask.extractLsb 7 0 = BitVec.allOnes _ ∧
    ∀ b ∈ opRows, a.matchBits.extractLsb 7 0 = b.matchBits.extractLsb 7 0 → a = b := by decide

/-- No word selects two rows, since they differ in the OP byte. -/
theorem OpRow.eq_of_selects {a b : OpRow} {c : BitVec 32} (ha : a ∈ opRows) (hb : b ∈ opRows)
    (hac : a.selects c = true) (hbc : b.selects c = true) : a = b := by
  obtain ⟨hmask, hinj⟩ := opRows_op a ha
  exact hinj b hb ((field_of_selects hac hmask).symm.trans (field_of_selects hbc (opRows_op b hb).1))

/-- The OP bytes and reserved fields of the rows, format by format (R103 to R107). -/
theorem opRows_formats : ∀ row ∈ opRows,
    let op := (row.matchBits.extractLsb 7 0).toNat
    (op ≤ 0x04 ∧ row.reserves 31 8 = true) ∨
    ((op = 0x05 ∨ op = 0x06) ∧ row.reserves 15 9 = true) ∨
    ((0x07 ≤ op ∧ op ≤ 0x09) ∧ row.reserves 15 9 = true ∧ row.reserves 8 8 = true) ∨
    (op = 0x0A ∧ row.mnemonic = "CONFIG" ∧ row.reserves 11 8 = true ∧ row.reserves 19 18 = true ∧
      row.reserves 31 25 = true) ∨
    (op = 0x0B ∧ row.mnemonic = "RDCFG" ∧ row.reserves 31 16 = true) := by decide

/-- A word that selects a row, with the two conditions the masks cannot say, is legal: it meets none of the five
conditions of R111. -/
theorem decode_ok_of_selects {r : Request} {row : OpRow} (hmem : row ∈ opRows) (hsel : row.selects r.cmd = true)
    (hconfig : row.mnemonic = "CONFIG" → r.cmd.extractLsb 17 16 ≠ 3)
    (hrdcfg : row.mnemonic = "RDCFG" → validSel (r.cmd.extractLsb 15 8) = true) : ∃ i, decode r = .ok i := by
  rcases hdecode : decode r with e | i
  · exfalso
    have hill := (illegalWordsMeetOneOfFiveConditions r).1 ⟨e, hdecode⟩
    rw [OpRow.field_of_selects hsel (opRows_op row hmem).1, ← validSel_iff] at hill
    have hres : ∀ {hi lo : Nat}, row.reserves hi lo = true → r.cmd.extractLsb hi lo = 0 :=
      OpRow.reserved_of_selects hsel
    rcases opRows_formats row hmem with ⟨hop, h⟩ | ⟨hop, h⟩ | ⟨hop, h, hall⟩ | ⟨hop, hname, hlow, hmid, hhigh⟩ |
      ⟨hop, hname, h⟩
    · have hreserved := hres h
      grind
    · have hreserved := hres h
      grind
    · have hreserved := hres h
      have hbit : r.cmd.getLsbD 8 = false := (extractLsb_eq_iff r.cmd 8 8 0).1 (hres hall) 0
      grind
    · have hreserved := And.intro (hres hlow) (And.intro (hres hmid) (hres hhigh))
      have hvariant := hconfig hname
      grind
    · have hreserved := hres h
      have hselector := hrdcfg hname
      grind
  · exact ⟨i, rfl⟩

/-- The word of every well-formed command selects the command's row. -/
theorem encodeRow_statement (i : Instr) : Laws.EncodeRow.Statement i := by
  cases i with
  | nop => exact Laws.EncodeRow.nop
  | add h => exact Laws.EncodeRow.add h
  | test h => exact Laws.EncodeRow.test h
  | testadd h => exact Laws.EncodeRow.testadd h
  | clear => exact Laws.EncodeRow.clear
  | popcnt all shard => exact Laws.EncodeRow.popcnt all shard
  | rdcount all shard => exact Laws.EncodeRow.rdcount all shard
  | wrcount shard cval => exact Laws.EncodeRow.wrcount shard cval
  | rdword shard widx => exact Laws.EncodeRow.rdword shard widx
  | wrword shard widx wval => exact Laws.EncodeRow.wrword shard widx wval
  | config v k l b => exact Laws.EncodeRow.config v k l b
  | rdcfg sel => exact Laws.EncodeRow.rdcfg sel

/-- A well-formed command's word meets the condition that the mask of its row cannot say. -/
theorem encode_conditions {i : Instr} (hwf : i.wellFormed = true) {row : OpRow}
    (hrow : opRows[i.rowIndex]? = some row) :
    (row.mnemonic = "CONFIG" → (encode i).cmd.extractLsb 17 16 ≠ 3) ∧
      (row.mnemonic = "RDCFG" → validSel ((encode i).cmd.extractLsb 15 8) = true) := by
  cases i with
  | config v k l b =>
    obtain ⟨-, -, -, -, hv, -⟩ := cmdC_fields v k l
    cases hrow
    exact ⟨fun _ => hv.trans_ne (bne_iff_ne.1 hwf), nofun⟩
  | rdcfg sel =>
    obtain ⟨-, -, hsel⟩ := cmdR_fields sel
    cases hrow
    exact ⟨nofun, fun _ => (congrArg validSel hsel).trans ((validSel_eq sel).trans hwf)⟩
  | nop | add | test | testadd | clear | popcnt | rdcount | wrcount | rdword | wrword =>
    cases hrow
    exact ⟨nofun, nofun⟩

/-- Settles O3: a legal word is the word of its command, which selects that command's row. -/
theorem legalWordsAreTheTableRows : Obligations.LegalWordsAreTheTableRows := by
  unfold Obligations.LegalWordsAreTheTableRows
  refine ⟨fun r => ⟨?_, ?_⟩, fun c a ha b hb => OpRow.eq_of_selects ha hb⟩
  · rintro ⟨i, hi⟩
    obtain ⟨hwf, hcmd⟩ := decodedCommandKeepsItsWord r i hi
    obtain ⟨row, hrow, hsel⟩ := encodeRow_statement i hwf
    exact ⟨row, List.mem_of_getElem? hrow, hcmd ▸ hsel, hcmd ▸ encode_conditions hwf hrow⟩
  · rintro ⟨row, hmem, hsel, hconfig, hrdcfg⟩
    exact decode_ok_of_selects hmem hsel hconfig hrdcfg

/-- Settles O5: the decoder evaluated on each word. -/
theorem wordsOfTheSpecDecode : Obligations.WordsOfTheSpecDecode := by
  unfold Obligations.WordsOfTheSpecDecode
  decide

end Sys2Proof
end

section
/-! PROOFS. Requests that change nothing: an illegal one only responds (O7), and one on a busy port is not accepted (O17). -/

namespace Sys2Proof.Machine

/-- A program that raises a status only responds (R13). -/
theorem runCommand_raise (p : Nat) (st : Status) (s : State) :
    runCommand p (Program.raise st) s = .next (s.deliver p st 0) := by
  cases st <;> rfl

theorem requestProgram_of_error {r : Request} {e : Illegal} (h : decode r = .error e) (s : State) :
    requestProgram r s = Program.raise .illegal := by
  unfold requestProgram
  rw [h]

/-- Settles O7: an illegal request is served with the program that raises E_ILLEGAL. -/
theorem illegalRequestOnlyResponds : Obligations.IllegalRequestOnlyResponds := by
  unfold Obligations.IllegalRequestOnlyResponds
  intro s p r e rest hn hsched herror hidle halone
  calc step s
    _ = commandMove p r { s with sched := rest } := step_of_sched hn hsched
    _ = runCommand p (requestProgram r _) { s with sched := rest, grant := p } :=
      commandMove_of_idle (s := { s with sched := rest }) hn hidle halone
    _ = _ := by rw [requestProgram_of_error herror, runCommand_raise]

theorem canAccept_of_flight {s : State} {p : Nat} {f : Flight} (h : s.flight p = some f) : s.canAccept p = false := by
  refine Bool.eq_false_iff.2 fun hidle => ?_
  rw [flight_of_canAccept hidle] at h
  cases h

/-- A port that is not IDLE accepts nothing (R101). -/
theorem serve_of_busy {s : State} {p : Nat} (r : Request) (prog : Program) (hn : s.faults.stuck = none)
    (h : s.canAccept p = false) : serve p r prog s = .next s := by
  simp [serve, hn, h]

theorem acceptMove_of_busy {s : State} {p : Nat} (r : Request) (h : s.canAccept p = false) : acceptMove p r s = s := by
  simp [acceptMove, h]

theorem commandMove_of_busy {s : State} {p : Nat} (r : Request) (hn : s.faults.stuck = none)
    (h : s.canAccept p = false) : commandMove p r s = .next { s with grant := p } := by
  obtain ⟨r', prog, hserve⟩ := commandMove_serves p r s
  exact hserve.trans (serve_of_busy (s := { s with grant := p }) r' prog hn h)

/-- Settles O17: neither the acceptance nor a whole command finds the port IDLE. -/
theorem busyPortAcceptsNothing : Obligations.BusyPortAcceptsNothing := by
  unfold Obligations.BusyPortAcceptsNothing
  intro s p f r rest hn hflight
  have hbusy := canAccept_of_flight hflight
  refine ⟨fun hsched => ?_, fun hsched => ?_⟩ <;> rw [step_of_sched hn hsched]
  · exact congrArg _ (acceptMove_of_busy (s := { s with sched := rest }) r hbusy)
  · exact commandMove_of_busy (s := { s with sched := rest }) r hn hbusy

end Sys2Proof.Machine
end

section
/-! PROOFS. The datapath (40_datapath.md): the field split of each variant (O19, O20), the partitions of a block, with each probe in its own (O21) and no two probes at one bit (O22), and the word a probe names (O23). -/

namespace Sys2Proof.Machine

/-! ## The field split (R141, R142) -/

theorem hashFields_plain {c : Cfg} (hc : c.var = .unsync ∨ c.var = .atomic) (h : Word) :
    hashFields c h = fieldsPlain c h := by
  obtain hc | hc := hc <;> simp only [hashFields, hc]

theorem hashFields_sharded {c : Cfg} (hc : c.var = .sharded) (h : Word) : hashFields c h = fieldsSharded c h := by
  simp only [hashFields, hc]

/-- A field that reaches the top of the word is a quotient. -/
theorem toNat_extractLsb_top (h : Word) {lo : Nat} (hlo : lo ≤ 63) :
    (h.extractLsb 63 lo).toNat = h.toNat / 2 ^ lo := by
  have hlt : h.toNat / 2 ^ lo < 2 ^ (63 - lo + 1) := by
    rw [Nat.div_lt_iff_lt_mul (Nat.two_pow_pos lo), ← Nat.pow_add]
    exact h.isLt.trans_eq (congrArg (2 ^ ·) (by omega))
  rw [toNat_extractLsb, Nat.mod_eq_of_lt hlt]

/-- Settles O19: in both variants the split is `fieldsPlain`. -/
theorem plainFieldSplit : Obligations.PlainFieldSplit := by
  unfold Obligations.PlainFieldSplit
  intro c h hvar hb
  rw [hashFields_plain hvar]
  have hblock : (fieldsPlain c h).blockIndex = h.toNat / 2 ^ 32 % c.b.toNat :=
    congrArg (· % c.b.toNat) (toNat_extractLsb_top h (by decide))
  exact ⟨rfl, hblock, Nat.mod_lt _ hb, BitVec.extractLsb_toNat 31 0 h⟩

/-- Settles O20: the split is `fieldsSharded`, with `N` the power of two that `CFG.LOG2N` gives. -/
theorem shardedFieldSplit : Obligations.ShardedFieldSplit := by
  unfold Obligations.ShardedFieldSplit
  intro c h hvar hb
  rw [hashFields_sharded hvar]
  have hshard : (fieldsSharded c h).shardIndex = h.toNat / 2 ^ 32 % 2 ^ 16 % 2 ^ c.log2n.toNat :=
    congrArg (· % 2 ^ c.log2n.toNat) (toNat_extractLsb h 47 32)
  have hblock : (fieldsSharded c h).blockIndex = h.toNat / 2 ^ 48 % c.b.toNat :=
    congrArg (· % c.b.toNat) (toNat_extractLsb_top h (by decide))
  exact ⟨hshard, Nat.mod_lt _ (Nat.two_pow_pos _), hblock, Nat.mod_lt _ hb, BitVec.extractLsb_toNat 31 0 h⟩

section Configured

variable {s : State} (hs : StorageInv s) (hv : s.cfg.valid = true)
include hs hv

/-! ## The partitions of a block (R148, R149, R151) -/

/-- The first partition begins at bit 0 (R148). -/
theorem offset_zero : s.offset 0 = 0 := by
  have hk : 0 < s.cfg.k.toNat := Nat.zero_lt_of_lt (config_legal hs hv).k_ge
  rw [((hs.configured hv).2 0 hk).2]
  rfl

/-- A partition ends before each later one begins. -/
theorem offset_add_width_le_offset {i j : Nat} (hij : i < j) (hj : j < s.cfg.k.toNat) :
    s.offset i + s.width i ≤ s.offset j := by
  induction j, hij using Nat.le_induction with
  | base => exact (offset_succ hs hv hj).ge
  | succ j _ ih =>
    calc s.offset i + s.width i
      _ ≤ s.offset j := ih (Nat.lt_of_succ_lt hj)
      _ ≤ s.offset j + s.width j := Nat.le_add_right _ _
      _ = s.offset (j + 1) := (offset_succ hs hv hj).symm

/-- A probe does not reach the end of its partition (R149). -/
theorem probePos_lt_partition_end (x : Nat) {i : Nat} (hi : i < s.cfg.k.toNat) :
    probePos s x i < s.offset i + s.width i :=
  Nat.add_lt_add_left (Nat.mod_lt x (width_pos hs hv hi)) _

/-- The probes of one hash stand in the order of their partitions. -/
theorem probePos_lt_probePos (x : Nat) {i j : Nat} (hij : i < j) (hj : j < s.cfg.k.toNat) :
    probePos s x i < probePos s x j :=
  calc probePos s x i
    _ < s.offset i + s.width i := probePos_lt_partition_end hs hv x (hij.trans hj)
    _ ≤ s.offset j := offset_add_width_le_offset hs hv hij hj
    _ ≤ probePos s x j := Nat.le_add_right _ _

/-! ## The word of a probe (R60) -/

/-- A probe's place among the eight words of its block. -/
theorem probeWord_mod (h : Word) {i : Nat} (hi : i < s.cfg.k.toNat) :
    probeWord s h i % 8 = probePos s (hashFields s.cfg h).intraHash i / 64 := by
  have hpos := probePos_lt hs hv (hashFields s.cfg h).intraHash hi
  unfold probeWord gword
  dsimp only
  omega

end Configured

/-- Settles O21: the remainder keeps a probe in its partition, and the partitions are the prefix sums of a legal row. -/
theorem probeLiesInItsPartition : Obligations.ProbeLiesInItsPartition := by
  unfold Obligations.ProbeLiesInItsPartition
  intro s x i hs hv hi
  exact ⟨rfl, Nat.le_add_right _ _, probePos_lt_partition_end hs hv x hi, probePos_lt hs hv x hi, offset_zero hs hv,
    offset_succ hs hv, offset_last hs hv⟩

/-- Settles O22: of two probes the one of the earlier partition is at the lower position. -/
theorem probesAreDistinct : Obligations.ProbesAreDistinct := by
  unfold Obligations.ProbesAreDistinct
  intro s x i j hs hv hi hj hne
  obtain hij | hji := Nat.lt_or_gt_of_ne hne
  · exact (probePos_lt_probePos hs hv x hij hj).ne
  · exact (probePos_lt_probePos hs hv x hji hi).ne'

/-- Settles O23: a position below 512 leaves the probe's word among the eight of the selected block, and that block is
in use. -/
theorem probesStayInTheSelectedBlock : Obligations.ProbesStayInTheSelectedBlock := by
  unfold Obligations.ProbesStayInTheSelectedBlock
  intro s h i hs hv hi
  exact ⟨probeWord_div hs hv h hi, probeWord_mod hs hv h hi, rfl, probeWord_lt hs hv h hi⟩

end Sys2Proof.Machine
end

section
/-! PROOFS. The per-key commands served whole (41_probe_ops.md): the effect of an add part, ADD (O25, O30 to O32), TEST (O26, O33) and TESTADD (O27, O28). -/

namespace Sys2Proof.Machine

/-! ## The add part (R182, R183) -/

/-- In every variant the add part is one OR for each probe, plain or atomic, and the increment. -/
theorem addTasks_eq_probes (s : State) (h : Word) :
    ∃ task : Nat → Word → Task, (∀ g m, (task g m).orMask = some (g, m)) ∧
      addTasks s h = forEachProbe s h task ++ [.inc (hashShard s h)] := by
  unfold addTasks
  split
  · exact ⟨.rmwLoad, fun _ _ => rfl, rfl⟩
  · exact ⟨.setBit, fun _ _ => rfl, rfl⟩
  · exact ⟨.setBit, fun _ _ => rfl, rfl⟩

/-- ORs of the probes' masks set the probe bits. -/
theorem exists_orMask_iff_isProbeBit {s : State} {h : Word} {task : Nat → Word → Task}
    (htask : ∀ g m, (task g m).orMask = some (g, m)) (g j : Nat) :
    (∃ x ∈ forEachProbe s h task, ∃ m, x.orMask = some (g, m) ∧ m.getLsbD j = true) ↔ IsProbeBit s h g j := by
  constructor
  · rintro ⟨x, hx, m, hor, hj⟩
    obtain ⟨i, hi, rfl⟩ := mem_forEachProbe.1 hx
    rw [htask] at hor
    cases hor
    exact ⟨i, hi, rfl, hj⟩
  · rintro ⟨i, hi, rfl, hj⟩
    exact ⟨_, mem_forEachProbe.2 ⟨i, hi, rfl⟩, _, htask _ _, hj⟩

theorem forEachProbe_orMask_ne_none {s : State} {h : Word} {task : Nat → Word → Task}
    (htask : ∀ g m, (task g m).orMask = some (g, m)) : ∀ x ∈ forEachProbe s h task, x.orMask ≠ none := by
  intro x hx
  obtain ⟨i, -, rfl⟩ := mem_forEachProbe.1 hx
  simp [htask]

theorem addTasks_ne_writeCfg (s : State) (h : Word) :
    ∀ x ∈ addTasks s h, ∀ var k b l, x ≠ .writeCfg var k b l := by
  rintro x hx var k b l rfl
  rcases mem_addTasks_cases hx with ⟨i, -, hor⟩ | hinc
  · cases hor
  · cases hinc

/-- An add part performed at once sets the probe bits and no other. -/
theorem tasksEffect_addTasks_bits (s : State) (h : Word) (g j : Nat) :
    ((tasksEffect s (addTasks s h)).word g).getLsbD j = true ↔
      (s.word g).getLsbD j = true ∨ IsProbeBit s h g j := by
  obtain ⟨task, htask, hadd⟩ := addTasks_eq_probes s h
  rw [hadd, tasksEffect_append]
  exact (tasksEffect_word_or (forEachProbe_orMask_ne_none htask) s g j).trans
    (or_congr_right (exists_orMask_iff_isProbeBit htask g j))

/-- An add part performed at once counts one add in the shard of the hash. -/
theorem tasksEffect_addTasks_counter (s : State) (h : Word) (i : Nat) :
    (tasksEffect s (addTasks s h)).counter i = if i = hashShard s h then s.counter i + 1 else s.counter i := by
  obtain ⟨task, htask, hadd⟩ := addTasks_eq_probes s h
  have hors := tasksEffect_counter_or (forEachProbe_orMask_ne_none (s := s) (h := h) htask) s
  rw [hadd, tasksEffect_append, tasksEffect_cons, tasksEffect_nil, Task.effect_counter]
  dsimp only
  rw [hors, hors]
  split
  · rename_i hi
    rw [hi]
  · rfl

/-- An add part performed at once, and a response after it, are one add. -/
theorem added_addTasks (s : State) (h : Word) (p : Nat) (st : Status) (d : Word) :
    Added s h ((tasksEffect s (addTasks s h)).deliver p st d) := by
  obtain ⟨hcfg, hpw, hpo⟩ := tasksEffect_cfg (addTasks_ne_writeCfg s h) s
  exact ⟨tasksEffect_addTasks_bits s h, tasksEffect_addTasks_counter s h, tasksEffect_params .., hcfg, hpw, hpo,
    tasksEffect_ports .., tasksEffect_faults .., tasksEffect_sched .., tasksEffect_grant ..⟩

theorem deliver_addTasks_delivered (s : State) (h : Word) (p : Nat) (st : Status) (d : Word) :
    ((tasksEffect s (addTasks s h)).deliver p st d).delivered = ⟨p, st, d⟩ :: s.delivered := by
  rw [State.deliver_delivered, tasksEffect_delivered]

/-- A command of one part responds OK with what its tasks have found. -/
theorem exec_perform {i : Instr} {s : State} {l : List Task} {res : Result} (hready : Ready i s) (hs : StorageInv s)
    (hp : program i s = .perform l res) :
    exec i s = .next ((tasksEffect s l).deliver s.grant .ok (res.data (tasksRecords s l []))) := by
  rw [exec_of_ready hready hs, hp]
  rfl

/-! ## ADD -/

/-- ADD performs the add part and responds OK, 0. -/
theorem exec_add {s : State} {h : Word} (hc : Configured (.add h) s) :
    exec (.add h) s = .next ((tasksEffect s (addTasks s h)).deliver s.grant .ok 0) :=
  exec_perform hc.ready hc.inv (program_add hc.valid h)

/-- Settles O25: the effect of the add part. -/
theorem addSetsProbeBitsAndCounts : Obligations.AddSetsProbeBitsAndCounts := by
  unfold Obligations.AddSetsProbeBitsAndCounts
  intro h s hc
  exact ⟨_, exec_add hc, added_addTasks .., deliver_addTasks_delivered ..⟩

/-- Overlap depends on the commands in flight, the configuration and the kind of the request. -/
theorem overlapFaults_congr {s t : State} {r r' : Request} (hports : t.ports = s.ports) (hcfg : t.cfg = s.cfg)
    (hnop : isNop r' = isNop r) (hexcl : isExclusive r' = isExclusive r) :
    overlapFaults t r' = overlapFaults s r := by
  simp only [overlapFaults, State.inFlight, hports, hcfg, hnop, hexcl]

/-- Where one command could be accepted, so can another of its kind after it. -/
theorem Configured.after {s t : State} {i i' : Instr} (hc : Configured i s) (ht : StorageInv t)
    (hkept : RegistersKept s t) (hnop : isNop (encode i') = isNop (encode i))
    (hexcl : isExclusive (encode i') = isExclusive (encode i)) : Configured i' t := by
  obtain ⟨⟨hunfaulted, hidle, halone⟩, -, hv⟩ := hc
  obtain ⟨-, hcfg, -, -, hports, hfaults, -, hgrant⟩ := hkept
  refine ⟨⟨by rwa [hfaults], by rwa [State.canAccept, hports, hgrant], ?_⟩, ht, by rwa [hcfg]⟩
  rwa [overlapFaults_congr hports hcfg hnop hexcl]

theorem SameStorage.deliver (s : State) (p : Nat) (st : Status) (d : Word) : SameStorage s (s.deliver p st d) :=
  ⟨rfl, rfl, rfl, rfl, rfl, rfl, rfl⟩

/-- What an ADD leaves: one add, in legal storage. -/
theorem exec_add_next {s t : State} {h : Word} (hc : Configured (.add h) s) (he : exec (.add h) s = .next t) :
    Added s h t ∧ StorageInv t := by
  rw [exec_add hc] at he
  cases he
  have hs := tasksEffect_storage hc.inv fun x hx => (addTasks_owned hc.inv hc.valid h (.inl rfl) hx).legal
  exact ⟨added_addTasks .., (SameStorage.deliver ..).storageInv hs⟩

theorem Added.filterKept {s t : State} {h : Word} (hadd : Added s h t) : FilterKept s t :=
  ⟨fun g j hj => (hadd.bits g j).2 (.inl hj), hadd.kept.cfg, hadd.kept.pw, hadd.kept.po⟩

/-- An add leaves the key present. -/
theorem Added.probesSet {s t : State} {h : Word} (hadd : Added s h t) : ProbesSet t h := by
  refine hadd.filterKept.probesSet_of_words fun i hi => ?_
  refine and_ne_zero_of_bits (a := probeMask s h i) (fun j hj => (hadd.bits _ j).2 (.inr ⟨i, hi, rfl, hj⟩)) ?_
  rw [BitVec.and_self]
  exact probeMask_ne_zero s h i

/-- Settles O31: the add leaves every probe bit 1, and a TEST can be accepted where the ADD was. -/
theorem testAfterAddIsPresent : Obligations.TestAfterAddIsPresent := by
  unfold Obligations.TestAfterAddIsPresent
  intro h s t hc he
  obtain ⟨hadd, ht⟩ := exec_add_next hc he
  obtain ⟨hready, hs, hv⟩ : Configured (.test h) t := hc.after ht hadd.kept rfl rfl
  exact exec_test_of_probesSet hready hs hv hadd.probesSet

/-- The probe bits of a hash stay where they are while the filter is kept. -/
theorem FilterKept.isProbeBit_iff {s t : State} (hkept : FilterKept s t) (h : Word) (g j : Nat) :
    IsProbeBit t h g j ↔ IsProbeBit s h g j := by
  simp only [IsProbeBit, hkept.cfg, hkept.probeWord, hkept.probeMask]

/-- Settles O32: the second add sets the bits that the first has set. -/
theorem secondAddChangesNoWord : Obligations.SecondAddChangesNoWord := by
  unfold Obligations.SecondAddChangesNoWord
  intro h s t u hc he he'
  obtain ⟨hadd, ht⟩ := exec_add_next hc he
  obtain ⟨hadd', -⟩ := exec_add_next (hc.after ht hadd.kept rfl rfl) he'
  refine ⟨fun g => BitVec.eq_of_getLsbD_eq fun j _ => Bool.eq_iff_iff.2 ?_, ?_⟩
  · rw [hadd'.bits, hadd.filterKept.isProbeBit_iff, hadd.bits]
    tauto
  · have hshard : hashShard t h = hashShard s h := by rw [hashShard, hashShard, hadd.kept.cfg]
    rw [hadd'.counters, hadd.counters, if_pos hshard.symm, if_pos rfl, BitVec.add_assoc]
    rfl

/-! ## Plain and atomic ORs (R183) -/

/-- Tasks that do not write the configuration do the same whatever it is. -/
theorem tasksEffect_with_cfg {l : List Task} (hl : ∀ x ∈ l, ∀ var k b n, x ≠ .writeCfg var k b n) (s : State)
    (c : Cfg) : tasksEffect { s with cfg := c } l = { tasksEffect s l with cfg := c } := by
  induction l generalizing s with
  | nil => rfl
  | cons x l ih =>
    rw [tasksEffect_cons, tasksEffect_cons, ← ih fun y hy => hl y (by simp [hy])]
    have hx := hl x (by simp)
    cases x with
    | writeCfg var k b n => exact absurd rfl (hx var k b n)
    | probe | setBit | rmwLoad | rmwStore | inc | countOnes | addCount | readWord | storeWord | storeCount => rfl

/-- `s` configured ATOMIC, with the rest of its configuration. -/
def State.asAtomic (s : State) : State := { s with cfg := { s.cfg with var := .atomic } }

/-- A UNSYNC engine is as well configured ATOMIC, with no more overlap. -/
theorem Configured.asAtomic {s : State} {h : Word} (hc : Configured (.add h) s) (hu : s.cfg.var = .unsync) :
    Configured (.add h) s.asAtomic := by
  obtain ⟨⟨hunfaulted, hidle, halone⟩, hs, hv⟩ := hc
  have hlegal : ConfigLegal s.params .atomic s.cfg.k s.cfg.b s.cfg.log2n :=
    { config_legal hs hv with one_shard := fun _ => (config_legal hs hv).one_shard (by simp [hu]) }
  have hexcl := (stuck_eq_none.1 halone).1
  exact ⟨⟨hunfaulted, hidle, stuck_eq_none.2 ⟨hexcl, by simp [overlapFaults, State.asAtomic]⟩⟩,
    { hs with configured := fun _ => ⟨hlegal, (hs.configured hv).2⟩ }, hv⟩

theorem addTasks_unsync {s : State} (hu : s.cfg.var = .unsync) (h : Word) :
    addTasks s h = forEachProbe s h .rmwLoad ++ [.inc (hashShard s h)] := by simp only [addTasks, hu]

/-- A plain read-modify-write performed at once has the effect of the atomic OR, so the two add parts of a hash have one
effect. -/
theorem tasksEffect_addTasks_asAtomic {s : State} (hu : s.cfg.var = .unsync) (h : Word) :
    tasksEffect s (addTasks s.asAtomic h) = tasksEffect s (addTasks s h) := by
  have hfields : hashFields s.asAtomic.cfg h = hashFields s.cfg h := by
    rw [hashFields_plain (.inl hu), hashFields_plain (.inr rfl)]
    rfl
  have hors : tasksEffect s (forEachProbe s.asAtomic h .setBit) = tasksEffect s (forEachProbe s h .rmwLoad) := by
    simp only [forEachProbe, probeWord, probeMask, hfields, tasksEffect, List.foldl_map]
    rfl
  have hshard : hashShard s.asAtomic h = hashShard s h := congrArg Fields.shardIndex hfields
  have hatomic : addTasks s.asAtomic h = forEachProbe s.asAtomic h .setBit ++ [.inc (hashShard s.asAtomic h)] := rfl
  rw [addTasks_unsync hu, hatomic, hshard, tasksEffect_append, tasksEffect_append, hors]

/-- Settles O30: both ADDs perform their add parts, which have one effect. -/
theorem plainAddHasTheAtomicEffect : Obligations.PlainAddHasTheAtomicEffect := by
  unfold Obligations.PlainAddHasTheAtomicEffect
  intro h s t u hc hu ht hu'
  have heffect : tasksEffect s.asAtomic (addTasks s.asAtomic h) =
      { tasksEffect s (addTasks s h) with cfg := s.asAtomic.cfg } := by
    rw [← tasksEffect_addTasks_asAtomic hu]
    exact tasksEffect_with_cfg (addTasks_ne_writeCfg s.asAtomic h) s _
  rw [exec_add hc] at ht
  change exec (.add h) s.asAtomic = .next u at hu'
  rw [exec_add (hc.asAtomic hu), heffect] at hu'
  cases ht
  cases hu'
  exact ⟨rfl, rfl⟩

/-! ## TEST -/

/-- TEST writes nothing and responds with what its probes find. -/
theorem exec_test {s : State} {h : Word} (hc : Configured (.test h) s) :
    exec (.test h) s =
      .next (s.deliver s.grant .ok (dataOfBool (allPresent (tasksRecords s (forEachProbe s h .probe) [])))) := by
  rw [exec_perform hc.ready hc.inv (program_test hc.valid h), tasksEffect_of_reads (probes_reads s h)]
  rfl

/-- Probes performed at once find an absent key absent. -/
theorem allPresent_probes_eq_false {s : State} {h : Word} (hset : ¬ ProbesSet s h) :
    allPresent (tasksRecords s (forEachProbe s h .probe) []) = false :=
  Bool.eq_false_iff.2 fun hpresent => hset ((allPresent_probes s h).1 hpresent)

/-- Settles O26: the probes find the key present exactly if every probe bit is 1. -/
theorem testReportsTheProbeBits : Obligations.TestReportsTheProbeBits := by
  unfold Obligations.TestReportsTheProbeBits
  intro h s hc
  rw [exec_test hc]
  refine ⟨fun hset => ?_, fun hset => ?_⟩
  · rw [(allPresent_probes s h).2 hset]
    rfl
  · rw [allPresent_probes_eq_false hset]
    rfl

/-- Probes of hashes with equal fields are the same. -/
theorem forEachProbe_congr {s : State} {h h' : Word} (hf : hashFields s.cfg h = hashFields s.cfg h')
    (task : Nat → Word → Task) : forEachProbe s h task = forEachProbe s h' task := by
  simp only [forEachProbe, probeWord, probeMask, hf]

/-- Settles O33: the two TESTs have the same probes. -/
theorem equalFieldsTestAlike : Obligations.EqualFieldsTestAlike := by
  unfold Obligations.EqualFieldsTestAlike
  intro h h' s hf hc
  have hc' : Configured (.test h') s := ⟨⟨hc.ready.unfaulted, hc.ready.idle, hc.ready.alone⟩, hc.inv, hc.valid⟩
  rw [exec_test hc, exec_test hc', forEachProbe_congr hf]

/-! ## TESTADD -/

/-- Tasks that probe nothing leave the test part's finding as it is. -/
theorem allPresent_tasksRecords {l : List Task}
    (hl : ∀ x ∈ l, ∀ (s : State), ∀ d ∈ x.records s, d.absent = false) (s : State) (d : List Done) :
    allPresent (tasksRecords s l d) = allPresent d := by
  induction l generalizing s d with
  | nil => rfl
  | cons x l ih =>
    have hx : allPresent (x.records s) = true := allPresent_iff.2 (hl x (by simp) s)
    rw [tasksRecords_cons, ih fun y hy => hl y (by simp [hy]), allPresent, List.all_append, ← allPresent, hx,
      Bool.true_and, allPresent]

theorem Task.records_absent_of_orMask {x : Task} {g : Nat} {m : Word} (hor : x.orMask = some (g, m)) (s : State) :
    ∀ d ∈ x.records s, d.absent = false := by
  cases x with
  | setBit | rmwLoad => simp [Task.records, Done.absent]
  | probe | rmwStore | inc | countOnes | addCount | readWord | storeWord | storeCount | writeCfg => cases hor

/-- The add part probes nothing. -/
theorem allPresent_addTasks (s : State) (h : Word) (u : State) (d : List Done) :
    allPresent (tasksRecords u (addTasks s h) d) = allPresent d := by
  refine allPresent_tasksRecords (fun x hx v => ?_) u d
  rcases mem_addTasks_cases hx with ⟨i, -, hor⟩ | rfl
  · exact Task.records_absent_of_orMask hor v
  · simp [Task.records, Done.absent]

/-- TESTADD of a present key in UNSYNC only responds 1. -/
theorem exec_testadd_skips {s : State} {h : Word} (hc : Configured (.testadd h) s) (hu : s.cfg.var = .unsync)
    (hset : ProbesSet s h) : exec (.testadd h) s = .next (s.deliver s.grant .ok 1) := by
  have hpresent := (allPresent_probes s h).2 hset
  rw [exec_of_ready hc.ready hc.inv, program_testadd hc.valid]
  simp [Program.rest, hu, hpresent, tasksEffect_of_reads (probes_reads s h), Program.data, Result.data, dataOfBool]

/-- TESTADD of an absent key, or in ATOMIC and SHARDED of any key, performs the add part and responds with what its
probes found before it. -/
theorem exec_testadd_adds {s : State} {h : Word} (hc : Configured (.testadd h) s)
    (hadds : s.cfg.var ≠ .unsync ∨ ¬ ProbesSet s h) :
    exec (.testadd h) s = .next ((tasksEffect s (addTasks s h)).deliver s.grant .ok
      (dataOfBool (allPresent (tasksRecords s (forEachProbe s h .probe) [])))) := by
  have hrest : ((s.cfg.var == .unsync) && allPresent (tasksRecords s (forEachProbe s h .probe) [])) = false :=
    Bool.and_eq_false_iff.2 (hadds.imp beq_eq_false_iff_ne.2 allPresent_probes_eq_false)
  rw [exec_of_ready hc.ready hc.inv, program_testadd hc.valid]
  simp only [Program.rest, hrest, Bool.false_eq_true, if_false, tasksEffect_of_reads (probes_reads s h), Program.data,
    Result.data, allPresent_addTasks]

/-- Settles O27: the test part decides whether the add part follows. -/
theorem testaddInUnsyncAddsIfAbsent : Obligations.TestaddInUnsyncAddsIfAbsent := by
  unfold Obligations.TestaddInUnsyncAddsIfAbsent
  intro h s hc hu
  refine ⟨exec_testadd_skips hc hu, fun hset => ?_⟩
  have he := exec_testadd_adds hc (.inr hset)
  rw [allPresent_probes_eq_false hset] at he
  exact ⟨_, he, added_addTasks .., deliver_addTasks_delivered ..⟩

/-- Settles O28: the add part follows whatever the test part finds. -/
theorem testaddInAtomicAlwaysAdds : Obligations.TestaddInAtomicAlwaysAdds := by
  unfold Obligations.TestaddInAtomicAlwaysAdds
  intro h s hc hu
  refine ⟨_, _, exec_testadd_adds hc (.inl hu), added_addTasks .., deliver_addTasks_delivered .., fun hset => ?_,
    fun hset => ?_⟩
  · rw [(allPresent_probes s h).2 hset]
    rfl
  · rw [allPresent_probes_eq_false hset]
    rfl

end Sys2Proof.Machine
end

section
/-! PROOFS. The short-circuit of a test part that has read a 0 (O54, R187). -/

namespace Sys2Proof.Machine

/-- A 0 read stays read, whatever is performed after it. -/
theorem allPresent_append_of_absent {l : List Done} (h : allPresent l = false) (more : List Done) :
    allPresent (more ++ l) = false := by
  rw [allPresent, List.all_append, ← allPresent, ← allPresent, h, Bool.and_false]

/-- A test that has read a 0 goes on to its second part, whether or not it is performed only for an absent key. -/
theorem rest_of_absent {done : List Done} (h : allPresent done = false) (prog : Program) :
    prog.rest done = prog.second := by
  simp [Program.rest, h]

/-- A test that has read a 0 responds with DATA 0, whatever its status. -/
theorem data_of_absent {prog : Program} {done : List Done} (hresult : prog.result = .present)
    (h : allPresent done = false) : prog.data done = 0 := by
  unfold Program.data
  split
  · rw [hresult, Result.data, h]
    rfl
  all_goals rfl

theorem mayStop_iff {f : Flight} :
    f.mayStop = true ↔ f.part = .first ∧ f.prog.result = .present ∧ allPresent f.done = false := by
  simp [Flight.mayStop, and_assoc]

/-- The short-circuit is taken wherever it is allowed, and leaves the second part to perform. -/
theorem shortCircuitMove_of_mayStop {s : State} {p : Nat} {f : Flight} (hf : s.flight p = some f)
    (hmay : f.mayStop = true) :
    shortCircuitMove p s = s.setPort p (.busy { f with part := .second, todo := f.prog.second }) := by
  obtain ⟨hpart, -, habsent⟩ := mayStop_iff.1 hmay
  simp [shortCircuitMove, hf, hmay, Flight.settle, hpart, rest_of_absent habsent]

/-- Settles O54: the 0 read leaves the second part to perform, and decides the response. -/
theorem shortCircuitAnswersAbsent : Obligations.ShortCircuitAnswersAbsent := by
  unfold Obligations.ShortCircuitAnswersAbsent
  intro s p f rest hn hf hmay
  obtain ⟨-, hresult, habsent⟩ := mayStop_iff.1 hmay
  refine ⟨?_, fun more => data_of_absent hresult (allPresent_append_of_absent habsent more)⟩
  rw [step_with_sched hn]
  exact congrArg _ (shortCircuitMove_of_mayStop (s := { s with sched := rest }) hf hmay)

end Sys2Proof.Machine
end

section
/-! PROOFS. A command in flight in UNSYNC is alone but for NOPs, so that no other port's move touches the storage until it is performed (R82, R352): the induction over its own events. -/

namespace Sys2Proof.Machine

/-- In UNSYNC, beside a command in flight that is no NOP, a move without a fault keeps the storage, unless it is an event
of that command. -/
theorem runMove_same_beside {m : Move} {s t : State} {p : Nat} {f : Flight} (hinv : Inv s)
    (hn : s.faults.stuck = none) (hf : s.flight p = some f) (hnop : isNop f.req = false)
    (hplain : s.cfg.valid = true ∧ s.cfg.var = .unsync) (hm : ∀ u, m ≠ .reset u) (hevent : ∀ n, m ≠ .event p n)
    (h : runMove m s = .next t) (ht : t.faults.stuck = none) : SameStorage s t := by
  cases m with
  | command q r =>
    rcases commandMove_next_cases hinv.storage h with rfl | ⟨r', prog, hover, rfl⟩ |
      ⟨r', l, st, d, hop, halone, hfits, rfl⟩
    · exact .with_grant s q
    · exact absurd ((accepted_stuck (s := { s with grant := q }) hn q prog).symm.trans ht) hover
    · cases l with
      | nil => exact ⟨rfl, rfl, rfl, rfl, rfl, rfl, rfl⟩
      | cons x l =>
        have hx : x.Fits s (opByte r') := hop ▸ hfits x (by simp)
        exact absurd hplain (overlapFaults_none halone hf hx.owned.not_nop hnop).2.2
  | event q n =>
    rcases eventMove_cases q n s with hidle | ⟨_, _, _, _, -, -, -, hstop⟩ | ⟨g, x, rest, s1, v, hg, hpick, -, -⟩
    · cases hidle.symm.trans h
      exact .refl s
    · cases hstop.symm.trans h
    · have hq : p ≠ q := fun hq => hevent n (by rw [hq])
      have hg_nop := (((hinv.inFlight hn).flights q g hg).todo x (pickTask_mem hpick).1).not_nop
      exact absurd hplain ((hinv.inFlight hn).no_overlap p q f g hq hf hg hnop hg_nop).2.2
  | accept q r => cases h; exact acceptMove_same q r s
  | shortCircuit q => cases h; exact shortCircuitMove_same q s
  | respond q => cases h; exact respondMove_same q s
  | reset u => exact absurd rfl (hm u)

/-- In UNSYNC a move without a fault beside a command in flight, other than its response, keeps the storage and the
command, or is a move of the command's own. -/
theorem runMove_kept_or_moved {m : Move} {s t : State} {p : Nat} {f : Flight} (hinv : Inv s)
    (hn : s.faults.stuck = none) (hf : s.flight p = some f) (hnop : isNop f.req = false)
    (hplain : s.cfg.valid = true ∧ s.cfg.var = .unsync) (hm : ∀ u, m ≠ .reset u) (hrespond : m ≠ .respond p)
    (h : runMove m s = .next t) (ht : t.faults.stuck = none) :
    (SameStorage s t ∧ t.flight p = some f) ∨ ∃ f', t.flight p = some f' ∧ FlightMoved s f t f' := by
  by_cases hevent : ∃ n, m = .event p n
  · obtain ⟨n, rfl⟩ := hevent
    rcases eventMove_cases p n s with hidle | ⟨_, _, _, _, -, -, -, hstop⟩ |
      ⟨g, x, rest, s1, v, hg, hpick, hperform, hnext⟩
    · cases hidle.symm.trans h
      exact .inl ⟨.refl s, hf⟩
    · cases hstop.symm.trans h
    · cases hnext.symm.trans h
      obtain rfl := Option.some.inj (hf.symm.trans hg)
      obtain ⟨-, hports, -⟩ := perform_kept hperform
      exact .inr ⟨_, flight_setPort_busy s1 _ (hports ▸ flight_lt hf), .event hpick hperform (.setPort ..)⟩
  · have hsame := runMove_same_beside hinv hn hf hnop hplain hm (not_exists.1 hevent) h ht
    exact ((runMove_portEffect hm h).2.flight_kept_or_moved hf hrespond).imp_left fun hf' => ⟨hsame, hf'⟩

/-- What holds of the storage and a command in flight in UNSYNC, and is kept with the storage and by the command's own
moves, holds after every run in which the command is neither answered nor reset. -/
theorem run_plain_induction {P : State → Flight → Prop} {p : Nat} {r : Request} (hnop : isNop r = false)
    (hclears : clearsBits r = false)
    (hsame : ∀ {s t : State} {f : Flight}, SameStorage s t → P s f → P t f)
    (hown : ∀ {s t : State} {f f' : Flight}, FlightLegal s f → f.req = r → s.cfg.var = .unsync →
      FlightMoved s f t f' → P s f → P t f')
    {n : Nat} {s t : State} {f g : Flight} (hinv : Inv s) (hplain : s.cfg.valid = true ∧ s.cfg.var = .unsync)
    (hf : s.flight p = some f) (hreq : f.req = r) (hP : P s f)
    (hmoves : ∀ m ∈ s.sched.take n, m ≠ .respond p ∧ ∀ u, m ≠ .reset u)
    (h : Host.Core.run Sys2Proof.core n s = .next t) (ht : t.faults.stuck = none) (hg : t.flight p = some g) :
    P t g := by
  induction n generalizing s f with
  | zero =>
    cases h
    obtain rfl := Option.some.inj (hf.symm.trans hg)
    exact hP
  | succ n ih =>
    obtain ⟨s', hstep, hrun⟩ := run_succ_cases h
    have hinv' := stepKeepsTheInvariant s s' hinv hstep
    obtain ⟨hn, ⟨hnil, rfl⟩ | ⟨m, rest, hsched, hmove⟩⟩ := step_next_cases hstep
    · exact ih hinv hplain hf hreq hP (by simp [hnil]) hrun
    · rw [hsched, List.take_succ_cons, List.forall_mem_cons] at hmoves
      obtain ⟨⟨hrespond, hreset⟩, hmoves⟩ := hmoves
      have hinvr : Inv { s with sched := rest } := hinv.with_sched rest
      have hPr : P { s with sched := rest } f := hsame (.with_sched s rest) hP
      have hs' := run_unfaulted hrun ht
      have hmoves' : ∀ m ∈ s'.sched.take n, m ≠ .respond p ∧ ∀ u, m ≠ .reset u := by
        rwa [(runMove_portEffect hreset hmove).1]
      have hcfg : s'.cfg = s.cfg :=
        (runMove_filterKept hinvr hn hf (hreq ▸ hnop) (hreq ▸ hclears) hreset hmove hs').cfg
      rcases runMove_kept_or_moved hinvr hn hf (hreq ▸ hnop) hplain hreset hrespond hmove hs' with
        ⟨hkept, hf'⟩ | ⟨f', hf', hmoved⟩
      · exact ih hinv' (hcfg ▸ hplain) hf' hreq (hsame hkept hPr) hmoves' hrun
      · exact ih hinv' (hcfg ▸ hplain) hf' (hmoved.req.trans hreq)
          (hown ((hinvr.inFlight hn).flights p f hf) hreq hplain.2 hmoved hPr) hmoves' hrun

/-- The same of a command performed by its own moves, from its acceptance on. -/
theorem Performed.plain_induction {P : State → Flight → Prop} {s t : State} {p n : Nat} {r : Request} {f : Flight}
    (hinv : Inv s) (hplain : s.cfg.valid = true ∧ s.cfg.var = .unsync) (h : Performed s p r n t f)
    (hnop : isNop r = false) (hclears : clearsBits r = false)
    (hsame : ∀ {s t : State} {f : Flight}, SameStorage s t → P s f → P t f)
    (hown : ∀ {s t : State} {f f' : Flight}, FlightLegal s f → f.req = r → s.cfg.var = .unsync →
      FlightMoved s f t f' → P s f → P t f')
    (hstart : P s (startFlight r (requestProgram r s))) : P t f := by
  obtain ⟨hidle, ⟨rest, hsched, hmoves⟩, hrun, hn, hflight, -⟩ := h
  obtain ⟨u, hstep, hrun⟩ := run_succ_cases hrun
  have hinvu := stepKeepsTheInvariant s u hinv hstep
  rw [step_of_sched (step_next_cases hstep).1 hsched] at hstep
  have hu : u = ({ s with sched := rest } : State).accepted p r (requestProgram r s) := by
    cases hstep
    exact if_pos hidle
  subst hu
  have hstart' : P (({ s with sched := rest } : State).accepted p r (requestProgram r s)) _ :=
    hsame (.accepted ..) (hsame (.with_sched s rest) hstart)
  exact run_plain_induction (P := P) hnop hclears hsame hown hinvu hplain
    ((flight_congr rfl p).trans (flight_setPort_busy s _ (canAccept_lt hidle))) (startFlight_req r _) hstart'
    hmoves hrun hn hflight

end Sys2Proof.Machine
end

section
/-! PROOFS. A UNSYNC ADD performed by its own moves is one add, in whatever order its loads, stores and increment come (O60, R183): what the array and the counters hold, with what the command has still to perform, stays the same. -/

namespace Sys2Proof.Machine

/-- The bits of word `g` that a plain read-modify-write, or the store half of one, has still to set (R183). -/
def Task.due (g : Nat) : Task → Word
  | .rmwLoad k m => if k = g then m else 0
  | .rmwStore k v => if k = g then v else 0
  | _ => 0

/-- Bit `j` of word `g` is 1, or one of the tasks `todo` has still to set it. -/
def DueBit (s : State) (todo : List Task) (g j : Nat) : Prop :=
  (s.word g).getLsbD j = true ∨ ∃ x ∈ todo, (x.due g).getLsbD j = true

/-- Counter `i` with the increments that are among the tasks `todo`. -/
def dueCount (s : State) (todo : List Task) (i : Nat) : BitVec 64 :=
  s.counter i + BitVec.ofNat 64 (todo.count (.inc i))

/-- One event of a UNSYNC ADD is a load, a store half, or the increment (R183). -/
theorem plainAdd_event_cases {s s1 : State} {r : Request} {x : Task} {v : Word} (ho : TaskOwned s r x)
    (hop : opByte r = 0x01) (hu : s.cfg.var = .unsync) (hp : perform s x.event = .ok (s1, v)) :
    (∃ g m, x = .rmwLoad g m ∧ s1 = s ∧ v = s.word g) ∨ (∃ g w, x = .rmwStore g w ∧ s1 = s.putWord g w) ∨
      ∃ i, x = .inc i ∧ s1 = s.putCounter i (s.counter i + 1) := by
  obtain ⟨hlegal, howner, -, hatomic⟩ := ho
  rw [hop] at howner
  cases x with
  | rmwLoad g m => exact .inl ⟨g, m, rfl, perform_atomicLoad hp⟩
  | rmwStore g w =>
    refine .inr (.inl ⟨g, w, rfl, ?_⟩)
    simp only [Task.event, perform, EventLegal] at hlegal hp
    rw [if_pos hlegal] at hp
    cases hp
    rfl
  | inc i =>
    refine .inr (.inr ⟨i, rfl, ?_⟩)
    simp only [Task.event, perform, EventLegal] at hlegal hp
    rw [if_pos hlegal] at hp
    cases hp
    rfl
  | setBit => exact absurd hu (hatomic rfl)
  | probe | countOnes | addCount | readWord | storeWord | storeCount | writeCfg => simp [Task.owners] at howner

theorem dueBit_cons (s : State) (x : Task) (l : List Task) (g j : Nat) :
    DueBit s (x :: l) g j ↔ (x.due g).getLsbD j = true ∨ DueBit s l g j := by
  simp only [DueBit, List.exists_mem_cons_iff]
  tauto

theorem dueBit_of_perm {l l' : List Task} (h : l.Perm l') (s : State) (g j : Nat) :
    DueBit s l g j ↔ DueBit s l' g j := by
  simp only [DueBit, h.mem_iff]

theorem dueCount_cons_of_ne {x : Task} {i : Nat} (h : x ≠ .inc i) (s : State) (l : List Task) :
    dueCount s (x :: l) i = dueCount s l i := by
  rw [dueCount, dueCount, List.count_cons_of_ne h]

theorem dueCount_of_perm {l l' : List Task} (h : l.Perm l') (s : State) (i : Nat) :
    dueCount s l i = dueCount s l' i := by
  rw [dueCount, dueCount, h.count_eq]

/-! ## The add part -/

/-- The add part has every probe bit to set and no other. -/
theorem dueBit_addTasks {s : State} (hu : s.cfg.var = .unsync) (h : Word) (g j : Nat) :
    DueBit s (addTasks s h) g j ↔ (s.word g).getLsbD j = true ∨ IsProbeBit s h g j := by
  rw [addTasks_unsync hu]
  refine or_congr_right ⟨?_, ?_⟩
  · rintro ⟨x, hx, hj⟩
    rcases List.mem_append.1 hx with hload | hinc
    · obtain ⟨i, hi, rfl⟩ := mem_forEachProbe.1 hload
      simp only [Task.due] at hj
      split at hj
      · exact ⟨i, hi, ‹_›, hj⟩
      · simp at hj
    · rw [List.mem_singleton.1 hinc] at hj
      simp [Task.due] at hj
  · rintro ⟨i, hi, rfl, hj⟩
    exact ⟨_, List.mem_append_left _ (mem_forEachProbe.2 ⟨i, hi, rfl⟩), by simpa [Task.due] using hj⟩

/-- The add part has one increment to perform, of the shard of the hash. -/
theorem dueCount_addTasks {s : State} (hu : s.cfg.var = .unsync) (h : Word) (i : Nat) :
    dueCount s (addTasks s h) i = if i = hashShard s h then s.counter i + 1 else s.counter i := by
  have hloads : (forEachProbe s h .rmwLoad).count (.inc i) = 0 := by
    rw [List.count_eq_zero]
    intro hinc
    obtain ⟨_, -, he⟩ := mem_forEachProbe.1 hinc
    cases he
  rw [dueCount, addTasks_unsync hu, List.count_append, hloads, Nat.zero_add]
  by_cases hi : i = hashShard s h
  · rw [if_pos hi, hi, List.count_singleton_self]
    rfl
  · rw [if_neg hi, List.count_eq_zero_of_not_mem (by simpa using hi)]
    exact BitVec.add_zero _

/-! ## One event -/

/-- After its load half a read-modify-write has the same bits to set: those its word holds are 1. -/
theorem dueBit_load (s : State) (k : Nat) (m : Word) (l : List Task) (g j : Nat) :
    DueBit s (.rmwStore k (s.word k ||| m) :: l) g j ↔ DueBit s (.rmwLoad k m :: l) g j := by
  rw [dueBit_cons, dueBit_cons]
  by_cases hk : k = g
  · subst hk
    simp only [Task.due, if_pos, DueBit, BitVec.getLsbD_or, Bool.or_eq_true]
    tauto
  · simp only [Task.due, if_neg hk]

/-- A store half that keeps the bits of its word leaves every bit due. -/
theorem dueBit_store {s : State} {k : Nat} {w : Word} (hkeeps : s.word k &&& w = s.word k) (l : List Task) (g j : Nat) :
    DueBit (s.putWord k w) l g j ↔ DueBit s (.rmwStore k w :: l) g j := by
  rw [dueBit_cons]
  by_cases hk : k = g
  · subst hk
    have hbit : (s.word k).getLsbD j = true → w.getLsbD j = true := getLsbD_of_and_eq hkeeps
    simp only [Task.due, if_pos, DueBit, State.word_putWord_self]
    tauto
  · simp [Task.due, DueBit, State.word_putWord, hk, Ne.symm hk]

/-- The increment sets no bit. -/
theorem dueBit_inc (s : State) (k : Nat) (c : BitVec 64) (l : List Task) (g j : Nat) :
    DueBit (s.putCounter k c) l g j ↔ DueBit s (.inc k :: l) g j := by
  simp only [dueBit_cons, Task.due, BitVec.ofNat_eq_ofNat, BitVec.getLsbD_zero, Bool.false_eq_true, false_or]
  exact Iff.rfl

/-- The increment performed counts as it did when it was due. -/
theorem dueCount_inc (s : State) (k : Nat) (l : List Task) (i : Nat) :
    dueCount (s.putCounter k (s.counter k + 1)) l i = dueCount s (.inc k :: l) i := by
  by_cases hk : i = k
  · subst hk
    rw [dueCount, dueCount, State.counter_putCounter, if_pos rfl, List.count_cons_self, BitVec.ofNat_add,
      BitVec.add_assoc, BitVec.add_comm 1]
    rfl
  · rw [dueCount_cons_of_ne (by simpa using Ne.symm hk), dueCount, dueCount, State.counter_putCounter, if_neg hk]

/-- An event of a UNSYNC ADD leaves every bit and every count due as they were. -/
theorem due_event {s s1 : State} {f : Flight} {n : Nat} {x : Task} {v : Word} {rest : List Task}
    (hlegal : FlightLegal s f) (hop : opByte f.req = 0x01) (hu : s.cfg.var = .unsync)
    (hpick : pickTask f.todo n = some (x, rest)) (hp : perform s x.event = .ok (s1, v)) :
    (∀ g j, DueBit s1 ((x.followUp v).toList ++ rest) g j ↔ DueBit s f.todo g j) ∧
      ∀ i, dueCount s1 ((x.followUp v).toList ++ rest) i = dueCount s f.todo i := by
  have hmem := (pickTask_mem hpick).1
  simp only [dueBit_of_perm (pickTask_perm hpick), dueCount_of_perm (pickTask_perm hpick)]
  rcases plainAdd_event_cases (hlegal.todo x hmem) hop hu hp with ⟨k, m, rfl, rfl, rfl⟩ | ⟨k, w, rfl, rfl⟩ |
    ⟨k, rfl, rfl⟩
  · refine ⟨dueBit_load _ k m rest, fun i => ?_⟩
    rw [dueCount_cons_of_ne (by simp)]
    exact dueCount_cons_of_ne (by simp) ..
  · exact ⟨dueBit_store (hlegal.store_keeps k w hmem) rest, fun i => (dueCount_cons_of_ne (by simp) ..).symm⟩
  · exact ⟨dueBit_inc s k _ rest, dueCount_inc s k rest⟩

/-! ## The command in flight -/

/-- The UNSYNC ADD of `h` in flight, accepted in `s0`: what is in the storage of `s` or due is one add after `s0`, and
the response is due to be OK, 0. -/
structure AddsUp (s0 : State) (h : Word) (s : State) (f : Flight) : Prop where
  status : f.prog.status = .ok
  second : f.prog.second = []
  result : f.prog.result = .value 0
  bits : ∀ g j, DueBit s f.todo g j ↔ (s0.word g).getLsbD j = true ∨ IsProbeBit s0 h g j
  counters : ∀ i, dueCount s f.todo i = if i = hashShard s0 h then s0.counter i + 1 else s0.counter i

namespace AddsUp

variable {s0 s t : State} {h : Word} {f f' : Flight}

/-- A flight without a second part has the same to do when it settles. -/
theorem settle (hadds : AddsUp s0 h s f) : AddsUp s0 h s f.settle := by
  obtain ⟨hstatus, hsecond, hresult, hbits, hcounters⟩ := hadds
  have htodo : f.settle.todo = f.todo := by
    rcases settle_todo f with he | ⟨hnil, he⟩
    · exact he
    · rw [he, hnil, List.eq_nil_iff_forall_not_mem]
      intro x hx
      have := mem_rest hx
      rw [hsecond] at this
      cases this
  exact ⟨by rwa [settle_prog], by rwa [settle_prog], by rwa [settle_prog], by rwa [htodo], by rwa [htodo]⟩

/-- Only the storage counts. -/
theorem same (hsame : SameStorage s t) (hadds : AddsUp s0 h s f) : AddsUp s0 h t f := by
  obtain ⟨hstatus, hsecond, hresult, hbits, hcounters⟩ := hadds
  refine ⟨hstatus, hsecond, hresult, fun g j => ?_, fun i => ?_⟩
  · rw [← hbits, DueBit, DueBit, hsame.word]
  · rw [← hcounters, dueCount, dueCount, State.counter, State.counter, hsame.count]

/-- The command's own events keep the sum, and no part of an ADD stops short. -/
theorem moved (hlegal : FlightLegal s f) (hop : opByte f.req = 0x01) (hu : s.cfg.var = .unsync)
    (hmoved : FlightMoved s f t f') (hadds : AddsUp s0 h s f) : AddsUp s0 h t f' := by
  obtain ⟨hstatus, hsecond, hresult, hbits, hcounters⟩ := hadds
  cases hmoved with
  | event pick performed hsame =>
    obtain ⟨hdue, hcount⟩ := due_event hlegal hop hu pick performed
    exact AddsUp.same hsame (AddsUp.settle ⟨hstatus, hsecond, hresult, fun g j => (hdue g j).trans (hbits g j),
      fun i => (hcount i).trans (hcounters i)⟩)
  | stopped may =>
    have hpresent := (mayStop_iff.1 may).2.1
    rw [hresult] at hpresent
    cases hpresent

/-- An ADD just accepted has its whole add part due. -/
theorem start {r : Request} (hv : s.cfg.valid = true) (hu : s.cfg.var = .unsync) (hr : decode r = .ok (.add h)) :
    AddsUp s h s (startFlight r (requestProgram r s)) := by
  rw [requestProgram_of_decode hr, program_add hv]
  exact AddsUp.settle ⟨rfl, rfl, rfl, dueBit_addTasks hu h, dueCount_addTasks hu h⟩

/-- An ADD that has performed every event is one add. -/
theorem of_complete (hf : f.complete = true) (hadds : AddsUp s0 h s f) :
    (∀ g j, (s.word g).getLsbD j = true ↔ (s0.word g).getLsbD j = true ∨ IsProbeBit s0 h g j) ∧
      ∀ i, s.counter i = if i = hashShard s0 h then s0.counter i + 1 else s0.counter i := by
  simp only [Flight.complete, Bool.and_eq_true, List.isEmpty_iff] at hf
  obtain ⟨-, -, -, hbits, hcounters⟩ := hadds
  simpa [hf.2, DueBit, dueCount] using And.intro hbits hcounters

end AddsUp

/-- Settles O60: the storage with what is due adds up to one add at every moment, and at the end nothing is due. -/
theorem plainAddInAnyOrderIsOneAdd : Obligations.PlainAddInAnyOrderIsOneAdd := by
  unfold Obligations.PlainAddInAnyOrderIsOneAdd
  intro h s t n p r f hinv hv hu hr hp
  have hop : opByte r = 0x01 := decode_opByte hr
  have hadds : AddsUp s h t f := hp.plain_induction hinv ⟨hv, hu⟩ (isNop_eq_false (by rw [hop]; decide))
    (by rw [clearsBits, hop]; rfl) AddsUp.same (fun hlegal hreq => AddsUp.moved hlegal (hreq ▸ hop))
    (AddsUp.start hv hu hr)
  obtain ⟨hbits, hcounters⟩ := hadds.of_complete hp.complete
  obtain ⟨-, hkept, -⟩ := hp.probesSet hinv hv (.inl hr)
  refine ⟨hbits, hcounters, hkept.cfg, hkept.pw, hkept.po, hadds.status, ?_⟩
  rw [Program.data, hadds.status, hadds.result]
  rfl

end Sys2Proof.Machine
end

section
/-! PROOFS. The whole-array and counter commands served whole (42_bulk_ops.md): CLEAR (O34) and the empty filter it leaves (O35), POPCNT (O36), RDCOUNT (O37) and WRCOUNT (O38). -/

namespace Sys2Proof.Machine

/-! ## Programs -/

theorem unlessThen_of_true {b : Bool} (h : b = true) (st : Status) (p : Program) : unlessThen b st p = p := if_pos h

theorem program_clear {s : State} (hv : s.cfg.valid = true) :
    program .clear s = .perform (zeroTasks s.cfg.usedWords s.cfg.shards) (.value 0) := gate_of_valid hv _

theorem program_popcnt {s : State} (hv : s.cfg.valid = true) {all : Bool} {shard : BitVec 16}
    (hshard : (all || s.cfg.hasShard shard) = true) :
    program (.popcnt all shard) s = .perform ((popcntWords s.cfg all shard).map .countOnes) .ones :=
  (gate_of_valid hv _).trans (unlessThen_of_true hshard _ _)

theorem program_rdcount {s : State} (hv : s.cfg.valid = true) {all : Bool} {shard : BitVec 16}
    (hshard : (all || s.cfg.hasShard shard) = true) :
    program (.rdcount all shard) s = .perform ((rdcountShards s.cfg all shard).map .addCount) .countSum :=
  (gate_of_valid hv _).trans (unlessThen_of_true hshard _ _)

theorem program_wrcount {s : State} (hv : s.cfg.valid = true) {shard : BitVec 16}
    (hshard : s.cfg.hasShard shard = true) (cval : Word) :
    program (.wrcount shard cval) s = .perform [.storeCount shard.toNat cval] (.value 0) :=
  (gate_of_valid hv _).trans (unlessThen_of_true hshard _ _)

/-- SHARD names a shard exactly if it is below `N` (R343). -/
theorem hasShard_iff {c : Cfg} {shard : BitVec 16} : c.hasShard shard = true ↔ shard.toNat < c.shards :=
  decide_eq_true_iff

/-! ## What the commands leave unchanged -/

/-- Tasks that write no configuration, performed at once, and a response after them change the array, the counters and
the responses only. -/
theorem tasksEffect_registersKept {l : List Task} (hl : ∀ x ∈ l, ∀ var k b n, x ≠ .writeCfg var k b n) (s : State)
    (p : Nat) (st : Status) (d : Word) : RegistersKept s ((tasksEffect s l).deliver p st d) := by
  obtain ⟨hcfg, hpw, hpo⟩ := tasksEffect_cfg hl s
  exact ⟨tasksEffect_params .., hcfg, hpw, hpo, tasksEffect_ports .., tasksEffect_faults .., tasksEffect_sched ..,
    tasksEffect_grant ..⟩

theorem zeroTasks_ne_writeCfg (words shards : Nat) :
    ∀ x ∈ zeroTasks words shards, ∀ var k b n, x ≠ .writeCfg var k b n := by
  rintro x hx var k b n rfl
  simp [zeroTasks] at hx

/-- A command of one reading task for each index of a list only responds. -/
theorem exec_perform_reads {i : Instr} {s : State} {l : List Nat} {task : Nat → Task} {res : Result}
    (hready : Ready i s) (hs : StorageInv s) (hp : program i s = .perform (l.map task) res)
    (hreads : ∀ n, (task n).reads = true) :
    exec i s = .next (s.deliver s.grant .ok (res.data (tasksRecords s (l.map task) []))) := by
  rw [exec_perform hready hs hp, tasksEffect_of_reads (map_reads hreads)]

/-! ## CLEAR -/

/-- CLEAR performs its zero-stores and responds OK, 0. -/
theorem exec_clear {s : State} (hc : Configured .clear s) :
    exec .clear s = .next ((tasksEffect s (zeroTasks s.cfg.usedWords s.cfg.shards)).deliver s.grant .ok 0) :=
  exec_perform hc.ready hc.inv (program_clear hc.valid)

/-- Settles O34: the effect of the zero-stores. -/
theorem clearZeroesWhatIsInUse : Obligations.ClearZeroesWhatIsInUse := by
  unfold Obligations.ClearZeroesWhatIsInUse
  intro s hc
  obtain ⟨hwords, hcounters⟩ := tasksEffect_zero s s.cfg.usedWords s.cfg.shards
  refine ⟨_, exec_clear hc, hwords, hcounters, tasksEffect_registersKept (zeroTasks_ne_writeCfg _ _) .., ?_⟩
  rw [State.deliver_delivered, tasksEffect_delivered]

/-! ## POPCNT -/

/-- What reading tasks have found adds up to what each of them finds. -/
theorem sum_tasksRecords_map {task : Nat → Task} (hreads : ∀ n, (task n).reads = true) {s : State}
    {value : Done → Nat} {found : Nat → Nat} (hfound : ∀ n, (((task n).records s).map value).sum = found n)
    (l : List Nat) : ((tasksRecords s (l.map task) []).map value).sum = (l.map found).sum := by
  rw [tasksRecords_of_reads (map_reads hreads), List.append_nil, List.map_reverse, List.sum_reverse]
  induction l with
  | nil => rfl
  | cons n l ih => rw [List.map_cons, List.flatMap_cons, List.map_append, List.sum_append, hfound, ih]; rfl

/-- POPCNT responds with the sum of the 1 bits of the words it reads. -/
theorem exec_popcnt {s : State} {all : Bool} {shard : BitVec 16} (hc : Configured (.popcnt all shard) s)
    (hshard : (all || s.cfg.hasShard shard) = true) :
    exec (.popcnt all shard) s = .next (s.deliver s.grant .ok
      (BitVec.ofNat 64 ((popcntWords s.cfg all shard).map fun g => popcount (s.word g)).sum)) := by
  rw [exec_perform_reads hc.ready hc.inv (program_popcnt hc.valid hshard) fun _ => rfl, Result.data,
    sum_tasksRecords_map (fun _ => rfl) fun _ => List.sum_singleton]
  rfl

theorem sum_range'_eq_sum_Ico (f : Nat → Nat) (lo n : Nat) :
    ((List.range' lo n).map f).sum = ∑ g ∈ Finset.Ico lo (lo + n), f g := by
  rw [List.range'_eq_map_range, List.map_map, Finset.sum_Ico_eq_sum_range, Nat.add_sub_cancel_left]
  rfl

/-- No more words are read than are in use. -/
theorem popcntWords_length_le (c : Cfg) (all : Bool) (shard : BitVec 16) :
    (popcntWords c all shard).length ≤ c.usedWords := by
  cases all with
  | true => exact List.length_range.le
  | false =>
    rw [popcntWords, if_neg nofun, List.length_range']
    exact Nat.mul_le_mul_right 8 (Nat.le_mul_of_pos_left _ (Nat.two_pow_pos _))

/-- The 1 bits of the words read are at most the bits in use. -/
theorem sum_popcount_le (s : State) (all : Bool) (shard : BitVec 16) :
    ((popcntWords s.cfg all shard).map fun g => popcount (s.word g)).sum ≤ 512 * s.cfg.totalBlocks := by
  have hword : ∀ n ∈ (popcntWords s.cfg all shard).map fun g => popcount (s.word g), n ≤ 64 := by
    intro n hn
    obtain ⟨g, -, rfl⟩ := List.mem_map.1 hn
    exact List.countP_le_length
  have hsum := List.sum_le_card_nsmul _ _ hword
  have hlength := popcntWords_length_le s.cfg all shard
  rw [List.length_map, smul_eq_mul] at hsum
  unfold Cfg.usedWords at hlength
  omega

/-- The words POPCNT reads are those of the stated range. -/
theorem sum_popcntWords (c : Cfg) (all : Bool) (shard : BitVec 16) (f : Nat → Nat) :
    ((popcntWords c all shard).map f).sum =
      ∑ g ∈ Finset.Ico (if all then 0 else shard.toNat * c.b.toNat * 8)
        (if all then c.usedWords else (shard.toNat + 1) * c.b.toNat * 8), f g := by
  cases all with
  | true => simp only [popcntWords, if_true, List.range_eq_range', sum_range'_eq_sum_Ico, Nat.zero_add]
  | false =>
    simp only [popcntWords, Bool.false_eq_true, if_false, sum_range'_eq_sum_Ico, Nat.add_one_mul, Nat.add_mul]

/-- Settles O36: the count is exact because no more than 2^59 bits exist. -/
theorem popcntCountsTheOnes : Obligations.PopcntCountsTheOnes := by
  unfold Obligations.PopcntCountsTheOnes
  intro all shard s hc hrange lo hi
  have hshard : (all || s.cfg.hasShard shard) = true := by
    rwa [Bool.or_eq_true, hasShard_iff]
  have hle := sum_popcount_le s all shard
  have hlt : s.cfg.totalBlocks < 2 ^ 50 := (totalBlocks_le hc.inv hc.valid).trans_lt hc.inv.params.capBlocks_lt
  refine ⟨_, exec_popcnt hc hshard, ?_⟩
  rw [BitVec.toNat_ofNat, Nat.mod_eq_of_lt (by omega)]
  refine ⟨?_, hle.trans_eq (Nat.mul_assoc _ _ _).symm⟩
  simp only [sum_popcntWords, popcount_eq_card]
  rfl

/-! ## RDCOUNT -/

/-- RDCOUNT responds with the sum of the counters it reads, mod 2^64. -/
theorem exec_rdcount {s : State} {all : Bool} {shard : BitVec 16} (hc : Configured (.rdcount all shard) s)
    (hshard : (all || s.cfg.hasShard shard) = true) :
    exec (.rdcount all shard) s = .next (s.deliver s.grant .ok
      (BitVec.ofNat 64 ((rdcountShards s.cfg all shard).map fun i => (s.counter i).toNat).sum)) := by
  rw [exec_perform_reads hc.ready hc.inv (program_rdcount hc.valid hshard) fun _ => rfl, Result.data,
    sum_tasksRecords_map (fun _ => rfl) fun _ => List.sum_singleton]
  rfl

/-- Settles O37: one counter is its own sum. -/
theorem rdcountReadsTheCounters : Obligations.RdcountReadsTheCounters := by
  unfold Obligations.RdcountReadsTheCounters
  refine ⟨fun shard s hc hlt => ?_, fun shard s hc => exec_rdcount hc rfl⟩
  rw [exec_rdcount hc (hasShard_iff.2 hlt)]
  simp [rdcountShards]

/-! ## WRCOUNT -/

/-- WRCOUNT stores to its counter and responds OK, 0. -/
theorem exec_wrcount {s : State} {shard : BitVec 16} {cval : Word} (hc : Configured (.wrcount shard cval) s)
    (hshard : s.cfg.hasShard shard = true) :
    exec (.wrcount shard cval) s = .next ((s.putCounter shard.toNat cval).deliver s.grant .ok 0) :=
  exec_perform hc.ready hc.inv (program_wrcount hc.valid hshard cval)

/-- Settles O38: the effect of one store to a counter. -/
theorem wrcountSetsOneCounter : Obligations.WrcountSetsOneCounter := by
  unfold Obligations.WrcountSetsOneCounter
  intro shard cval s hc hlt
  exact ⟨_, exec_wrcount hc (hasShard_iff.2 hlt), (State.counter_putCounter s _ · cval), rfl,
    ⟨rfl, rfl, rfl, rfl, rfl, rfl, rfl, rfl⟩, rfl⟩

/-! ## The cleared filter (R222) -/

/-- Where an exclusive command could be accepted, every command can be after it: the commands in flight are NOPs. -/
theorem Configured.after_exclusive {s t : State} {i : Instr} (hc : Configured i s) (hnop : isNop (encode i) = false)
    (hexcl : isExclusive (encode i) = true) (ht : StorageInv t) (hkept : RegistersKept s t) (i' : Instr) :
    Configured i' t := by
  obtain ⟨⟨hunfaulted, hidle, halone⟩, -, hv⟩ := hc
  obtain ⟨-, hcfg, -, -, hports, hfaults, -, hgrant⟩ := hkept
  have hnops : ∀ d ∈ s.inFlight, isNop d = true := by
    simpa [overlapFaults, hnop, hexcl] using (stuck_eq_none.1 halone).1
  have hflight : t.inFlight = s.inFlight := by rw [State.inFlight, hports, State.inFlight]
  refine ⟨⟨by rwa [hfaults], by rwa [State.canAccept, hports, hgrant], stuck_eq_none.2 ?_⟩, ht, by rwa [hcfg]⟩
  simp +contextual [overlapFaults, hflight, hnops]

/-- What a CLEAR leaves: no word or counter in use that is not 0, in a filter that is ready for every command. -/
theorem exec_clear_next {s t : State} (hc : Configured .clear s) (he : exec .clear s = .next t) :
    (∀ g < t.cfg.usedWords, t.word g = 0) ∧ (∀ i < t.cfg.shards, t.counter i = 0) ∧ ∀ i, Configured i t := by
  obtain ⟨u, he', hwords, hcounters, hkept, -⟩ := clearZeroesWhatIsInUse s hc
  cases he.symm.trans he'
  have ht : StorageInv t := by
    rw [exec_clear hc] at he
    cases he
    exact (SameStorage.deliver ..).storageInv (tasksEffect_storage hc.inv fun x hx =>
      (zeroTasks_owned (usedWords_le hc.inv hc.valid) (shards_le hc.inv hc.valid) (.inl rfl) hx).legal)
  have hop : isNop (encode .clear) = false := isNop_eq_false (by rw [opByte_encode]; decide)
  refine ⟨fun g hg => ?_, fun i hi => ?_, hc.after_exclusive hop rfl ht hkept⟩
  · exact (hwords g).trans (if_pos (by rwa [hkept.cfg] at hg))
  · exact (hcounters i).trans (if_pos (by rwa [hkept.cfg] at hi))

/-- No key is present where every word in use is 0. -/
theorem not_probesSet_of_words_zero {s : State} (hs : StorageInv s) (hv : s.cfg.valid = true)
    (hwords : ∀ g < s.cfg.usedWords, s.word g = 0) (h : Word) : ¬ ProbesSet s h := by
  intro hset
  have hk : 0 < s.cfg.k.toNat := (Nat.zero_lt_succ 2).trans_le (config_legal hs hv).k_ge
  exact hset 0 hk (by simp [hwords _ (probeWord_lt hs hv h hk)])

/-- Settles O35: every probe reads a 0, and every sum is of zeros. -/
theorem clearedFilterIsEmpty : Obligations.ClearedFilterIsEmpty := by
  unfold Obligations.ClearedFilterIsEmpty
  intro s t h hc he
  obtain ⟨hwords, hcounters, hready⟩ := exec_clear_next hc he
  obtain ⟨-, hs, hv⟩ := hready (.test h)
  refine ⟨?_, ?_, ?_⟩
  · exact (testReportsTheProbeBits h t (hready _)).2 (not_probesSet_of_words_zero hs hv hwords h)
  · have hones : ∀ g ∈ popcntWords t.cfg true 0, popcount (t.word g) = 0 := fun g hg => by
      rw [hwords g (List.mem_range.1 hg)]
      decide
    rw [exec_popcnt (hready _) rfl, List.sum_eq_zero (List.forall_mem_map.2 hones)]
    rfl
  · have hcount : ∀ i ∈ rdcountShards t.cfg true 0, (t.counter i).toNat = 0 := fun i hi => by
      rw [hcounters i (List.mem_range.1 hi)]
      rfl
    rw [exec_rdcount (hready _) rfl, List.sum_eq_zero (List.forall_mem_map.2 hcount)]
    rfl

end Sys2Proof.Machine
end

section
/-! PROOFS. The image port commands served whole (43_image_ops.md): RDWORD (O39) and WRWORD (O40). -/

namespace Sys2Proof.Machine

/-! ## Programs -/

/-- The check of both commands: SHARD and WIDX name a word of the configuration (R343). -/
theorem hasShard_and_hasWord_iff {c : Cfg} {shard : BitVec 16} {widx : Word} :
    (c.hasShard shard && c.hasWord widx) = true ↔ shard.toNat < c.shards ∧ widx.toNat < c.b.toNat * 8 := by
  rw [Bool.and_eq_true, hasShard_iff, Cfg.hasWord, decide_eq_true_iff]

theorem program_rdword {s : State} (hv : s.cfg.valid = true) {shard : BitVec 16} {widx : Word}
    (hword : (s.cfg.hasShard shard && s.cfg.hasWord widx) = true) :
    program (.rdword shard widx) s = .perform [.readWord (imageWord s.cfg shard widx)] .word :=
  (gate_of_valid hv _).trans (unlessThen_of_true hword _ _)

theorem program_wrword {s : State} (hv : s.cfg.valid = true) {shard : BitVec 16} {widx : Word}
    (hword : (s.cfg.hasShard shard && s.cfg.hasWord widx) = true) (wval : Word) :
    program (.wrword shard widx wval) s = .perform [.storeWord (imageWord s.cfg shard widx) wval] (.value 0) :=
  (gate_of_valid hv _).trans (unlessThen_of_true hword _ _)

/-! ## RDWORD -/

/-- RDWORD responds with the word it reads. -/
theorem exec_rdword {s : State} {shard : BitVec 16} {widx : Word} (hc : Configured (.rdword shard widx) s)
    (hword : (s.cfg.hasShard shard && s.cfg.hasWord widx) = true) :
    exec (.rdword shard widx) s = .next (s.deliver s.grant .ok (s.word (imageWord s.cfg shard widx))) :=
  exec_perform_reads (l := [imageWord s.cfg shard widx]) hc.ready hc.inv (program_rdword hc.valid hword) fun _ => rfl

/-- Settles O39: the word read is the one that SHARD and WIDX name. -/
theorem rdwordReadsOneWord : Obligations.RdwordReadsOneWord := by
  unfold Obligations.RdwordReadsOneWord
  intro shard widx s hc hshard hwidx
  exact exec_rdword hc (hasShard_and_hasWord_iff.2 ⟨hshard, hwidx⟩)

/-! ## WRWORD -/

/-- WRWORD stores to its word and responds OK, 0. -/
theorem exec_wrword {s : State} {shard : BitVec 16} {widx wval : Word} (hc : Configured (.wrword shard widx wval) s)
    (hword : (s.cfg.hasShard shard && s.cfg.hasWord widx) = true) :
    exec (.wrword shard widx wval) s =
      .next ((s.putWord (imageWord s.cfg shard widx) wval).deliver s.grant .ok 0) :=
  exec_perform hc.ready hc.inv (program_wrword hc.valid hword wval)

/-- Settles O40: the effect of one store to a word. -/
theorem wrwordWritesOneWord : Obligations.WrwordWritesOneWord := by
  unfold Obligations.WrwordWritesOneWord
  intro shard widx wval s hc hshard hwidx g
  refine ⟨_, exec_wrword hc (hasShard_and_hasWord_iff.2 ⟨hshard, hwidx⟩), State.word_putWord_self s g wval,
    fun x hx => ?_, fun a ha => ?_, rfl, ⟨rfl, rfl, rfl, rfl, rfl, rfl, rfl, rfl⟩, rfl⟩
  · exact (State.word_putWord s g x wval).trans (if_neg hx)
  · exact (State.byte_putWord s g wval a).trans (if_neg ha)

end Sys2Proof.Machine
end

section
/-! PROOFS. The configuration commands served whole (44_config_ops.md): NOP (O41), CONFIG (O42) and RDCFG (O44, O45). -/

namespace Sys2Proof.Machine

/-- A command that answers a value only responds. -/
theorem exec_answer {i : Instr} {s : State} {v : Word} (hready : Ready i s) (hp : program i s = .answer v) :
    exec i s = .next (s.deliver s.grant .ok v) :=
  exec_of_no_tasks hready hp rfl rfl

/-! ## NOP -/

/-- A NOP is part of no overlap (R351, R352), so every idle port is ready for it. -/
theorem ready_nop {s : State} (hn : s.faults.stuck = none) (hidle : s.canAccept s.grant = true) : Ready .nop s := by
  have hnop : isNop (encode .nop) = true := rfl
  exact ⟨hn, hidle, stuck_eq_none.2 (by simp [overlapFaults, hnop])⟩

/-- The OP byte of a word and the 24 bits above it. -/
theorem append_op_fields (c : BitVec 24) (op : BitVec 8) :
    (c ++ op).extractLsb 31 8 = c ∧ (c ++ op).extractLsb 7 0 = op := by
  constructor <;> apply BitVec.eq_of_toNat_eq <;> rw [toNat_extractLsb, toNat_append] <;> omega

/-- A word whose OP byte is 0 is read by format N. -/
theorem decode_of_op_zero {r : Request} (hop : r.cmd.extractLsb 7 0 = 0) : decode r = decodeNP r.cmd .nop := by
  rw [decode, hop]
  rfl

/-- Settles O41: NOP's program has no gate and no event, and its word has 24 reserved bits. -/
theorem nopOnlyResponds : Obligations.NopOnlyResponds := by
  unfold Obligations.NopOnlyResponds
  refine ⟨fun s hn hidle => exec_answer (ready_nop hn hidle) rfl, fun c a b hc => ?_, rfl⟩
  obtain ⟨hreserved, hop⟩ := append_op_fields c 0
  rw [decode_of_op_zero hop]
  exact decodeNP_error_iff.2 (hreserved.trans_ne hc)

/-! ## CONFIG -/

/-- The program of a CONFIG whose checks hold (R276). -/
theorem program_config {s : State} {varreq : BitVec 2} {log2nreq : BitVec 5} {breq : Word} {var : Variant}
    (hvar : variantOfCode varreq = some var) (hfits : configFits s.params var log2nreq (correctB breq) = true)
    (kreq : BitVec 4) :
    program (.config varreq kreq log2nreq breq) s =
      .perform (.writeCfg var (correctK kreq) (correctB breq) log2nreq ::
        zeroTasks (2 ^ log2nreq.toNat * (correctB breq).toNat * 8) (2 ^ log2nreq.toNat)) (.value 0) := by
  show configProgram varreq kreq log2nreq breq s = _
  rw [configProgram, hvar]
  exact unlessThen_of_true hfits _ _

/-- CONFIG's tasks are legal because its checks hold, whatever configuration the state has had before: the
configuration write, the zero-stores in what it brings into use, and the response OK, 0. -/
theorem exec_config {s : State} {varreq : BitVec 2} {kreq : BitVec 4} {log2nreq : BitVec 5} {breq : Word}
    {var : Variant} (hready : Ready (.config varreq kreq log2nreq breq) s) (hvar : variantOfCode varreq = some var)
    (hfits : configFits s.params var log2nreq (correctB breq) = true) :
    exec (.config varreq kreq log2nreq breq) s =
      .next ((tasksEffect (s.writeCfg var (correctK kreq) (correctB breq) log2nreq)
        (zeroTasks (2 ^ log2nreq.toNat * (correctB breq).toNat * 8) (2 ^ log2nreq.toNat))).deliver s.grant .ok 0) := by
  have hown : (program (.config varreq kreq log2nreq breq) s).Owned s 0x0A := configProgram_owned ..
  rw [exec_eq, serve_of_ready _ hready.unfaulted hready.idle hready.alone,
    runCommand_eq _ (fun x hx => (hown.first x hx).legal) fun x hx => (hown.second x hx).legal,
    program_config hvar hfits]
  rfl

/-- CONFIG's conditions as the statements give them are its checks (R344). -/
theorem configFits_of_accepted {p : Params} {varreq : BitVec 2} {log2nreq : BitVec 5} {b : Word} {var : Variant}
    (hvar : variantOfCode varreq = some var) (hacc : ConfigAccepted p varreq log2nreq b) :
    configFits p var log2nreq b = true := by
  rwa [configFits_iff, (variantOfCode_code hvar).2]

theorem RegistersKept.width {s t : State} (hkept : RegistersKept s t) (i : Nat) : t.width i = s.width i := by
  rw [State.width, hkept.pw, State.width]

theorem RegistersKept.offset {s t : State} (hkept : RegistersKept s t) (i : Nat) : t.offset i = s.offset i := by
  rw [State.offset, hkept.po, State.offset]

/-- Settles O42: the zero-stores keep the registers that the configuration write has left. -/
theorem configConstructsTheFilter : Obligations.ConfigConstructsTheFilter := by
  unfold Obligations.ConfigConstructsTheFilter
  intro varreq kreq log2nreq breq s hready hparams hvarreq k b hacc
  obtain ⟨var, hvar⟩ := Option.ne_none_iff_exists'.1 (mt variantOfCode_eq_none.1 hvarreq)
  obtain ⟨hk3, hk14⟩ := correctK_range kreq
  have hloaded : PartitionLoaded (s.writeCfg var k b log2nreq) := writeCfg_partitionLoaded hparams hk3 hk14
  obtain ⟨hwords, hcounters⟩ :=
    tasksEffect_zero (s.writeCfg var k b log2nreq) (2 ^ log2nreq.toNat * b.toNat * 8) (2 ^ log2nreq.toNat)
  have hkept := tasksEffect_registersKept
    (zeroTasks_ne_writeCfg (2 ^ log2nreq.toNat * b.toNat * 8) (2 ^ log2nreq.toNat))
    (s.writeCfg var k b log2nreq) s.grant .ok 0
  refine ⟨_, exec_config hready hvar (configFits_of_accepted hvar hacc), congrArg Cfg.valid hkept.cfg,
    (congrArg (Variant.code ∘ Cfg.var) hkept.cfg).trans (variantOfCode_code hvar).1, congrArg Cfg.k hkept.cfg,
    congrArg Cfg.b hkept.cfg, congrArg Cfg.log2n hkept.cfg, fun i hi => ?_, hwords, hcounters, hkept.params,
    hkept.ports, hkept.faults, hkept.sched, hkept.grant, ?_⟩
  · exact (hloaded i hi).imp (hkept.width i).trans (hkept.offset i).trans
  · rw [State.deliver_delivered, tasksEffect_delivered, State.writeCfg_delivered]

/-! ## RDCFG of the parameters -/

/-- An NPORTS that DATA can hold is reported as it is (log entry 23). -/
theorem nportsData_toNat {nports : Nat} (h : nports < 2 ^ 64) : (nportsData nports).toNat = nports := by
  rw [nportsData, if_pos h, BitVec.toNat_ofNat, Nat.mod_eq_of_lt h]

/-- Settles O44: the four selectors are answered before the gate. -/
theorem rdcfgReportsTheParameters : Obligations.RdcfgReportsTheParameters := by
  unfold Obligations.RdcfgReportsTheParameters
  exact ⟨fun s hready => exec_answer hready rfl, fun s hready => exec_answer hready rfl,
    fun s hready => exec_answer hready rfl, fun s hready => ⟨_, exec_answer hready rfl, nportsData_toNat⟩⟩

/-! ## RDCFG of the configuration -/

theorem partitionProgram_of_lt {s : State} {i : Nat} (hi : i < s.cfg.k.toNat) (value : Nat) :
    partitionProgram s i value = .answer (BitVec.ofNat 64 value) :=
  unlessThen_of_true (decide_eq_true hi) _ _

theorem partitionProgram_of_le {s : State} {i : Nat} (hi : s.cfg.k.toNat ≤ i) (value : Nat) :
    partitionProgram s i value = .raise .range :=
  if_neg (by simpa using hi)

/-- RDCFG performs no event, whatever its selector: no micro-operation has it as its command (R388). -/
theorem rdcfgProgram_no_tasks (sel : BitVec 8) (s : State) :
    (rdcfgProgram sel s).first = [] ∧ (rdcfgProgram sel s).second = [] := by
  have hnone : ∀ x : Task, (0x0B : BitVec 8) ∉ x.owners := fun x => by cases x <;> simp [Task.owners]
  obtain ⟨hfirst, hsecond⟩ : (rdcfgProgram sel s).Owned s 0x0B := rdcfgProgram_owned sel
  exact ⟨List.eq_nil_iff_forall_not_mem.2 fun x hx => hnone x (hfirst x hx).owner,
    List.eq_nil_iff_forall_not_mem.2 fun x hx => hnone x (hsecond x hx).owner⟩

/-- RDCFG only responds, with what its program says. -/
theorem exec_rdcfg {sel : BitVec 8} {s : State} (hready : Ready (.rdcfg sel) s) :
    exec (.rdcfg sel) s =
      .next (s.deliver s.grant (rdcfgProgram sel s).status ((rdcfgProgram sel s).data [])) :=
  exec_of_no_tasks hready rfl (rdcfgProgram_no_tasks sel s).1 (rdcfgProgram_no_tasks sel s).2

/-- A number that fits 64 bits is answered exactly. -/
theorem answer_exact {p : Program} {n : Nat} (hp : p = .answer (BitVec.ofNat 64 n)) (hn : n < 2 ^ 64) :
    p.status = .ok ∧ (p.data []).toNat = n := by
  subst hp
  exact ⟨rfl, (BitVec.toNat_ofNat n 64).trans (Nat.mod_eq_of_lt hn)⟩

/-- A partition register holds less than 2^10. -/
theorem State.width_lt (s : State) (i : Nat) : s.width i < 2 ^ 10 := BitVec.isLt _

theorem State.offset_lt (s : State) (i : Nat) : s.offset i < 2 ^ 10 := BitVec.isLt _

theorem Variant.code_lt (v : Variant) : v.code < 3 := by cases v <;> decide

theorem Cfg.shards_lt (c : Cfg) : c.shards < 2 ^ 32 := Nat.pow_lt_pow_right Nat.one_lt_two c.log2n.isLt

/-- Settles O45: a configuration that is held has fewer than 2^50 blocks, so every quantity fits DATA. -/
theorem rdcfgReportsTheConfiguration : Obligations.RdcfgReportsTheConfiguration := by
  unfold Obligations.RdcfgReportsTheConfiguration
  intro sel s hc
  have hgate := gate_of_valid hc.valid
  have htotal : s.cfg.totalBlocks < 2 ^ 50 := (totalBlocks_le hc.inv hc.valid).trans_lt hc.inv.params.capBlocks_lt
  refine ⟨_, _, exec_rdcfg hc.ready, ?_, ?_, ?_, ?_, ?_, ?_, fun i hi => ?_, fun i hi => ?_, fun i hi hsel hk => ?_⟩
  · rintro rfl
    rw [show rdcfgProgram 0x00 s = .answer s.cfg.b from hgate _]
    exact ⟨rfl, rfl⟩
  · rintro rfl
    exact answer_exact (hgate _) (s.cfg.k.isLt.trans (by decide))
  · rintro rfl
    exact answer_exact (hgate _) (s.cfg.shards_lt.trans (by decide))
  · rintro rfl
    exact answer_exact (hgate _) (s.cfg.var.code_lt.trans (by decide))
  · rintro rfl
    exact answer_exact (n := s.cfg.capBits) (hgate _) (by unfold Cfg.capBits; omega)
  · rintro rfl
    exact answer_exact (n := s.cfg.totalBlocks) (hgate _) (by omega)
  · rintro rfl hk
    exact answer_exact (((rdcfgProgram_width s hi).trans (hgate _)).trans (partitionProgram_of_lt hk _))
      ((s.width_lt i).trans (by decide))
  · rintro rfl hk
    exact answer_exact (((rdcfgProgram_offset s hi).trans (hgate _)).trans (partitionProgram_of_lt hk _))
      ((s.offset_lt i).trans (by decide))
  · have hrange : rdcfgProgram sel s = .raise .range := by
      obtain rfl | rfl := hsel
      · rw [rdcfgProgram_width s hi, hgate, partitionProgram_of_le hk]
      · rw [rdcfgProgram_offset s hi, hgate, partitionProgram_of_le hk]
    rw [hrange]
    exact ⟨rfl, rfl⟩

end Sys2Proof.Machine
end

section
/-! PROOFS. The host's side (48_host_side.md): the shard count of a sharded construction (O58), and the image of a filter with its decoding (O56). -/

namespace Sys2Proof.Machine

/-! ## Construction (R304 to R306) -/

theorem ceilLog2_spec (n : Nat) : n ≤ 2 ^ ceilLog2 n ∧ ∀ m, n ≤ 2 ^ m → ceilLog2 n ≤ m := by
  obtain ⟨hreach, hleast⟩ := exponentFrom_spec n n 0 (by rw [Nat.zero_add]; exact Nat.lt_two_pow_self.le)
  exact ⟨hreach, fun m => hleast m (Nat.zero_le m)⟩

theorem requestedK_of_lt {k : Nat} (h : k < 16) : (requestedK k).toNat = k := by
  rw [requestedK, if_pos h, BitVec.toNat_ofNat, Nat.mod_eq_of_lt h]

theorem requestedK_toNat (k : BitVec 4) : requestedK k.toNat = k :=
  BitVec.eq_of_toNat_eq (requestedK_of_lt k.isLt)

theorem requestedK_of_le {k : Nat} (h : 16 ≤ k) : requestedK k = 0 := if_neg (by omega)

/-- Settles O58: 31 is one exponent that reaches a count up to 2^31, so the least one fits LOG2NREQ. -/
theorem shardedConstructionRoundsTheShardCount : Obligations.ShardedConstructionRoundsTheShardCount := by
  unfold Obligations.ShardedConstructionRoundsTheShardCount
  intro k explicit parallelism b wanted hle
  have hwanted : wanted = requestedShards explicit parallelism := by cases explicit <;> rfl
  rw [hwanted] at hle ⊢
  obtain ⟨hreach, hleast⟩ := ceilLog2_spec (requestedShards explicit parallelism)
  have hlt : shardLog2 explicit parallelism < 32 := Nat.lt_succ_of_le (hleast 31 hle)
  have hlog : (BitVec.ofNat 5 (shardLog2 explicit parallelism)).toNat =
      ceilLog2 (requestedShards explicit parallelism) := Nat.mod_eq_of_lt hlt
  refine ⟨requestedK k, BitVec.ofNat 5 (shardLog2 explicit parallelism), if_pos hlt, requestedK_of_lt,
    fun hk => .inl ?_, ?_⟩
  · rw [requestedK_of_le hk]; decide
  · rw [hlog]
    exact ⟨rfl, hreach, hleast⟩

/-! ## The bytes of an image (R310 to R312) -/

@[simp] theorem leBytes_length (n v : Nat) : (leBytes n v).length = n := by simp [leBytes]

theorem leBytes_succ (n v : Nat) : leBytes (n + 1) v = BitVec.ofNat 8 v :: leBytes n (v / 256) := by
  simp [leBytes, List.range_succ_eq_map, Nat.pow_succ', Nat.div_div_eq_div_mul]

/-- A number that fits `n` bytes is read back from them. -/
theorem leNat_leBytes (n : Nat) {v : Nat} (h : v < 256 ^ n) : leNat (leBytes n v) = v := by
  induction n generalizing v with
  | zero => exact (Nat.lt_one_iff.1 h).symm
  | succ n ih =>
    have hdiv : v / 256 < 256 ^ n := Nat.div_lt_of_lt_mul (by rwa [Nat.pow_succ'] at h)
    rw [leBytes_succ, leNat, ih hdiv, BitVec.toNat_ofNat]
    omega

@[simp] theorem imageHeader_length (k blockCount count : Nat) : (imageHeader k blockCount count).length = 21 := by
  simp [imageHeader]

theorem imageBytes_length (s : State) : (imageBytes s).length = 21 + s.cfg.b.toNat * 64 := by
  simp [imageBytes]

/-- The fields of an image's header, at their places (R310). -/
theorem imageBytes_fields (s : State) :
    (imageBytes s).head? = some 1 ∧ ((imageBytes s).drop 1).take 4 = leBytes 4 s.cfg.k.toNat ∧
      ((imageBytes s).drop 5).take 8 = leBytes 8 s.cfg.b.toNat ∧
      ((imageBytes s).drop 13).take 8 = leBytes 8 (s.counter 0).toNat := by
  simp [imageBytes, imageHeader, List.drop_append, List.take_append]

/-- Byte `a` of the image's blocks is byte `a` of the image view (R63, R312). -/
theorem imageBytes_getD (s : State) {a : Nat} (h : a < s.cfg.b.toNat * 64) :
    (imageBytes s).getD (21 + a) 0 = s.byte a := by
  simp [imageBytes, h]

/-- Word `g` of an image is word `g` of the filter (R312). -/
theorem wordAt_imageBytes (s : State) {g : Nat} (h : g < s.cfg.b.toNat * 8) :
    wordAt (imageBytes s) (21 + 8 * g) = s.word g := by
  have hbyte : ∀ j < 8, (imageBytes s).getD (21 + 8 * g + j) 0 = cellGet s.arr (g * 8 + j) := fun j hj => by
    rw [Nat.add_assoc, imageBytes_getD s (by omega), State.byte, Nat.mul_comm]
  have hfirst := hbyte 0 (by decide)
  simp only [Nat.add_zero] at hfirst
  rw [wordAt, State.word, loadWord, hfirst, hbyte 1, hbyte 2, hbyte 3, hbyte 4, hbyte 5, hbyte 6, hbyte 7] <;> decide

/-- The image of a filter as `decodeImage` gives it. -/
def savedImage (s : State) : Image :=
  { k := s.cfg.k.toNat
    blockCount := s.cfg.b.toNat
    count := (s.counter 0).toNat
    words := (List.range (s.cfg.b.toNat * 8)).map s.word }

/-- The image of a legal configuration passes every check of R313, and its fields are the filter's. -/
theorem decodeImage_imageBytes {s : State} (hs : StorageInv s) (hv : s.cfg.valid = true) :
    decodeImage (imageBytes s) = .ok (savedImage s) := by
  obtain ⟨hversion, hk, hb, hcount⟩ := imageBytes_fields s
  obtain ⟨hk3, hk14, hb1, hb50, -, -, -⟩ := config_legal hs hv
  have hkey : leNat (leBytes 4 s.cfg.k.toNat) = s.cfg.k.toNat := leNat_leBytes 4 (by omega)
  have hblocks : leNat (leBytes 8 s.cfg.b.toNat) = s.cfg.b.toNat := leNat_leBytes 8 (by omega)
  have hadds : leNat (leBytes 8 (s.counter 0).toNat) = (s.counter 0).toNat := leNat_leBytes 8 (s.counter 0).isLt
  have hwords : (List.range (s.cfg.b.toNat * 8)).map (fun g => wordAt (imageBytes s) (21 + 8 * g)) =
      (List.range (s.cfg.b.toNat * 8)).map s.word :=
    List.map_congr_left fun g hg => wordAt_imageBytes s (List.mem_range.1 hg)
  unfold decodeImage
  dsimp only
  rw [hk, hb, hcount, hkey, hblocks, hadds, hwords, imageBytes_length, if_neg (by omega), if_neg (not_not.2 hversion),
    if_neg (by omega), if_neg (by omega), if_neg (not_not.2 rfl)]
  rfl

theorem encodeImage_eq_some {s : State} {bytes : List Byte} :
    encodeImage s = some bytes ↔ s.cfg.valid = true ∧ s.cfg.var = .unsync ∧ imageBytes s = bytes := by
  simp [encodeImage, and_assoc]

/-- Settles O56: an UNSYNC filter's bytes decode to its own fields, and `encodeImage` asks for UNSYNC. -/
theorem decodeOfEncodedImage : Obligations.DecodeOfEncodedImage := by
  unfold Obligations.DecodeOfEncodedImage
  intro s hs hv
  refine ⟨fun hvar => ⟨imageBytes s, encodeImage_eq_some.2 ⟨hv, hvar, rfl⟩, decodeImage_imageBytes hs hv⟩,
    fun hvar => Option.eq_none_iff_forall_ne_some.2 fun bytes h => ?_⟩
  exact hvar (encodeImage_eq_some.1 h).2.1

end Sys2Proof.Machine
end

section
/-! PROOFS. The decoding of an image into the engine (R314): a saved filter is rebuilt (O57), and a refused image loads nothing (O59). -/

namespace Sys2Proof.Machine

/-! ## Commands into a quiescent engine -/

/-- Where nothing is in flight, a port is ready for every command. -/
theorem ready_of_quiescent {s : State} (hn : s.faults.stuck = none) (hquiet : Quiescent s)
    (hidle : s.canAccept s.grant = true) (i : Instr) : Ready i s := by
  have hflight : s.inFlight = [] := List.filterMap_eq_nil_iff.2 fun x hx => by rw [hquiet x hx]; rfl
  exact ⟨hn, hidle, stuck_eq_none.2 (by simp [overlapFaults, hflight])⟩

theorem Ready.kept {s t : State} {i : Instr} (hready : Ready i s) (hkept : RegistersKept s t) : Ready i t := by
  obtain ⟨hn, hidle, halone⟩ := hready
  refine ⟨by rwa [hkept.faults], by rwa [State.canAccept, hkept.ports, hkept.grant], ?_⟩
  rwa [overlapFaults_congr hkept.ports hkept.cfg rfl rfl]

/-- A command whose own tasks are legal is performed, whatever else the storage holds. -/
theorem exec_perform_of_legal {i : Instr} {s : State} {l : List Task} {res : Result} (hready : Ready i s)
    (hp : program i s = .perform l res) (hl : ∀ x ∈ l, EventLegal s.params x.event) :
    exec i s = .next ((tasksEffect s l).deliver s.grant .ok (res.data (tasksRecords s l []))) := by
  rw [exec_eq, serve_of_ready _ hready.unfaulted hready.idle hready.alone, hp,
    runCommand_eq _ hl fun _ h => absurd h List.not_mem_nil]
  rfl

theorem runCommands_append {l m : List Instr} {s t : State} (h : runCommands l s = .next t) :
    runCommands (l ++ m) s = runCommands m t := by
  induction l generalizing s with
  | nil => cases h; rfl
  | cons i l ih =>
    rw [List.cons_append, runCommands]
    rw [runCommands] at h
    rcases he : exec i s with s1 | e | e
    · rw [he] at h; exact ih h
    · rw [he] at h; cases h
    · rw [he] at h; cases h

theorem RegistersKept.trans {s t u : State} (hst : RegistersKept s t) (htu : RegistersKept t u) : RegistersKept s u :=
  ⟨htu.params.trans hst.params, htu.cfg.trans hst.cfg, htu.pw.trans hst.pw, htu.po.trans hst.po,
    htu.ports.trans hst.ports, htu.faults.trans hst.faults, htu.sched.trans hst.sched, htu.grant.trans hst.grant⟩

/-- What the commands that follow an image's CONFIG rest on (R314): the granted port is ready, and the words of the
configuration exist. It says nothing of what the storage holds, which the image replaces. -/
structure Loading (s : State) : Prop where
  ready : ∀ i, Ready i s
  valid : s.cfg.valid = true
  words : s.cfg.b.toNat * 8 ≤ s.params.words
  capacity : s.params.capBlocks < 2 ^ 50

theorem Loading.kept {s t : State} (h : Loading s) (hkept : RegistersKept s t) : Loading t :=
  ⟨fun i => (h.ready i).kept hkept, by rw [hkept.cfg]; exact h.valid, by rw [hkept.cfg, hkept.params]; exact h.words,
    by rw [hkept.params]; exact h.capacity⟩

theorem hasShard_zero (c : Cfg) : c.hasShard 0 = true := hasShard_iff.2 (Nat.two_pow_pos _)

/-- WRWORD stores word `i` of the image. -/
theorem Loading.exec_wrword {s : State} (h : Loading s) {i : Nat} (hi : i < s.cfg.b.toNat * 8) (w : Word) :
    exec (.wrword 0 (BitVec.ofNat 64 i) w) s = .next ((s.putWord i w).deliver s.grant .ok 0) := by
  have hexists := h.words
  have hcap := h.capacity
  unfold Params.words at hexists
  have hidx : (BitVec.ofNat 64 i).toNat = i := Nat.mod_eq_of_lt (by omega)
  have hword : imageWord s.cfg 0 (BitVec.ofNat 64 i) = i := by simp [imageWord, hidx]
  have hnamed : (s.cfg.hasShard 0 && s.cfg.hasWord (BitVec.ofNat 64 i)) = true :=
    hasShard_and_hasWord_iff.2 ⟨hasShard_iff.1 (hasShard_zero _), hidx.trans_lt hi⟩
  have hp := program_wrword h.valid hnamed w
  rw [hword] at hp
  refine exec_perform_of_legal (h.ready _) hp fun x hx => ?_
  obtain rfl := List.mem_singleton.1 hx
  exact hi.trans_le h.words

/-- WRCOUNT stores the image's count. -/
theorem Loading.exec_wrcount {s : State} (h : Loading s) (n : Word) :
    exec (.wrcount 0 n) s = .next ((s.putCounter 0 n).deliver s.grant .ok 0) := by
  refine exec_perform_of_legal (h.ready _) (program_wrcount h.valid (hasShard_zero _) n) fun x hx => ?_
  obtain rfl := List.mem_singleton.1 hx
  exact Nat.two_pow_pos _

/-- The WRWORDs of an image store its words from index `i` on, and change no word before it. -/
theorem Loading.run_loadCommands {s : State} (h : Loading s) {i : Nat} {ws : List Word}
    (hfit : i + ws.length ≤ s.cfg.b.toNat * 8) :
    ∃ t, runCommands (loadCommands i ws) s = .next t ∧ RegistersKept s t ∧ (∀ g < i, t.word g = s.word g) ∧
      ∀ j (hj : j < ws.length), t.word (i + j) = ws[j] := by
  induction ws generalizing s i with
  | nil => exact ⟨s, rfl, ⟨rfl, rfl, rfl, rfl, rfl, rfl, rfl, rfl⟩, fun _ _ => rfl, fun j hj => by cases hj⟩
  | cons w ws ih =>
    rw [List.length_cons] at hfit
    have hkept : RegistersKept s ((s.putWord i w).deliver s.grant .ok 0) := ⟨rfl, rfl, rfl, rfl, rfl, rfl, rfl, rfl⟩
    have hword : ∀ g, ((s.putWord i w).deliver s.grant .ok 0).word g = if g = i then w else s.word g :=
      (s.word_putWord i · w)
    obtain ⟨t, hrun, hkept', hbefore, hstored⟩ := ih (h.kept hkept) (i := i + 1) (by
      show i + 1 + ws.length ≤ s.cfg.b.toNat * 8
      omega)
    refine ⟨t, ?_, hkept.trans hkept', fun g hg => ?_, fun j hj => ?_⟩
    · rw [loadCommands, runCommands, h.exec_wrword (by omega)]
      exact hrun
    · rw [hbefore g (by omega), hword, if_neg (by omega)]
    · cases j with
      | zero => rw [Nat.add_zero, hbefore i (by omega), hword, if_pos rfl, List.getElem_cons_zero]
      | succ j => rw [← Nat.add_assoc, Nat.add_right_comm, hstored j (by simpa using hj), List.getElem_cons_succ]

/-- The commands of an image's contents leave its words from 0 on and its count. -/
theorem Loading.run_imageContents {s : State} (h : Loading s) {img : Image}
    (hfit : img.words.length ≤ s.cfg.b.toNat * 8) :
    ∃ u, runCommands (imageContents img) s = .next u ∧ RegistersKept s u ∧
      (∀ g (hg : g < img.words.length), u.word g = img.words[g]) ∧ u.counter 0 = BitVec.ofNat 64 img.count := by
  obtain ⟨t, hrun, hkept, -, hstored⟩ := h.run_loadCommands (i := 0) (ws := img.words) (by omega)
  refine ⟨(t.putCounter 0 (BitVec.ofNat 64 img.count)).deliver t.grant .ok 0, ?_,
    hkept.trans ⟨rfl, rfl, rfl, rfl, rfl, rfl, rfl, rfl⟩, fun g hg => ?_, cellGet_put_self ..⟩
  · rw [imageContents, runCommands_append hrun, runCommands, (h.kept hkept).exec_wrcount]
    rfl
  · exact (congrArg t.word (Nat.zero_add g)).symm.trans (hstored g hg)

/-! ## The CONFIG that opens the loading -/

theorem Variant.code_injective : Function.Injective Variant.code := by
  intro v w
  cases v <;> cases w <;> decide

/-- The CONFIG of a saved image constructs the saved filter's configuration, with its partition registers. -/
theorem exec_imageConfig {s t : State} (hs : StorageInv s) (hv : s.cfg.valid = true) (hvar : s.cfg.var = .unsync)
    (hparams : t.params = s.params) (hready : Ready (imageConfig (savedImage s)) t) :
    ∃ u, exec (imageConfig (savedImage s)) t = .next u ∧ respondedOk t u = true ∧ u.cfg = s.cfg ∧
      (∀ i < s.cfg.k.toNat, u.width i = s.width i ∧ u.offset i = s.offset i) ∧
      u.params = t.params ∧ u.ports = t.ports ∧ u.faults = t.faults ∧ u.grant = t.grant := by
  obtain ⟨hk3, hk14, hb1, hb50, hfits, hlog, hone⟩ := config_legal hs hv
  have hlog0 : s.cfg.log2n = 0 := hone (by rw [hvar]; decide)
  have hcmd : imageConfig (savedImage s) = .config 0 s.cfg.k 0 s.cfg.b := by
    simp [imageConfig, constructCommand, savedImage, requestedK_toNat]
  have hk : (if 3 ≤ s.cfg.k.toNat ∧ s.cfg.k.toNat ≤ 14 then s.cfg.k else 7) = s.cfg.k := if_pos ⟨hk3, hk14⟩
  have hb : (if s.cfg.b = 0 then 1 else s.cfg.b) = s.cfg.b := if_neg fun h0 => by rw [h0] at hb1; cases hb1
  rw [hcmd] at hready ⊢
  have hconfig := configConstructsTheFilter 0 s.cfg.k 0 s.cfg.b t hready (hparams ▸ hs.params) (by decide)
  simp only [hk, hb] at hconfig
  rw [hlog0] at hfits hlog
  obtain ⟨u, hexec, huv, hucode, huk, hub, hul, hrow, -, -, hup, huports, hufaults, -, hugrant, hudel⟩ :=
    hconfig ⟨.inr rfl, hparams ▸ hlog, hb50, hparams ▸ hfits⟩
  refine ⟨u, hexec, beq_iff_eq.2 hudel, ?_, fun i hi => ?_, hup, huports, hufaults, hugrant⟩
  · have huvar : u.cfg.var = s.cfg.var := Variant.code_injective (by rw [hucode, hvar]; rfl)
    calc u.cfg = ⟨u.cfg.valid, u.cfg.var, u.cfg.k, u.cfg.b, u.cfg.log2n⟩ := rfl
      _ = ⟨s.cfg.valid, s.cfg.var, s.cfg.k, s.cfg.b, s.cfg.log2n⟩ := by rw [huv, hv, huvar, huk, hub, hul, hlog0]
  · obtain ⟨hw, ho⟩ := (hs.configured hv).2 i hi
    obtain ⟨hw', ho'⟩ := hrow i hi
    rw [hparams] at hw' ho'
    exact ⟨hw'.trans hw.symm, ho'.trans ho.symm⟩

/-- Settles O57: CONFIG rebuilds the registers, and the commands after it the words and the counter. -/
theorem restoredFilterIsTheSavedOne : Obligations.RestoredFilterIsTheSavedOne := by
  unfold Obligations.RestoredFilterIsTheSavedOne
  intro s t bytes hs henc hparams hn hquiet hidle
  obtain ⟨hv, hvar, rfl⟩ := encodeImage_eq_some.1 henc
  obtain ⟨t1, hexec, hok, hcfg, hregs, hp, hports, hfaults, hgrant⟩ :=
    exec_imageConfig hs hv hvar hparams (ready_of_quiescent hn hquiet hidle _)
  have hloading : Loading t1 := by
    have hquiet1 : Quiescent t1 := fun x hx => hquiet x (hports ▸ hx)
    refine ⟨ready_of_quiescent (by rwa [hfaults]) hquiet1 (by rwa [State.canAccept, hports, hgrant]), by rwa [hcfg],
      ?_, ?_⟩
    · rw [hcfg, hp, hparams]
      exact (Nat.mul_le_mul_right 8 (Nat.le_mul_of_pos_left _ (Nat.two_pow_pos _))).trans (usedWords_le hs hv)
    · rw [hp, hparams]; exact hs.params.capBlocks_lt
  have hlen : (savedImage s).words.length = s.cfg.b.toNat * 8 := by simp [savedImage]
  obtain ⟨u, hrun, hkept, hwords, hcount⟩ := hloading.run_imageContents (img := savedImage s) (by rw [hlen, hcfg])
  refine ⟨u, ?_, hkept.cfg.trans hcfg, fun i hi => ?_, fun g hg => ?_, ?_⟩
  · rw [loadImage, decodeImage_imageBytes hs hv]
    simp only [restoreImage, hexec, hok, if_true, hrun, loadResult]
  · obtain ⟨hw, ho⟩ := hregs i hi
    exact ⟨(hkept.width i).trans hw, (hkept.offset i).trans ho⟩
  · rw [hwords g (hlen ▸ hg)]
    simp [savedImage]
  · exact hcount.trans (BitVec.ofNat_toNat ..)

/-! ## Refused images (R313, R314) -/

/-- The program of a CONFIG with a failed check (R344). -/
theorem program_config_of_not_fits {s : State} {varreq : BitVec 2} {log2nreq : BitVec 5} {breq : Word}
    {var : Variant} (hvar : variantOfCode varreq = some var)
    (hfits : ¬ configFits s.params var log2nreq (correctB breq) = true) (kreq : BitVec 4) :
    program (.config varreq kreq log2nreq breq) s = .raise .config := by
  show configProgram varreq kreq log2nreq breq s = _
  rw [configProgram, hvar]
  exact if_neg hfits

/-- Settles O59: CONFIG's last check fails for the image's block count, so that CONFIG only responds. -/
theorem refusedImageLoadsNothing : Obligations.RefusedImageLoadsNothing := by
  unfold Obligations.RefusedImageLoadsNothing
  intro bytes t
  refine ⟨fun e he => by rw [loadImage, he], fun img himg hn hquiet hidle hcap => ?_⟩
  obtain ⟨-, -, hb1, hb50, -⟩ := decodeImage_ok himg
  have hnat : (BitVec.ofNat 64 img.blockCount).toNat = img.blockCount := Nat.mod_eq_of_lt (by omega)
  have hb : correctB (BitVec.ofNat 64 img.blockCount) = BitVec.ofNat 64 img.blockCount :=
    if_neg fun h0 => by rw [h0] at hnat; exact absurd hnat.symm (Nat.ne_of_gt hb1)
  have hfits : ¬ configFits t.params .unsync 0 (correctB (BitVec.ofNat 64 img.blockCount)) = true := fun h => by
    obtain ⟨-, -, -, hle⟩ := configFits_iff.1 h
    rw [hb, hnat] at hle
    exact absurd hle (Nat.not_le.2 (by simpa using hcap))
  have hexec : exec (imageConfig img) t = .next (t.deliver t.grant .config 0) :=
    exec_of_no_tasks (ready_of_quiescent hn hquiet hidle _) (program_config_of_not_fits rfl hfits _) rfl rfl
  have hok : respondedOk t (t.deliver t.grant .config 0) = false := by simp [respondedOk]
  rw [loadImage, himg]
  simp only [restoreImage, hexec, hok, Bool.false_eq_true, if_false]

end Sys2Proof.Machine
end

section
/-! PROOFS. The faults of an overlap (60_exceptions.md R350 to R352): a faulted state is stuck (O14), an acceptance from an unfaulted state records the faults of its overlap and no other move records any (O15, O16). -/

namespace Sys2Proof.Machine

/-! ## A faulted state (R45, R350) -/

/-- A state with either fault recorded is stuck (R350). -/
theorem exists_stuck {f : FaultSet} (h : f.excl = true ∨ f.unsync = true) : ∃ e, f.stuck = some e := by
  refine Option.ne_none_iff_exists'.1 fun hn => ?_
  obtain ⟨hexcl, hunsync⟩ := stuck_eq_none.1 hn
  simp [hexcl, hunsync] at h

/-- Settles O14: a step first asks whether a fault is recorded, so one that answers a next state starts from none. -/
theorem faultedStateIsStuck : Obligations.FaultedStateIsStuck := by
  unfold Obligations.FaultedStateIsStuck
  refine ⟨fun s hfault => ?_, fun s t h => ?_⟩
  · obtain ⟨e, he⟩ := exists_stuck hfault
    exact ⟨e, step_of_stuck he⟩
  · obtain ⟨hexcl, hunsync⟩ := stuck_eq_none.1 (step_next_cases h).1
    simp [hexcl, hunsync]

/-! ## The faults of an overlap (R351, R352) -/

/-- F_EXCL_OVERLAP arises from a command in flight, where neither is a NOP and one of the two is exclusive (R351). -/
theorem overlapFaults_excl_iff {s : State} {r : Request} :
    (overlapFaults s r).excl = true ↔ ∃ q f, s.flight q = some f ∧ isNop r = false ∧ isNop f.req = false ∧
      (isExclusive r = true ∨ isExclusive f.req = true) := by
  simp only [overlapFaults, List.any_eq_true, mem_inFlight, Bool.and_eq_true, Bool.or_eq_true, Bool.not_eq_true']
  constructor
  · rintro ⟨_, ⟨q, f, hf, rfl⟩, ⟨hr, hd⟩, hexcl⟩
    exact ⟨q, f, hf, hr, hd, hexcl⟩
  · rintro ⟨q, f, hf, hr, hd, hexcl⟩
    exact ⟨_, ⟨q, f, hf, rfl⟩, ⟨hr, hd⟩, hexcl⟩

/-- F_UNSYNC_OVERLAP arises in a valid UNSYNC configuration from a command in flight, where neither is a NOP (R352). -/
theorem overlapFaults_unsync_iff {s : State} {r : Request} :
    (overlapFaults s r).unsync = true ↔ s.cfg.valid = true ∧ s.cfg.var = .unsync ∧
      ∃ q f, s.flight q = some f ∧ isNop r = false ∧ isNop f.req = false := by
  simp only [overlapFaults, List.any_eq_true, mem_inFlight, Bool.and_eq_true, Bool.not_eq_true', beq_iff_eq, and_assoc]
  refine and_congr_right fun _ => and_congr_right fun _ => ⟨?_, ?_⟩
  · rintro ⟨_, ⟨q, f, hf, rfl⟩, hr, hd⟩
    exact ⟨q, f, hf, hr, hd⟩
  · rintro ⟨q, f, hf, hr, hd⟩
    exact ⟨_, ⟨q, f, hf, rfl⟩, hr, hd⟩

theorem isNop_eq_false_iff {r : Request} : isNop r = false ↔ r.cmd ≠ 0 := beq_eq_false_iff_ne

theorem isExclusive_iff {r : Request} :
    isExclusive r = true ↔ r.cmd.extractLsb 7 0 ∈ ([0x04, 0x07, 0x09, 0x0A] : List (BitVec 8)) :=
  List.contains_iff_mem

/-- The overlap rules read a request's command word only. -/
theorem overlapFaults_of_cmd {s : State} {r r' : Request} (h : r'.cmd = r.cmd) :
    overlapFaults s r' = overlapFaults s r :=
  overlapFaults_congr rfl rfl (by rw [isNop, h, isNop]) (by rw [isExclusive, h, isExclusive])

/-! ## An acceptance -/

/-- A whole command serves a request of the same command word as the one presented. -/
theorem commandMove_serves_word (p : Nat) (r : Request) (s : State) :
    ∃ r' prog, r'.cmd = r.cmd ∧ commandMove p r s = serve p r' prog { s with grant := p } := by
  unfold commandMove
  split
  · exact ⟨_, _, (decodedCommandKeepsItsWord r _ ‹_›).2, exec_eq _ _⟩
  · exact ⟨r, _, rfl, rfl⟩

theorem runCommand_faults {p : Nat} {prog : Program} {s t : State} (h : runCommand p prog s = .next t) :
    t.faults = s.faults := by
  obtain ⟨s1, d1, s2, d2, hfirst, hsecond, rfl⟩ := runCommand_next h
  obtain ⟨-, -, hfaults1, -⟩ := runTasks_kept hfirst
  obtain ⟨-, -, hfaults2, -⟩ := runTasks_kept hsecond
  exact hfaults2.trans hfaults1

theorem faults_eq_of_unfaulted {f : FaultSet} (h : f.stuck = none) : f = ⟨false, false⟩ := by
  obtain ⟨excl, unsync⟩ := f
  obtain ⟨rfl, rfl⟩ := stuck_eq_none.1 h
  rfl

/-- Serving a request on an idle port leaves the faults of its overlap, whether it is then stuck or has run. -/
theorem serve_faults {p : Nat} {r : Request} {prog : Program} {s t : State} (hn : s.faults.stuck = none)
    (hidle : s.canAccept p = true) (h : serve p r prog s = .next t) : t.faults = overlapFaults s r := by
  rcases serve_cases p r prog s with ⟨e, hstuck, -⟩ | ⟨-, hbusy, -⟩ | ⟨-, -, -, hfault⟩ | ⟨-, -, halone, hrun⟩
  · rw [hn] at hstuck
    cases hstuck
  · rw [hidle] at hbusy
    cases hbusy
  · rw [hfault] at h
    cases h
    exact union_of_stuck_none hn
  · rw [runCommand_faults (hrun.symm.trans h), faults_eq_of_unfaulted hn, faults_eq_of_unfaulted halone]

theorem commandMove_faults {p : Nat} {r : Request} {s t : State} (hn : s.faults.stuck = none)
    (hidle : s.canAccept p = true) (h : commandMove p r s = .next t) : t.faults = overlapFaults s r := by
  obtain ⟨r', prog, hcmd, hserve⟩ := commandMove_serves_word p r s
  calc t.faults
    _ = overlapFaults s r' := serve_faults (s := { s with grant := p }) hn hidle (hserve.symm.trans h)
    _ = overlapFaults s r := overlapFaults_of_cmd hcmd

theorem acceptMove_faults {p : Nat} {s : State} (hn : s.faults.stuck = none) (hidle : s.canAccept p = true)
    (r : Request) : (acceptMove p r s).faults = overlapFaults s r := by
  rw [acceptMove, if_pos hidle]
  exact union_of_stuck_none hn

/-- The step that accepts a request, by either move, leaves the faults of its overlap (R351, R352). -/
theorem step_faults_of_accepts {s t : State} {p : Nat} {r : Request} {rest : List Move} (hn : s.faults.stuck = none)
    (hidle : s.canAccept p = true) (hsched : s.sched = .accept p r :: rest ∨ s.sched = .command p r :: rest)
    (h : step s = .next t) : t.faults = overlapFaults s r := by
  rcases hsched with hsched | hsched <;> rw [step_of_sched hn hsched] at h
  · cases h
    exact acceptMove_faults (s := { s with sched := rest }) hn hidle r
  · exact commandMove_faults (s := { s with sched := rest }) hn hidle h

/-- Another command in flight is in flight on another port than the idle one. -/
theorem ne_of_canAccept {s : State} {p q : Nat} {f : Flight} (hidle : s.canAccept p = true) (hf : s.flight q = some f) :
    q ≠ p := by
  rintro rfl
  rw [flight_of_canAccept hidle] at hf
  cases hf

/-! ## Every other move -/

/-- A move that accepts no request records no fault. -/
theorem runMove_unfaulted {m : Move} {s t : State} (hn : s.faults.stuck = none) (hm : acceptsRequest s m = false)
    (h : runMove m s = .next t) : t.faults.stuck = none := by
  cases m with
  | command p r =>
    cases (commandMove_of_busy r hn hm).symm.trans h
    exact hn
  | accept p r =>
    cases h
    rwa [acceptMove_of_busy r hm]
  | event p n =>
    rcases eventMove_cases p n s with hidle | ⟨_, _, _, _, -, -, -, hstop⟩ | ⟨_, _, _, _, _, -, -, hperform, hnext⟩
    · cases hidle.symm.trans h
      exact hn
    · cases hstop.symm.trans h
    · cases hnext.symm.trans h
      obtain ⟨-, -, hfaults, -⟩ := perform_kept hperform
      rwa [State.setPort_faults, hfaults]
  | shortCircuit p =>
    cases h
    rcases shortCircuitMove_cases p s with hkept | ⟨f, -, hstopped⟩
    · rwa [hkept]
    · rwa [hstopped]
  | respond p =>
    cases h
    rcases respondMove_cases p s with hkept | ⟨st, d, hresponded⟩
    · rwa [hkept]
    · rwa [hresponded]
  | reset u =>
    cases h
    rfl

/-- A step whose move accepts no request, if it answers a next state, leaves no fault recorded. -/
theorem step_unfaulted {s t : State} (hm : ∀ m ∈ s.sched.head?, acceptsRequest s m = false) (h : step s = .next t) :
    t.faults.stuck = none := by
  obtain ⟨hn, ⟨-, rfl⟩ | ⟨m, rest, hsched, hmove⟩⟩ := step_next_cases h
  · exact hn
  · have hm' : acceptsRequest s m = false := hm m (by rw [hsched]; rfl)
    refine runMove_unfaulted (s := { s with sched := rest }) hn ?_ hmove
    cases m <;> exact hm'

/-! ## The two faults -/

/-- Settles O15: the overlap of an acceptance decides the fault, and the accepting port is not itself in flight. -/
theorem exclusiveOverlapIsRecorded : Obligations.ExclusiveOverlapIsRecorded := by
  unfold Obligations.ExclusiveOverlapIsRecorded
  refine ⟨fun s t p r rest hn hidle hsched h => ?_, fun s t hm h => (stuck_eq_none.1 (step_unfaulted hm h)).1⟩
  rw [step_faults_of_accepts hn hidle hsched h, overlapFaults_excl_iff]
  simp only [isNop_eq_false_iff, isExclusive_iff]
  exact exists₂_congr fun q f => ⟨fun hover => ⟨ne_of_canAccept hidle hover.1, hover⟩, And.right⟩

/-- An UNSYNC engine with an ADD in flight on port 1 and port 0 idle. -/
def unsyncAddInFlight : State := acceptMove 1 (encode (.add 0)) (State.reset.writeCfg .unsync 3 4 0)

/-- A CLEAR beside an ADD in UNSYNC breaks both rules (R352). -/
theorem clear_beside_unsync_add : overlapFaults unsyncAddInFlight (encode .clear) = ⟨true, true⟩ := rfl

/-- Settles O16: the overlap of an acceptance decides the fault; a CLEAR accepted beside an ADD in UNSYNC records both. -/
theorem unsyncOverlapIsRecorded : Obligations.UnsyncOverlapIsRecorded := by
  unfold Obligations.UnsyncOverlapIsRecorded
  refine ⟨fun s t p r rest hn hidle hsched h => ?_, fun s t hm h => (stuck_eq_none.1 (step_unfaulted hm h)).2, ?_⟩
  · rw [step_faults_of_accepts hn hidle hsched h, overlapFaults_unsync_iff]
    simp only [isNop_eq_false_iff]
    exact and_congr_right fun _ => and_congr_right fun _ =>
      exists₂_congr fun q f => ⟨fun hover => ⟨ne_of_canAccept hidle hover.1, hover⟩, And.right⟩
  · have hstep : step { unsyncAddInFlight with sched := [.accept 0 (encode .clear)] } =
        .next (acceptMove 0 (encode .clear) unsyncAddInFlight) := rfl
    exact ⟨_, _, 0, encode .clear, rfl, rfl, hstep,
      (step_faults_of_accepts rfl rfl (.inl rfl) hstep).trans clear_beside_unsync_add⟩

end Sys2Proof.Machine
end

section
/-! PROOFS. The statuses of whole commands (60_exceptions.md R341 to R346): an error changes nothing (O48), and when E_CONFIG (O43), E_UNCONFIGURED (O46) and E_RANGE (O47) are raised. -/

namespace Sys2Proof.Machine

/-! ## Responses -/

/-- A served command delivers one response, with its program's status. -/
theorem exec_delivered {i : Instr} {s t : State} (hready : Ready i s) (h : exec i s = .next t) :
    ∃ d, t.delivered = ⟨s.grant, (program i s).status, d⟩ :: s.delivered := by
  obtain ⟨s1, d1, s2, d2, hfirst, hsecond, rfl⟩ := exec_next_of_ready hready h
  obtain ⟨-, -, -, -, -, hdelivered1⟩ := runTasks_kept hfirst
  obtain ⟨-, -, -, -, -, hdelivered2⟩ := runTasks_kept hsecond
  exact ⟨_, by rw [State.deliver_delivered, hdelivered2, hdelivered1]⟩

/-- The status a served command responds with is its program's. -/
theorem exec_status_iff {i : Instr} {s t : State} (hready : Ready i s) (h : exec i s = .next t) (st : Status) :
    (∃ d, t.delivered = ⟨s.grant, st, d⟩ :: s.delivered) ↔ (program i s).status = st := by
  obtain ⟨d, hd⟩ := exec_delivered hready h
  rw [hd]
  simp

/-- A command that raises a status only responds, with DATA 0 (R13). -/
theorem exec_of_raise {i : Instr} {s : State} {st : Status} (hready : Ready i s) (hp : program i s = .raise st) :
    exec i s = .next (s.deliver s.grant st 0) := by
  rw [exec_eq, serve_of_ready _ hready.unfaulted hready.idle hready.alone, hp, runCommand_raise]

/-- Settles O48: a program that does not respond OK is one that raises its status. -/
theorem errorsChangeNothing : Obligations.ErrorsChangeNothing := by
  unfold Obligations.ErrorsChangeNothing
  intro i s t hready h
  rcases program_ok_or_raise i s with hok | ⟨st, hraise⟩
  · obtain ⟨d, hd⟩ := exec_delivered hready h
    exact ⟨_, d, hd, fun hne => absurd hok hne⟩
  · cases (exec_of_raise hready hraise).symm.trans h
    exact ⟨st, 0, rfl, fun _ => ⟨rfl, rfl⟩⟩

/-! ## The status behind the gate (R180) -/

theorem gate_of_invalid {s : State} (h : s.cfg.valid = false) (p : Program) : gate s p = .raise .unconfigured := by
  simp [gate, h]

/-- The program responds OK or raises E_RANGE, as every one behind the gate does. -/
def Program.OkOrRange (p : Program) : Prop := p.status = .ok ∨ p.status = .range

theorem unlessThen_range_okOrRange (b : Bool) {p : Program} (h : p.status = .ok) :
    (unlessThen b .range p).OkOrRange :=
  unlessThen_induction Program.OkOrRange (fun _ => .inl h) fun _ => .inr rfl

theorem configuredProgram_okOrRange (sel : Nat) (s : State) : (configuredProgram sel s).OkOrRange := by
  unfold configuredProgram
  split
  iterate 6 exact .inl rfl
  split <;> exact unlessThen_range_okOrRange _ rfl

/-- RDCFG of a selector that is not one of the four parameters' is gated (R282). -/
theorem rdcfgProgram_of_needs {sel : BitVec 8} (hneeds : needsConfiguration (.rdcfg sel) = true)
    (hsel : validSel sel = true) (s : State) : rdcfgProgram sel s = gate s (configuredProgram sel.toNat s) := by
  have hne : ∀ v : BitVec 8, needsConfiguration (.rdcfg v) = false → sel.toNat ≠ v.toNat := fun v hv he => by
    rw [BitVec.eq_of_toNat_eq he, hv] at hneeds
    cases hneeds
  unfold rdcfgProgram
  rw [if_pos hsel]
  split
  · exact absurd ‹_› (hne 0x06 rfl)
  · exact absurd ‹_› (hne 0x07 rfl)
  · exact absurd ‹_› (hne 0x08 rfl)
  · exact absurd ‹_› (hne 0x09 rfl)
  · rfl

/-- A well-formed command that needs a configuration is gated, and behind the gate responds OK or E_RANGE (R342). -/
theorem program_gated {i : Instr} (hneeds : needsConfiguration i = true) (hwf : i.wellFormed = true) (s : State) :
    ∃ p, program i s = gate s p ∧ p.OkOrRange := by
  cases i with
  | nop | config => cases hneeds
  | add | test | testadd | clear => exact ⟨_, rfl, .inl rfl⟩
  | popcnt | rdcount | wrcount | rdword | wrword => exact ⟨_, rfl, unlessThen_range_okOrRange _ rfl⟩
  | rdcfg sel =>
    exact ⟨_, rdcfgProgram_of_needs hneeds ((validSel_eq sel).trans hwf) s, configuredProgram_okOrRange _ s⟩

/-! ## The other commands -/

/-- A command that no legal word encodes raises E_ILLEGAL (R106, R111). -/
theorem program_of_ill_formed {i : Instr} (hwf : i.wellFormed = false) (s : State) :
    program i s = .raise .illegal := by
  cases i with
  | config varreq kreq log2nreq breq =>
    obtain rfl : varreq = 3 := by simpa [Instr.wellFormed] using hwf
    rfl
  | rdcfg sel => exact if_neg (by rw [validSel_eq, hwf]; exact Bool.false_ne_true)
  | nop | add | test | testadd | clear | popcnt | rdcount | wrcount | rdword | wrword => cases hwf

/-- CONFIG of one of the three variants responds E_CONFIG where a check fails, and OK otherwise (R276, R344). -/
theorem program_config_status {s : State} {varreq : BitVec 2} {var : Variant} (hvar : variantOfCode varreq = some var)
    (kreq : BitVec 4) (log2nreq : BitVec 5) (breq : Word) :
    (program (.config varreq kreq log2nreq breq) s).status =
      if configFits s.params var log2nreq (correctB breq) = true then .ok else .config := by
  split
  · rw [program_config hvar ‹_›]
    rfl
  · rw [program_config_of_not_fits hvar ‹_›]
    rfl

theorem variantOfCode_eq_some {varreq : BitVec 2} (h : varreq ≠ 3) : ∃ var, variantOfCode varreq = some var :=
  Option.ne_none_iff_exists'.1 (mt variantOfCode_eq_none.1 h)

/-- A well-formed command that needs no configuration responds OK, or is a CONFIG and responds E_CONFIG. -/
theorem program_status_of_not_needs {i : Instr} (hneeds : needsConfiguration i = false) (hwf : i.wellFormed = true)
    (s : State) : (program i s).status = .ok ∨
      ((program i s).status = .config ∧ ∃ varreq kreq log2nreq breq, i = .config varreq kreq log2nreq breq) := by
  cases i with
  | nop => exact .inl rfl
  | config varreq kreq log2nreq breq =>
    obtain ⟨var, hvar⟩ := variantOfCode_eq_some (varreq := varreq) (by simpa [Instr.wellFormed] using hwf)
    rw [program_config_status hvar]
    split
    · exact .inl rfl
    · exact .inr ⟨rfl, _, _, _, _, rfl⟩
  | rdcfg sel =>
    have hsel : sel ∈ ([0x06, 0x07, 0x08, 0x09] : List (BitVec 8)) := by
      simpa only [needsConfiguration, Bool.not_eq_false', List.contains_iff_mem] using hneeds
    simp only [List.mem_cons, List.not_mem_nil, or_false] at hsel
    rcases hsel with rfl | rfl | rfl | rfl <;> exact .inl rfl
  | add | test | testadd | clear | popcnt | rdcount | wrcount | rdword | wrword => cases hneeds

/-! ## E_UNCONFIGURED (R342) -/

/-- A well-formed command that needs no configuration, or has one, does not raise E_UNCONFIGURED. -/
theorem program_status_ne_unconfigured {i : Instr} {s : State} (hwf : i.wellFormed = true)
    (h : needsConfiguration i = false ∨ s.cfg.valid = true) : (program i s).status ≠ .unconfigured := by
  rcases hneeds : needsConfiguration i with _ | _
  · rcases program_status_of_not_needs hneeds hwf s with hst | ⟨hst, -⟩ <;> rw [hst] <;> nofun
  · have hv : s.cfg.valid = true := h.resolve_left (by rw [hneeds]; nofun)
    obtain ⟨p, hp, hst | hst⟩ := program_gated hneeds hwf s <;> rw [hp, gate_of_valid hv, hst] <;> nofun

/-- Settles O46: the gate of R180, which every command that needs a configuration has and no other. -/
theorem unconfiguredCommandsAreRefused : Obligations.UnconfiguredCommandsAreRefused := by
  unfold Obligations.UnconfiguredCommandsAreRefused
  refine ⟨fun i s hready hv hwf hneeds => ?_, fun i s t hready hwf hor h d hd => ?_⟩
  · obtain ⟨p, hp, -⟩ := program_gated hneeds hwf s
    exact exec_of_raise hready (hp.trans (gate_of_invalid hv p))
  · exact program_status_ne_unconfigured hwf hor ((exec_status_iff hready h _).1 ⟨d, hd⟩)

/-! ## E_CONFIG (R344) -/

/-- The checks of R276 fail on the operands where one of the four conditions of R344 holds. -/
theorem not_configFits_iff {p : Params} {varreq : BitVec 2} {var : Variant} (hvar : variantOfCode varreq = some var)
    {l : BitVec 5} {b : Word} : ¬ configFits p var l b = true ↔
      (l ≠ 0 ∧ varreq ≠ 2) ∨ p.log2nmax < l.toNat ∨ 2 ^ 50 ≤ b.toNat ∨ p.capBlocks < b.toNat * 2 ^ l.toNat := by
  rw [configFits_iff, (variantOfCode_code hvar).2, or_comm]
  simp only [not_and_or, not_or, not_le, not_lt, ne_eq]

/-- No command but CONFIG raises E_CONFIG. -/
theorem eq_config_of_status {i : Instr} {s : State} (h : (program i s).status = .config) :
    ∃ varreq kreq log2nreq breq, i = .config varreq kreq log2nreq breq := by
  rcases hwf : i.wellFormed with _ | _
  · rw [program_of_ill_formed hwf] at h
    cases h
  rcases hneeds : needsConfiguration i with _ | _
  · rcases program_status_of_not_needs hneeds hwf s with hok | ⟨-, hconfig⟩
    · rw [hok] at h
      cases h
    · exact hconfig
  · obtain ⟨p, hp, hp'⟩ := program_gated hneeds hwf s
    have hne : (gate s p).status ≠ .config :=
      gate_induction (fun p => p.status ≠ .config) (fun _ he => by simp [Program.OkOrRange, he] at hp') fun _ => nofun
    exact absurd (hp ▸ h) hne

/-- Settles O43: a CONFIG with VARREQ 3 is illegal first, and any other raises E_CONFIG where its checks fail. -/
theorem configErrorIsRaisedExactlyByItsChecks : Obligations.ConfigErrorIsRaisedExactlyByItsChecks := by
  unfold Obligations.ConfigErrorIsRaisedExactlyByItsChecks
  intro i s t hready h
  rw [exec_status_iff hready h]
  constructor
  · intro hst
    obtain ⟨varreq, kreq, log2nreq, breq, rfl⟩ := eq_config_of_status hst
    have hvarreq : varreq ≠ 3 := by
      rintro rfl
      rw [program_of_ill_formed rfl] at hst
      cases hst
    obtain ⟨var, hvar⟩ := variantOfCode_eq_some hvarreq
    have hfails : ¬ configFits s.params var log2nreq (correctB breq) = true := fun hfits => by
      rw [program_config_status hvar, if_pos hfits] at hst
      cases hst
    exact ⟨varreq, kreq, log2nreq, breq, rfl, hvarreq, (not_configFits_iff hvar).1 hfails⟩
  · rintro ⟨varreq, kreq, log2nreq, breq, rfl, hvarreq, hfails⟩
    obtain ⟨var, hvar⟩ := variantOfCode_eq_some hvarreq
    rw [program_config_status hvar]
    exact if_neg ((not_configFits_iff hvar).2 hfails)

/-! ## E_RANGE (R343) -/

/-- A configured command whose check of R343 fails only responds E_RANGE. -/
theorem exec_of_range {i : Instr} {s : State} {b : Bool} {p : Program} (hc : Configured i s)
    (hp : program i s = gate s (unlessThen b .range p)) (hb : ¬ b = true) :
    exec i s = .next (s.deliver s.grant .range 0) :=
  exec_of_raise hc.ready (hp.trans ((gate_of_valid hc.valid _).trans (if_neg hb)))

/-- ADD, TEST and TESTADD are gated and have no check of their own (R343). -/
theorem program_probe_status_ne_range {h : Word} {i : Instr} (hi : i = .add h ∨ i = .test h ∨ i = .testadd h)
    (s : State) : (program i s).status ≠ .range := by
  rcases hi with rfl | rfl | rfl <;> exact gate_induction (fun p => p.status ≠ .range) (fun _ => nofun) fun _ => nofun

/-- The check of RDWORD and WRWORD fails where either index is out of range. -/
theorem not_hasShard_and_hasWord {c : Cfg} {shard : BitVec 16} {widx : Word}
    (h : c.shards ≤ shard.toNat ∨ c.b.toNat * 8 ≤ widx.toNat) :
    ¬ (c.hasShard shard && c.hasWord widx) = true := by
  rw [hasShard_and_hasWord_iff]
  omega

/-- Settles O47: each command's check fails on an index out of range, and the per-key commands have none. -/
theorem rangeErrorsAreRaised : Obligations.RangeErrorsAreRaised := by
  unfold Obligations.RangeErrorsAreRaised
  refine ⟨fun shard s hc hshard => exec_of_range hc rfl ?_, fun shard s hc hshard => exec_of_range hc rfl ?_,
    fun shard cval s hc hshard => exec_of_range hc rfl ?_, fun shard widx s hc hout => exec_of_range hc rfl ?_,
    fun shard widx wval s hc hout => exec_of_range hc rfl ?_, fun i s hi hk => ⟨fun hc => ?_, fun hc => ?_⟩,
    fun h i s t hi hready hexec d hd => ?_⟩
  · exact mt hasShard_iff.1 (Nat.not_lt.2 hshard)
  · exact mt hasShard_iff.1 (Nat.not_lt.2 hshard)
  · exact mt hasShard_iff.1 (Nat.not_lt.2 hshard)
  · exact not_hasShard_and_hasWord hout
  · exact not_hasShard_and_hasWord hout
  · exact exec_of_range hc (rdcfgProgram_width s hi) (by simpa using hk)
  · exact exec_of_range hc (rdcfgProgram_offset s hi) (by simpa using hk)
  · exact program_probe_status_ne_range hi s ((exec_status_iff hready hexec _).1 ⟨d, hd⟩)

end Sys2Proof.Machine
end

section
/-! PROOFS. The state after reset and the reset wire (70_reset_and_hazards.md R380, R381): O8, O9 and O10. -/

namespace Sys2Proof.Machine

/-- Settles O8: `State.resetWith` sets these registers itself, whatever the storage holds. -/
theorem resetGivesTheResetState : Obligations.ResetGivesTheResetState := by
  unfold Obligations.ResetGivesTheResetState
  intro p u
  have hports : (State.resetWith p u).ports = List.replicate p.nports .idle := rfl
  refine ⟨rfl, ?_, fun i hi => ?_, rfl⟩
  · rw [hports, List.length_replicate]
  · rw [hports, List.getElem?_replicate, if_pos hi]

/-- The reset wire leaves no command in flight (R381). -/
theorem resetMove_flight (u : Residue) (s : State) (p : Nat) : (resetMove u s).flight p = none :=
  resetWith_flight s.params (Residue.normal s.params u) p

/-- Settles O9: the reset wire leaves the state after reset with the schedule and the responses it found. -/
theorem resetWireAbandonsCommands : Obligations.ResetWireAbandonsCommands := by
  unfold Obligations.ResetWireAbandonsCommands
  intro s u rest hn hsched
  exact ⟨_, step_of_sched hn hsched, rfl, resetMove_flight u _, rfl, rfl, rfl, rfl⟩

/-- Settles O10: the reset wire, which leaves a legal state of any legal storage, leaves `State.reset` of itself. -/
theorem resetStateMeetsTheInvariant : Obligations.ResetStateMeetsTheInvariant := by
  unfold Obligations.ResetStateMeetsTheInvariant
  have hstorage : StorageInv State.reset := resetWith_storage reference_legal Residue.zero
  exact resetMove_inv hstorage Residue.zero

end Sys2Proof.Machine
end

section
/-! PROOFS. The progress of a command in flight (70_reset_and_hazards.md R387, R388): its events decrease what is left to it, its response follows the last of them, and the moves of other ports leave it alone (O55). -/

namespace Sys2Proof.Machine

/-! ## What is left to a flight (R388) -/

theorem rest_weight_le (prog : Program) (done : List Done) :
    ((prog.rest done).map Task.weight).sum ≤ (prog.second.map Task.weight).sum := by
  unfold Program.rest
  split
  · exact Nat.zero_le _
  · exact le_rfl

/-- Going on to the second part leaves no more than was counted for it. -/
theorem settle_left_le (f : Flight) : f.settle.left ≤ f.left := by
  unfold Flight.settle
  split
  · rename_i hpart htodo
    have := rest_weight_le f.prog f.done
    simpa [Flight.left, hpart, htodo] using this
  · exact le_rfl
  · exact le_rfl

/-- What a task leaves to perform is fewer events than the task: one of two, or none of one (R183). -/
theorem Task.followUp_weight_lt (x : Task) (v : Word) : ((x.followUp v).toList.map Task.weight).sum < x.weight := by
  cases x with
  | rmwLoad => exact Nat.one_lt_two
  | probe | setBit | rmwStore | inc | countOnes | addCount | readWord | storeWord | storeCount | writeCfg =>
    exact Nat.one_pos

/-- Every event of a flight leaves fewer to perform (R387). -/
theorem advance_left_lt {f : Flight} {n : Nat} {x : Task} {rest : List Task}
    (hpick : pickTask f.todo n = some (x, rest)) (v : Word) : (f.advance x v rest).left < f.left := by
  have htodo : (f.todo.map Task.weight).sum = x.weight + (rest.map Task.weight).sum :=
    ((pickTask_perm hpick).map Task.weight).sum_eq
  have hfollow := x.followUp_weight_lt v
  refine (settle_left_le _).trans_lt ?_
  simp only [Flight.left, List.map_append, List.sum_append, htodo]
  omega

/-! ## The moves of the flight itself -/

/-- A legal flight that is not complete has a task to perform. -/
theorem FlightLegal.exists_task {s : State} {f : Flight} (h : FlightLegal s f) (hf : f.complete = false) :
    ∃ x l, f.todo = x :: l := by
  refine List.exists_cons_of_ne_nil ?_
  cases hpart : f.part with
  | first => exact h.settled hpart
  | second => simpa [Flight.complete, hpart] using hf

/-- The event of a task that is picked and performed. -/
theorem eventMove_of_perform {s s1 : State} {p n : Nat} {f : Flight} {x : Task} {rest : List Task} {v : Word}
    (hf : s.flight p = some f) (hpick : pickTask f.todo n = some (x, rest))
    (hperform : perform s x.event = .ok (s1, v)) :
    eventMove p n s = .next (s1.setPort p (.busy (f.advance x v rest))) := by
  simp only [eventMove, hf, hpick, hperform]

/-- A legal flight that is not complete performs its first task and has fewer left (R387). -/
theorem eventMove_progress {s : State} {p : Nat} {f : Flight} (h : FlightInv s) (hf : s.flight p = some f)
    (hc : f.complete = false) : ∃ t f', eventMove p 0 s = .next t ∧ t.flight p = some f' ∧ f'.left < f.left := by
  have hlegal := h.flights p f hf
  obtain ⟨x, l, htodo⟩ := hlegal.exists_task hc
  have hpick : pickTask f.todo 0 = some (x, l) := htodo ▸ pickTask_zero (htodo ▸ hlegal.stores_lead)
  obtain ⟨s1, v, hperform⟩ := perform_of_legal (hlegal.todo x (pickTask_mem hpick).1).legal
  obtain ⟨-, hports, -⟩ := perform_kept hperform
  exact ⟨_, _, eventMove_of_perform hf hpick hperform, flight_setPort_busy s1 _ (hports ▸ flight_lt hf),
    advance_left_lt hpick v⟩

/-- A complete flight is responded to, and its port is IDLE (R101). -/
theorem respondMove_of_complete {s : State} {p : Nat} {f : Flight} (hf : s.flight p = some f)
    (hc : f.complete = true) :
    respondMove p s = (s.setPort p .idle).deliver p f.prog.status (f.prog.data f.done) := by
  simp only [respondMove, hf, hc, if_true]

/-! ## The moves of other ports -/

/-- The port a move is of; the reset wire is of none. -/
def Move.port : Move → Option Nat
  | .command p _ => some p
  | .accept p _ => some p
  | .event p _ => some p
  | .shortCircuit p => some p
  | .respond p => some p
  | .reset _ => none

/-- A request served to a next state has set its own port or none. -/
theorem serve_ports {q : Nat} {r : Request} {prog : Program} {s t : State} (h : serve q r prog s = .next t) :
    t.ports = s.ports ∨ ∃ x, t.ports = s.ports.set q x := by
  rcases serve_cases q r prog s with ⟨e, -, hstop⟩ | ⟨-, -, hwait⟩ | ⟨-, -, -, hfault⟩ | ⟨-, -, -, hrun⟩
  · rw [hstop] at h
    cases h
  · rw [hwait] at h
    cases h
    exact .inl rfl
  · rw [hfault] at h
    cases h
    exact .inr ⟨_, rfl⟩
  · obtain ⟨s1, d1, s2, d2, hfirst, hrest, rfl⟩ := runCommand_next (hrun.symm.trans h)
    obtain ⟨-, hports, -⟩ := runTasks_kept hfirst
    obtain ⟨-, hports', -⟩ := runTasks_kept hrest
    exact .inl (hports'.trans hports)

theorem eventMove_ports {q n : Nat} {s t : State} (h : eventMove q n s = .next t) :
    t.ports = s.ports ∨ ∃ x, t.ports = s.ports.set q x := by
  rcases eventMove_cases q n s with hidle | ⟨_, _, _, _, -, -, -, hstop⟩ |
    ⟨f, x, rest, s1, v, -, -, hperform, hnext⟩
  · rw [hidle] at h
    cases h
    exact .inl rfl
  · rw [hstop] at h
    cases h
  · rw [hnext] at h
    cases h
    obtain ⟨-, hports, -⟩ := perform_kept hperform
    exact .inr ⟨_, by rw [State.setPort_ports, hports]⟩

/-- A move of a port sets that port or none. -/
theorem runMove_ports {m : Move} {q : Nat} {s t : State} (hm : m.port = some q) (h : runMove m s = .next t) :
    t.ports = s.ports ∨ ∃ x, t.ports = s.ports.set q x := by
  cases m with
  | command p r =>
    cases hm
    obtain ⟨r', prog, hserve⟩ := commandMove_serves q r s
    exact serve_ports (s := { s with grant := q }) (hserve.symm.trans h)
  | accept p r =>
    cases hm
    cases h
    rcases acceptMove_cases q r s with h | ⟨-, h⟩ <;> rw [h]
    · exact .inl rfl
    · exact .inr ⟨_, rfl⟩
  | event p n =>
    cases hm
    exact eventMove_ports h
  | shortCircuit p =>
    cases hm
    cases h
    rcases shortCircuitMove_cases q s with h | ⟨f, -, h⟩ <;> rw [h]
    · exact .inl rfl
    · exact .inr ⟨_, rfl⟩
  | respond p =>
    cases hm
    cases h
    rcases respondMove_cases q s with h | ⟨st, d, h⟩ <;> rw [h]
    · exact .inl rfl
    · exact .inr ⟨_, rfl⟩
  | reset u => cases hm

/-- A move of another port leaves a port's flight as it is. -/
theorem runMove_flight_of_port_ne {m : Move} {p q : Nat} {s t : State} (hm : m.port = some q) (hq : q ≠ p)
    (h : runMove m s = .next t) : t.flight p = s.flight p := by
  rcases runMove_ports hm h with hports | ⟨x, hports⟩
  · exact flight_congr hports p
  · exact (flight_congr (s := s.setPort q x) hports p).trans (flight_setPort_ne s x hq.symm)

/-! ## Progress -/

/-- Settles O55: the invariant gives a flight that is not complete a task that may be performed, each event takes from
what is left, and a move of another port sets that port at most. -/
theorem flightsMakeProgress : Obligations.FlightsMakeProgress := by
  unfold Obligations.FlightsMakeProgress
  refine ⟨fun s p f rest hinv hn hf hc => ?_, fun s p f rest hn hf hc => ?_,
    fun s t p q n f r m rest hf hq hm hstep => ?_⟩
  · rw [step_with_sched hn]
    exact eventMove_progress ((hinv.with_sched rest).inFlight hn) hf hc
  · rw [step_with_sched hn]
    exact congrArg Host.Outcome.next (respondMove_of_complete (s := { s with sched := rest }) hf hc)
  · have hport : m.port = some q := by rcases hm with rfl | rfl | rfl | rfl | rfl <;> rfl
    obtain ⟨hn, -⟩ := step_next_cases hstep
    rw [step_with_sched (s := s) hn] at hstep
    exact (runMove_flight_of_port_ne hport hq hstep).trans hf

end Sys2Proof.Machine
end
